-- ==== Sys2Proof/Word.lean ====
section
/-! DEFINITION. The widths of the machine (00_scope.md R6: `REG_WIDTH` is 32 bits, memory bytes are 8 bits) and the one
operand field a command word has (30_encoding.md R106). -/

namespace Sys2Proof

/-- A register value or a command word: 32 bits (R6, `REG_WIDTH`). -/
abbrev Word := BitVec 32

/-- A byte of data memory (R70). -/
abbrev Byte := BitVec 8

/-- `ORDER` = `CMD[12]` of `PACK` and `UNPACK` (R106): 0 selects raster order, 1 selects band order. -/
inductive Order where
  | raster
  | band
  deriving DecidableEq, Repr, Inhabited

end Sys2Proof
end

