-- ==== Sys2Proof/Syntax.lean ====
section
/-! DEFINITION. The commands (00_scope.md R3, 30_encoding.md R101): one constructor of `Instr` for each row of
spec/opcode_table.json, and the raw fields of a command word (30_encoding.md R100). -/

namespace Sys2Proof

/-- The command set of R3, in the order of the opcode map R101.  Operands that live in registers are no part of the
command word; the only operand of the word is `ORDER` (R106, R115). -/
inductive Instr where
  | nop
  | lzwEnc
  | lzwDec
  | wt1Fwd
  | wt1Inv
  | wt2Fwd
  | wt2Inv
  | qFwd
  | qInv
  | packWrap (order : Order)
  | packSats (order : Order)
  | packSatu (order : Order)
  | unpackU (order : Order)
  | unpackS (order : Order)
  deriving DecidableEq, Repr, Inhabited

/-- The fields of a 32-bit command word (R100), each read as an unsigned number: `OPCODE` `[7:0]`, `MODE` `[9:8]`, the
reserved bits `[11:10]`, `ORDER` `[12]` and the reserved bits `[31:13]`. -/
structure CmdFields where
  opcode : Nat
  mode : Nat
  rsvLow : Nat
  order : Nat
  rsvHigh : Nat
  deriving DecidableEq, Repr

end Sys2Proof
end

