-- ==== Sys2Proof/WellFormed.lean ====
section
/-! DEFINITION. Which field values make a legal command word (30_encoding.md R100 to R106).  An `Instr` has no ill-formed
value of its own (its only operand is `Order`), so the checks stand on the raw fields, and an instruction is well formed
when the fields R101 gives it are. -/

namespace Sys2Proof

/-- Why a command word selects no row of the opcode map (R102). -/
inductive CmdReject where
  /-- an `OPCODE` not in the table -/
  | unknownOpcode
  /-- a nonzero reserved bit (`[11:10]` or `[31:13]`) -/
  | reservedBits
  /-- a nonzero `MODE` on an opcode that does not use it -/
  | modeUnused
  /-- a nonzero `ORDER` on an opcode that does not use it -/
  | orderUnused
  /-- `MODE = 3` on `PACK` -/
  | packMode
  /-- bit 9 set on `UNPACK` -/
  | unpackBit9
  deriving DecidableEq, Repr

namespace CmdFields

/-- The opcodes that use neither `MODE` nor `ORDER` (R100, R101). -/
def plainOpcodes : List Nat := [0x00, 0x01, 0x02, 0x10, 0x11, 0x12, 0x13, 0x20, 0x21]

/-- The first reason why the fields make no legal word (R102), or `none` for a legal one. -/
def reject (f : CmdFields) : Option CmdReject :=
  if f.opcode ∉ plainOpcodes ∧ f.opcode ≠ 0x30 ∧ f.opcode ≠ 0x31 then some .unknownOpcode
  else if f.rsvLow ≠ 0 ∨ f.rsvHigh ≠ 0 then some .reservedBits
  else if f.opcode ∈ plainOpcodes ∧ f.mode ≠ 0 then some .modeUnused
  else if f.opcode ∈ plainOpcodes ∧ f.order ≠ 0 then some .orderUnused
  else if f.opcode = 0x30 ∧ 3 ≤ f.mode then some .packMode
  else if f.opcode = 0x31 ∧ 2 ≤ f.mode then some .unpackBit9
  else none

/-- The fields fit their widths (R100). -/
def inRange (f : CmdFields) : Bool :=
  f.opcode < 2 ^ 8 && f.mode < 2 ^ 2 && f.rsvLow < 2 ^ 2 && f.order < 2 ^ 1 && f.rsvHigh < 2 ^ 19

/-- The fields are those of a legal command word. -/
def wellFormed (f : CmdFields) : Bool := f.inRange && f.reject.isNone

end CmdFields

/-- The bit `ORDER` holds for an order (R106). -/
def Order.bit : Order → Nat
  | .raster => 0
  | .band => 1

/-- The fields R101 gives each command. -/
def Instr.fields : Instr → CmdFields
  | .nop => ⟨0x00, 0, 0, 0, 0⟩
  | .lzwEnc => ⟨0x01, 0, 0, 0, 0⟩
  | .lzwDec => ⟨0x02, 0, 0, 0, 0⟩
  | .wt1Fwd => ⟨0x10, 0, 0, 0, 0⟩
  | .wt1Inv => ⟨0x11, 0, 0, 0, 0⟩
  | .wt2Fwd => ⟨0x12, 0, 0, 0, 0⟩
  | .wt2Inv => ⟨0x13, 0, 0, 0, 0⟩
  | .qFwd => ⟨0x20, 0, 0, 0, 0⟩
  | .qInv => ⟨0x21, 0, 0, 0, 0⟩
  | .packWrap o => ⟨0x30, 0, 0, o.bit, 0⟩
  | .packSats o => ⟨0x30, 1, 0, o.bit, 0⟩
  | .packSatu o => ⟨0x30, 2, 0, o.bit, 0⟩
  | .unpackU o => ⟨0x31, 0, 0, o.bit, 0⟩
  | .unpackS o => ⟨0x31, 1, 0, o.bit, 0⟩

/-- A command is well formed when its word's fields are. -/
def Instr.wellFormed (i : Instr) : Bool := i.fields.wellFormed

end Sys2Proof
end

