-- ==== Sys2Proof/Decode.lean ====
section
/-! DEFINITION. The decoder of command words (30_encoding.md R100 to R106), total on all 2^32 words and rejecting by name,
and after it the encoder (R115).  The engine fetches no instructions from memory (20_memory.md R88): the word is the value
the host writes to `CMD`, so no byte order is involved. -/

namespace Sys2Proof

/-- Bits `[hi:lo]` of a word as an unsigned number (00_scope.md R8). -/
def bitsOf (w : Word) (hi lo : Nat) : Nat := w.toNat / 2 ^ lo % 2 ^ (hi + 1 - lo)

/-- The fields of a command word (R100). -/
def fieldsOf (w : Word) : CmdFields where
  opcode := bitsOf w 7 0
  mode := bitsOf w 9 8
  rsvLow := bitsOf w 11 10
  order := bitsOf w 12 12
  rsvHigh := bitsOf w 31 13

/-- `ORDER` of a word (R106): 0 raster, 1 band. -/
def orderOf (w : Word) : Order := if bitsOf w 12 12 = 0 then .raster else .band

/-- One row of the opcode map R101: a word `w` selects the row when `w & mask = pattern`. -/
structure OpRow where
  mnemonic : String
  pattern : Word
  mask : Word
  build : Order → Instr

/-- The opcode map of R101, its match/mask pairs as printed there. -/
def opcodeMap : List OpRow := [
  ⟨"NOP", 0x00000000, 0xFFFFFFFF, fun _ => .nop⟩,
  ⟨"LZW_ENC", 0x00000001, 0xFFFFFFFF, fun _ => .lzwEnc⟩,
  ⟨"LZW_DEC", 0x00000002, 0xFFFFFFFF, fun _ => .lzwDec⟩,
  ⟨"WT1_FWD", 0x00000010, 0xFFFFFFFF, fun _ => .wt1Fwd⟩,
  ⟨"WT1_INV", 0x00000011, 0xFFFFFFFF, fun _ => .wt1Inv⟩,
  ⟨"WT2_FWD", 0x00000012, 0xFFFFFFFF, fun _ => .wt2Fwd⟩,
  ⟨"WT2_INV", 0x00000013, 0xFFFFFFFF, fun _ => .wt2Inv⟩,
  ⟨"Q_FWD", 0x00000020, 0xFFFFFFFF, fun _ => .qFwd⟩,
  ⟨"Q_INV", 0x00000021, 0xFFFFFFFF, fun _ => .qInv⟩,
  ⟨"PACK.WRAP", 0x00000030, 0xFFFFEFFF, .packWrap⟩,
  ⟨"PACK.SATS", 0x00000130, 0xFFFFEFFF, .packSats⟩,
  ⟨"PACK.SATU", 0x00000230, 0xFFFFEFFF, .packSatu⟩,
  ⟨"UNPACK.U", 0x00000031, 0xFFFFEFFF, .unpackU⟩,
  ⟨"UNPACK.S", 0x00000131, 0xFFFFEFFF, .unpackS⟩]

/-- A word selects a row (R101). -/
def OpRow.selects (row : OpRow) (w : Word) : Bool := w &&& row.mask == row.pattern

/-- The command a word selects, or the name of what makes it illegal (R101, R102).  The name of the reason is not
visible to software: every illegal word completes with `E_BAD_CMD`. -/
def decode (w : Word) : Except CmdReject Instr :=
  match opcodeMap.find? (·.selects w) with
  | some row => .ok (row.build (orderOf w))
  | none => .error ((fieldsOf w).reject.getD .unknownOpcode)

/-- The value of bit 12 for an order (R106, R115). -/
def orderWord : Order → Word
  | .raster => 0x00000000
  | .band => 0x00001000

/-- The command word of a command: its match value with `CMD[12] = ORDER` (R115). -/
def encode : Instr → Word
  | .nop => 0x00000000
  | .lzwEnc => 0x00000001
  | .lzwDec => 0x00000002
  | .wt1Fwd => 0x00000010
  | .wt1Inv => 0x00000011
  | .wt2Fwd => 0x00000012
  | .wt2Inv => 0x00000013
  | .qFwd => 0x00000020
  | .qInv => 0x00000021
  | .packWrap o => 0x00000030 ||| orderWord o
  | .packSats o => 0x00000130 ||| orderWord o
  | .packSatu o => 0x00000230 ||| orderWord o
  | .unpackU o => 0x00000031 ||| orderWord o
  | .unpackS o => 0x00000131 ||| orderWord o

/-- A word of the opcode table (bit 0 its least significant bit), `nbits` of it given by the table and the bits above them
zero.  A command word has 32 bits and no other length (R100). -/
def decodeTableWord (nbits w : Nat) : Option Instr :=
  if nbits ≤ 32 then (decode (BitVec.ofNat 32 (w % 2 ^ nbits))).toOption else none

end Sys2Proof
end

