-- ==== Sys2Proof/Config.lean ====
section
/-! DEFINITION. What an implementation fixes, and the free values.  None of these constants has a body: nothing can be
proved about the value of one.  The machine's fixed parameters of 00_scope.md R6 (`W_LIMIT`, `NSTEP_MAX` and so on) stand
in the definitions that use them. -/

namespace Sys2Proof.Config

/-- How far `MEM_SIZE` lies below 2^32 (00_scope.md R6 leaves it OPEN within `1 .. 2^32`; 93_implementation_defined.md
U13; log 3). -/
opaque memSizeGap : BitVec 32

/-- `MEM_SIZE`, the number of bytes of data memory: any value in `1 .. 2^32` (R6). -/
def memSize : Nat := 2 ^ 32 - memSizeGap.toNat

/-- `MMIO_BASE`, the base address of the register block in the host's address space (00_scope.md R6 OPEN, U14; log 3). -/
opaque mmioBase : Nat

/-- The draw of `LATENCY` for a command, less one (R6 OPEN, at least 1; 40_control.md R144; U12; log 2). -/
opaque latencyLessOne : Nat → Nat

/-- The byte a location holds, or a host read returns, where the spec says 'any value': the draw's number and the address
(60_exceptions.md R304, 70_reset_and_hazards.md R341, 20_memory.md R85; U1 to U4; log 6, 7, 8, 9). -/
opaque freeByte : Nat → Nat → Byte

/-- Whether a raced command (20_memory.md R85) completes with success (log 9). -/
opaque racedSuccess : Nat → Bool

/-- Which of the ten error codes of 60_exceptions.md R300 a raced command ends with, less one (log 9). -/
opaque racedError : Nat → Fin 10

/-- `OUT_LEN` after a raced command (log 9). -/
opaque racedOutLen : Nat → Word

/-- `LZW_NEXT` after a raced command (log 9). -/
opaque racedLzwNext : Nat → BitVec 17

/-- `LZW_WIDTH` after a raced command (log 9). -/
opaque racedLzwWidth : Nat → BitVec 5

/-- `LEVELS` after a raced command (log 9). -/
opaque racedLevels : Nat → BitVec 5

/-- Whether a raced command that succeeds reports a wrap (log 9). -/
opaque racedArith : Nat → Bool

/-- Whether a raced command that succeeds reports a value that does not fit a byte (log 9). -/
opaque racedNarrow : Nat → Bool

end Sys2Proof.Config
end

