-- ==== Sys2Proof/Machine/State.lean ====
section
/-! DEFINITION. The state of the engine and what surrounds it (10_state.md), its reset value (70_reset_and_hazards.md
R340), and the reasons a step can stop. -/

namespace Sys2Proof.Machine

/-- The error codes of `STATUS.ERRCODE` (60_exceptions.md R300), in the order of the table. -/
inductive ErrCode where
  | badCmd
  | cfg
  | geom
  | align
  | bus
  | aliasing
  | dstOvf
  | trunc
  | badCode
  | len
  deriving DecidableEq, Repr, Inhabited

/-- The fields of `STATUS` (10_state.md R27); its reserved bits read 0 and are not stored. -/
structure Status where
  busy : Bool
  done : Bool
  err : Bool
  arithOvf : Bool
  narrowOvf : Bool
  overrun : Bool
  errCode : BitVec 8
  deriving DecidableEq, Repr

/-- The stored registers of 10_state.md R21.  `ID` and `VERSION` are constants and `CTRL` holds nothing: the register
read operation gives their values. -/
structure Regs where
  status : Status
  /-- `IRQ_EN.DONE_IE` (R29) -/
  doneIe : Bool
  /-- `IRQ_EN.ERR_IE` (R29) -/
  errIe : Bool
  cmd : Word
  srcAddr : Word
  srcLen : Word
  srcStride : Word
  dstAddr : Word
  dstCap : Word
  dstStride : Word
  geom : Word
  outLen : Word
  lzwCfg : Word
  lzwNext : BitVec 17
  lzwWidth : BitVec 5
  wtCfg : Word
  wtScale : Word
  qFactor : Word
  qAlpha : Word
  qBeta : Word
  levels : BitVec 5
  /-- `STEP0_CTRL` .. `STEP7_CTRL` (R48) -/
  stepCtrl : Vector Word 8
  /-- `STEP0_COEF` .. `STEP7_COEF` (R49) -/
  stepCoef : Vector Word 8
  deriving DecidableEq, Repr

/-- Every register at the reset value of 10_state.md R21 (70_reset_and_hazards.md R340). -/
def Regs.reset : Regs where
  status := ⟨false, false, false, false, false, false, 0⟩
  doneIe := false
  errIe := false
  cmd := 0
  srcAddr := 0
  srcLen := 0
  srcStride := 0
  dstAddr := 0
  dstCap := 0
  dstStride := 0
  geom := 0
  outLen := 0
  lzwCfg := 0
  lzwNext := 0
  lzwWidth := 0
  wtCfg := 0
  wtScale := 0
  qFactor := 0
  qAlpha := 0
  qBeta := 0
  levels := 0
  stepCtrl := #v[0, 0, 0, 0, 0, 0, 0, 0]
  stepCoef := #v[0, 0, 0, 0, 0, 0, 0, 0]

/-- Data memory: address and byte, in the canonical form `Memory.wf` of Machine/Ops.lean. -/
abbrev Memory := List Host.Cell

/-- A half-open interval of byte addresses `[lo, hi)` (20_memory.md R76). -/
structure Interval where
  lo : Nat
  hi : Nat
  deriving DecidableEq, Repr

/-- The result registers and sticky flags of a successful command (40_control.md R144 `outs`): `none` where the command
does not set the register. -/
structure Outs where
  outLen : Nat := 0
  /-- `LZW_NEXT` and `LZW_WIDTH` -/
  lzw : Option (Nat × Nat) := none
  levels : Option Nat := none
  arithOvf : Bool := false
  narrowOvf : Bool := false
  deriving DecidableEq, Repr

/-- What an error completion needs besides the code (60_exceptions.md R306): whether the command is an LZW command,
whether it sets `LEVELS`, and the write interval that then holds any value (R304). -/
structure FailOuts where
  clearsLzw : Bool := false
  clearsLevels : Bool := false
  scratch : Interval := ⟨0, 0⟩
  deriving DecidableEq, Repr

/-- The outcome of a command (40_control.md R144): `Ok(mem', outs)` with the bytes the command writes, or `Fail(e)`. -/
inductive CmdResult where
  | ok (writes : List Host.Cell) (outs : Outs)
  | fail (e : ErrCode) (outs : FailOuts)
  deriving DecidableEq, Repr

/-- One operation of the host, or of the reset input (00_scope.md R15, R17; log 1). -/
inductive HostOp where
  /-- a register read of `size` bytes at `MMIO_BASE + offset`, R15's `RD NAME` (log 3) -/
  | regRead (offset size : Nat)
  /-- a register write of `size` bytes at `MMIO_BASE + offset`, R15's `WR NAME, value` -/
  | regWrite (offset size : Nat) (v : Word)
  /-- a read of `size` bytes at an address of the host's address space (10_state.md R23) -/
  | busRead (addr size : Nat)
  /-- a write of `size` bytes at an address of the host's address space -/
  | busWrite (addr size : Nat) (v : Word)
  /-- a read of one byte of data memory -/
  | memRead (addr : Nat)
  /-- a write of one byte of data memory -/
  | memWrite (addr : Nat) (b : Byte)
  /-- `RD STATUS` repeated until `STATUS.BUSY = 0` (the second half of `RUN`) -/
  | poll
  /-- the host does nothing in this step -/
  | idle
  /-- the engine's reset input is asserted (70_reset_and_hazards.md R340) -/
  | hwReset
  deriving DecidableEq, Repr

/-- The whole state: the engine, the data memory it reaches, the parameters and the host's coming operations. -/
structure State where
  /-- the register block -/
  regs : Regs
  /-- `S.run`, the command in flight or none (10_state.md R50) -/
  run : Option Word
  /-- `S.result`, the outcome the command in flight will deliver (R50); unused while `run` is `none` (log 5) -/
  result : CmdResult
  /-- the steps left of the running command's `LATENCY` (log 2) -/
  latencyLeft : Nat
  /-- the model's own: the host wrote into the running command's footprint (20_memory.md R85; log 9) -/
  raced : Bool
  /-- the data memory -/
  mem : Memory
  /-- the parameter `MEM_SIZE` (log 3) -/
  memSize : Nat
  /-- the parameter `MMIO_BASE` (log 3) -/
  mmioBase : Nat
  /-- the model's own: latencies of the next commands, before `Config.latencyLessOne` is drawn (log 2) -/
  latencies : List Nat
  /-- the model's own: how many free values have been drawn (log 15) -/
  draws : Nat
  /-- the model's own: the host's coming operations, the next one first (log 1) -/
  hostQ : List HostOp
  /-- the model's own: what the host's last read returned (log 14) -/
  hostData : Word
  deriving DecidableEq, Repr

/-- The state after reset for a given `MEM_SIZE` and `MMIO_BASE`: every register at its reset value, no command in flight
(70_reset_and_hazards.md R340, 10_state.md R54). -/
def State.resetWith (memSize mmioBase : Nat) : State where
  regs := Regs.reset
  run := none
  result := .ok [] {}
  latencyLeft := 0
  raced := false
  mem := []
  memSize := memSize
  mmioBase := mmioBase
  latencies := []
  draws := 0
  hostQ := []
  hostData := 0

/-- The machine right after reset, the OPEN parameters `MEM_SIZE` and `MMIO_BASE` uninterpreted (R340; log 3). -/
def State.reset : State := State.resetWith Config.memSize Config.mmioBase

/-- Why the machine stops with a fault. -/
inductive Fault where
  /-- Raised by a host read or write of a data-memory address at or above `MEM_SIZE`, an address that does not exist
  (20_memory.md R70).  Safe: the model stops where the platform decides.  No command raises it (a command whose
  footprint leaves memory completes with `E_BUS`). -/
  | hostAddressAbsent
  deriving DecidableEq, Repr

/-- Why the machine refuses a step. -/
inductive Refusal where
  /-- Raised by exec for an instruction that has no meaning yet.  Safe. -/
  | notModelled (mnemonic : String)
  /-- Raised by a host register access that is not an aligned 32-bit one: 10_state.md R23 gives it no meaning and says
  that a model refuses it (93_implementation_defined.md U5).  Safe. -/
  | registerAccessShape
  /-- Raised by a host register access outside the block's offsets `0x000 .. 0x0BF`, or at an address below `MMIO_BASE`,
  which the engine does not decode (10_state.md R20, R22; U6).  Safe. -/
  | registerNotDecoded
  deriving DecidableEq, Repr

end Sys2Proof.Machine
end

