-- ==== Sys2Proof/Machine/Operands.lean ====
section
/-! DEFINITION. The arithmetic primitives of 00_scope.md R8, R9 and the operands commands read from registers
(30_encoding.md R107 to R109). -/

namespace Sys2Proof.Machine

/-! ## Arithmetic (R8, R9) -/

/-- `sext_n(v)`: the `n`-bit field `v` read as two's complement (R8). -/
def sext (n v : Nat) : Int := if v < 2 ^ (n - 1) then (v : Int) else (v : Int) - 2 ^ n

/-- `wrap32(v)`: the 32-bit two's-complement value congruent to `v` (R9). -/
def wrap32 (v : Int) : Int := (v + 2 ^ 31) % 2 ^ 32 - 2 ^ 31

/-- `ovf32(v)`: `wrap32` changes `v` (R9). -/
def ovf32 (v : Int) : Bool := wrap32 v != v

/-- `tdiv(a, b)`: the quotient truncated toward zero (R9). -/
def tdiv (a b : Int) : Int := Int.tdiv a b

/-- `x >> s`: `floor(x / 2^s)` (R9).  Lean's `/` on `Int` rounds down for a positive divisor. -/
def shiftRight (x : Int) (s : Nat) : Int := x / 2 ^ s

/-- `ceil(p / q)` for naturals, `q > 0`. -/
def ceilDiv (p q : Nat) : Nat := (p + q - 1) / q

/-- `clamp(v, lo, hi)` (R9). -/
def clamp (v lo hi : Int) : Int := min hi (max lo v)

/-- A wrapped result and whether the wrap changed it (42_lifting.md R210). -/
def wrapFlag (v : Int) : Int × Bool := (wrap32 v, ovf32 v)

/-- The values of flagged results, and whether any of them is flagged. -/
def collect (xs : List (Int × Bool)) : List Int × Bool := (xs.map (·.1), xs.any (·.2))

/-! ## Register operands (R108) -/

/-- A view's width `GEOM.W`, also the vector length of `WT1_*` (R37). -/
def Regs.width (r : Regs) : Nat := bitsOf r.geom 15 0

/-- A view's height `GEOM.H` (R37). -/
def Regs.height (r : Regs) : Nat := bitsOf r.geom 31 16

/-- `WT_CFG.KIND` (R107). -/
def Regs.kind (r : Regs) : Nat := bitsOf r.wtCfg 2 0

/-- `WT_CFG.ITER` (R108). -/
def Regs.iter (r : Regs) : Nat := bitsOf r.wtCfg 12 8

/-- `WT_CFG.NSTEPS` (R108). -/
def Regs.nsteps (r : Regs) : Nat := bitsOf r.wtCfg 19 16

/-- `WT_SCALE.KA` (R43). -/
def Regs.ka (r : Regs) : Nat := bitsOf r.wtScale 15 0

/-- `WT_SCALE.KD` (R43). -/
def Regs.kd (r : Regs) : Nat := bitsOf r.wtScale 31 16

/-- `LZW_CFG.MAX_WIDTH` (R39). -/
def Regs.maxWidth (r : Regs) : Nat := bitsOf r.lzwCfg 4 0

/-- `LZW_CFG.DYNAMIC` (R39). -/
def Regs.dynamic (r : Regs) : Bool := r.lzwCfg.getLsbD 8

/-- `LZW_CFG.FLUSH` (R39). -/
def Regs.flush (r : Regs) : Bool := r.lzwCfg.getLsbD 9

/-- `LZW_CFG.CHECK_LEN` (R39). -/
def Regs.checkLen (r : Regs) : Bool := r.lzwCfg.getLsbD 10

/-- `F0`, the configured quantization factor (R44). -/
def Regs.factor0 (r : Regs) : Nat := bitsOf r.qFactor 15 0

/-- `ALPHA_RAW`, alpha with 8 fraction bits (R45). -/
def Regs.alphaRaw (r : Regs) : Nat := bitsOf r.qAlpha 15 0

/-- `BETA`, a 16-bit two's-complement integer (R46). -/
def Regs.beta (r : Regs) : Int := sext 16 (bitsOf r.qBeta 15 0)

/-! ## Custom step descriptors (R109) -/

/-- The tag of a lifting step (R48): 0 predict, 1 update. -/
inductive StepTag where
  | predict
  | update
  deriving DecidableEq, Repr

/-- A lifting step `(tag, P, c, r, s)` (42_lifting.md R200); its `P` tap weights are a list. -/
structure LiftStep where
  tag : StepTag
  taps : List Int
  round : Int
  shift : Nat
  deriving DecidableEq, Repr

/-- `tag_k = STEPk_CTRL[0]` (R109). -/
def stepTag (ctrl : Word) : StepTag := if bitsOf ctrl 0 0 = 0 then .predict else .update

/-- `P_k = STEPk_CTRL[3:1]` (R109). -/
def stepNTaps (ctrl : Word) : Nat := bitsOf ctrl 3 1

/-- `c_k,j = sext_8(STEPk_COEF[8j+7 : 8j])` (R109). -/
def stepCoefAt (coef : Word) (j : Nat) : Int := sext 8 (bitsOf coef (8 * j + 7) (8 * j))

/-- The step a pair of descriptor registers holds (R109): the taps at or above `NTAPS` are ignored (10_state.md R49). -/
def decodeStep (ctrl coef : Word) : LiftStep where
  tag := stepTag ctrl
  taps := (List.range (stepNTaps ctrl)).map (stepCoefAt coef)
  round := sext 16 (bitsOf ctrl 31 16)
  shift := bitsOf ctrl 11 8

/-- `STEPk_CTRL`; only `k < 8` exist. -/
def Regs.stepCtrlAt (r : Regs) (k : Nat) : Word := r.stepCtrl[k]?.getD 0

/-- `STEPk_COEF`; only `k < 8` exist. -/
def Regs.stepCoefWord (r : Regs) (k : Nat) : Word := r.stepCoef[k]?.getD 0

/-- Descriptor `k` of the step table. -/
def Regs.step (r : Regs) (k : Nat) : LiftStep := decodeStep (r.stepCtrlAt k) (r.stepCoefWord k)

end Sys2Proof.Machine
end

