-- ==== Sys2Proof/Machine/Flags.lean ====
section
/-! DEFINITION. `STATUS` and the interrupt output (10_state.md R27, R28; 40_control.md R142, R145, R149; 60_exceptions.md
R300, R306 to R308). -/

namespace Sys2Proof.Machine

/-- The value of an error code in `STATUS.ERRCODE` (R300). -/
def ErrCode.code : ErrCode → BitVec 8
  | .badCmd => 0x01
  | .cfg => 0x02
  | .geom => 0x03
  | .align => 0x04
  | .bus => 0x05
  | .aliasing => 0x06
  | .dstOvf => 0x07
  | .trunc => 0x08
  | .badCode => 0x09
  | .len => 0x0A

/-- The codes detected while a command processes its input (R300 'phase', R302); the others are check-phase errors,
detected before any access to data memory (R301). -/
def ErrCode.isExecution : ErrCode → Bool
  | .dstOvf | .trunc | .badCode | .len => true
  | .badCmd | .cfg | .geom | .align | .bus | .aliasing => false

namespace Status

/-- `STATUS` as the host reads it, its reserved bits 0 (R27). -/
def read (s : Status) : Word :=
  BitVec.ofNat 32 (s.busy.toNat + 2 * s.done.toNat + 4 * s.err.toNat + 8 * s.arithOvf.toNat + 16 * s.narrowOvf.toNat +
    32 * s.overrun.toNat + 256 * s.errCode.toNat)

/-- A host write of `v` to `STATUS` (R28): the five write-one-to-clear bits, nothing else. -/
def writeClear (s : Status) (v : Word) : Status :=
  { s with
    done := s.done && !v.getLsbD 1
    err := s.err && !v.getLsbD 2
    arithOvf := s.arithOvf && !v.getLsbD 3
    narrowOvf := s.narrowOvf && !v.getLsbD 4
    overrun := s.overrun && !v.getLsbD 5 }

/-- Acceptance of a command (R142): `DONE`, `ERR` and `ERRCODE` cleared, `BUSY` set. -/
def accept (s : Status) : Status := { s with busy := true, done := false, err := false, errCode := 0 }

/-- A successful completion (R145). -/
def succeed (s : Status) (arith narrow : Bool) : Status :=
  { s with
    busy := false
    done := true
    arithOvf := s.arithOvf || arith
    narrowOvf := s.narrowOvf || narrow
    errCode := 0 }

/-- An error completion (R306): the sticky flags keep their values (R304). -/
def fail (s : Status) (code : BitVec 8) : Status := { s with busy := false, err := true, errCode := code }

/-- A write the engine ignores because it is busy (R149). -/
def setOverrun (s : Status) : Status := { s with overrun := true }

end Status

/-- The interrupt output, a level signal (R308). -/
def Regs.irq (r : Regs) : Bool := (r.status.done && r.doneIe) || (r.status.err && r.errIe)

end Sys2Proof.Machine
end

