-- ==== Sys2Proof/Machine/Ops.lean ====
section
/-! DEFINITION. The operations every command shares: data memory (00_scope.md R11, 20_memory.md R70 to R72), views and
intervals (R76 to R78), the checks (R74, R76, R79, R80, 60_exceptions.md R303), acceptance (40_control.md R142) and the two
completions (R145, 60_exceptions.md R306).

The error completion is this machine's taking of an exception: the engine takes no trap and has no vector and no return
(R311, R312). -/

namespace Sys2Proof.Machine

/-! ## Data memory -/

namespace Memory

/-- What a byte that nothing has written reads as (log 4): R71 leaves the initial contents to the host. -/
def unwritten : Byte := 0

/-- The byte at an address (R11 `MemRead8`). -/
def read : Memory → Nat → Byte
  | [], _ => unwritten
  | (a, b) :: m, x => if x = a then b else read m x

/-- Put a byte in front of a memory all of whose addresses are higher, unless it is what an unlisted byte reads as. -/
def consByte (x : Nat) (v : Byte) (m : Memory) : Memory := if v = unwritten then m else (x, v) :: m

/-- Write one byte (R11 `MemWrite8`), keeping the canonical form. -/
def write : Memory → Nat → Byte → Memory
  | [], x, v => consByte x v []
  | (a, b) :: m, x, v =>
    if x < a then consByte x v ((a, b) :: m)
    else if x = a then consByte x v m
    else (a, b) :: write m x v

/-- Write bytes one after another. -/
def writeAll (m : Memory) (cells : List Host.Cell) : Memory := cells.foldl (fun m c => write m c.1 c.2) m

/-- The canonical form: addresses strictly rising, no entry that an unlisted address would read as. -/
abbrev wf (m : Memory) : Prop := m.Pairwise (fun p q => p.1 < q.1) ∧ ∀ c ∈ m, c.2 ≠ unwritten

/-- The `n` bytes from `addr` on. -/
def readBytes (m : Memory) (addr n : Nat) : List Byte := (List.range n).map (fun i => read m (addr + i))

/-- `MemRead(addr, 4)`: little-endian, the byte at `addr` least significant (R11, R72). -/
def readWord (m : Memory) (addr : Nat) : Nat :=
  (read m addr).toNat + 2 ^ 8 * (read m (addr + 1)).toNat + 2 ^ 16 * (read m (addr + 2)).toNat +
    2 ^ 24 * (read m (addr + 3)).toNat

/-- A coefficient element: `sext_32(MemRead(addr, 4))` (R72, R77). -/
def readCoef (m : Memory) (addr : Nat) : Int := sext 32 (readWord m addr)

end Memory

/-- The cells that `bytes` occupy from `addr` on. -/
def cellsAt (addr : Nat) (bytes : List Byte) : List Host.Cell := bytes.mapIdx (fun i b => (addr + i, b))

/-- `MemWrite(addr, 4, v mod 2^32)`: the least significant byte at `addr` (R11, R72). -/
def coefCells (addr : Nat) (v : Int) : List Host.Cell :=
  let n := (v % 2 ^ 32).toNat
  cellsAt addr [BitVec.ofNat 8 n, BitVec.ofNat 8 (n / 2 ^ 8), BitVec.ofNat 8 (n / 2 ^ 16), BitVec.ofNat 8 (n / 2 ^ 24)]

/-! ## Intervals (R76) -/

namespace Interval

/-- Holds no byte. -/
def isEmpty (v : Interval) : Bool := v.hi ≤ v.lo

/-- Holds the byte at an address. -/
def contains (v : Interval) (a : Nat) : Bool := v.lo ≤ a && a < v.hi

/-- 'An interval with `hi <= MEM_SIZE` or with `lo = hi` lies in memory' (R76). -/
def inMemory (v : Interval) (memSize : Nat) : Bool := v.hi ≤ memSize || v.lo == v.hi

/-- Both non-empty and sharing a byte (R80). -/
def overlaps (v u : Interval) : Bool := !v.isEmpty && !u.isEmpty && max v.lo u.lo < min v.hi u.hi

end Interval

/-- The interval of no byte. -/
def noBytes : Interval := ⟨0, 0⟩

/-- The `len` bytes from `addr` on. -/
def byteRange (addr len : Nat) : Interval := ⟨addr, addr + len⟩

/-! ## Views (R77, R78) -/

/-- A two-dimensional view: base, width, height and row stride in bytes (R77). -/
structure View where
  base : Nat
  width : Nat
  height : Nat
  stride : Nat
  deriving DecidableEq, Repr

namespace View

/-- The address of element `(r, c)` of a word view (R77). -/
def wordAddr (v : View) (r c : Nat) : Nat := v.base + r * v.stride + 4 * c

/-- The address of element `(r, c)` of a byte view (R77). -/
def byteAddr (v : View) (r c : Nat) : Nat := v.base + r * v.stride + c

/-- `[b, b + (H-1)*t + 4*W)` (R76), in exact integer arithmetic; `H = 0` fails R79 before any use of it but the fill of
an abandoned command (log 7). -/
def wordInterval (v : View) : Interval :=
  ⟨v.base, ((v.base : Int) + ((v.height : Int) - 1) * v.stride + 4 * v.width).toNat⟩

/-- `[b, b + (H-1)*t + W)` (R76). -/
def byteInterval (v : View) : Interval :=
  ⟨v.base, ((v.base : Int) + ((v.height : Int) - 1) * v.stride + v.width).toNat⟩

/-- A word view's coefficients, row by row (R77). -/
def readGrid (v : View) (m : Memory) : List (List Int) :=
  (List.range v.height).map fun r => (List.range v.width).map fun c => m.readCoef (v.wordAddr r c)

/-- The bytes that hold the coefficients `g` in a word view, element by element (R77). -/
def gridCells (v : View) (g : List (List Int)) : List Host.Cell :=
  ((List.range v.height).map fun r =>
    ((List.range v.width).map fun c => coefCells (v.wordAddr r c) ((g.getD r []).getD c 0)).flatten).flatten

end View

/-- The view at `SRC_ADDR`, `SRC_STRIDE` with the geometry of `GEOM`. -/
def Regs.srcView (r : Regs) : View := ⟨r.srcAddr.toNat, r.width, r.height, r.srcStride.toNat⟩

/-- The view at `DST_ADDR`, `DST_STRIDE` with the geometry of `GEOM`. -/
def Regs.dstView (r : Regs) : View := ⟨r.dstAddr.toNat, r.width, r.height, r.dstStride.toNat⟩

/-- The address of element `i` of the vector view of `WT1_*` (R78). -/
def Regs.vectorAddr (r : Regs) (i : Nat) : Nat := r.srcAddr.toNat + i * r.srcStride.toNat

/-- The interval of the vector view, `[b, b + (N-1)*t + 4)` (R78). -/
def Regs.vectorInterval (r : Regs) : Interval :=
  ⟨r.srcAddr.toNat, ((r.srcAddr.toNat : Int) + ((r.width : Int) - 1) * r.srcStride.toNat + 4).toNat⟩

/-- The coefficients of the vector view (R78). -/
def Regs.readVector (r : Regs) (m : Memory) : List Int :=
  (List.range r.width).map fun i => m.readCoef (r.vectorAddr i)

/-- The bytes that hold the coefficients `xs` in the vector view, element by element (R78). -/
def Regs.vectorCells (r : Regs) (xs : List Int) : List Host.Cell :=
  ((List.range r.width).map fun i => coefCells (r.vectorAddr i) (xs.getD i 0)).flatten

/-! ## Footprints (R76) -/

/-- The read interval of a command. -/
def readInterval (r : Regs) : Instr → Interval
  | .nop => noBytes
  | .lzwEnc | .lzwDec => byteRange r.srcAddr.toNat r.srcLen.toNat
  | .wt1Fwd | .wt1Inv => r.vectorInterval
  | .wt2Fwd | .wt2Inv | .qFwd | .qInv => r.srcView.wordInterval
  | .packWrap _ | .packSats _ | .packSatu _ => r.srcView.wordInterval
  | .unpackU .raster | .unpackS .raster => r.srcView.byteInterval
  | .unpackU .band | .unpackS .band => byteRange r.srcAddr.toNat (r.width * r.height)

/-- The write interval of a command. -/
def writeInterval (r : Regs) : Instr → Interval
  | .nop => noBytes
  | .lzwEnc | .lzwDec => byteRange r.dstAddr.toNat r.dstCap.toNat
  | .wt1Fwd | .wt1Inv => r.vectorInterval
  | .wt2Fwd | .wt2Inv | .qFwd | .qInv => r.srcView.wordInterval
  | .packWrap .raster | .packSats .raster | .packSatu .raster => r.dstView.byteInterval
  | .packWrap .band | .packSats .band | .packSatu .band => byteRange r.dstAddr.toNat (r.width * r.height)
  | .unpackU _ | .unpackS _ => r.dstView.wordInterval

/-! ## Checks (R143, R301, R303) -/

/-- The first error whose condition is violated, in the order given. -/
def firstError : List (Bool × ErrCode) → Option ErrCode
  | [] => none
  | (violated, e) :: rest => if violated then some e else firstError rest

/-- `MAX_WIDTH` outside `9 .. 16` (41_lzw.md R160; the limit is `W_LIMIT`). -/
def badMaxWidth (r : Regs) : Bool := r.maxWidth < 9 || 16 < r.maxWidth

/-- A word view with no element or with rows that overlap (R79). -/
def badWordGeom (v : View) : Bool := v.width == 0 || v.height == 0 || (2 ≤ v.height && v.stride < 4 * v.width)

/-- A byte view with no element or with rows that overlap (R79). -/
def badByteGeom (v : View) : Bool := v.width == 0 || v.height == 0 || (2 ≤ v.height && v.stride < v.width)

/-- A vector with no element or with elements that overlap (R79). -/
def badVectorGeom (r : Regs) : Bool := r.width == 0 || (2 ≤ r.width && r.srcStride.toNat < 4)

/-- A misaligned word view: its base, or its row stride when it has two or more rows (R74). -/
def badWordAlign (v : View) : Bool := v.base % 4 != 0 || (2 ≤ v.height && v.stride % 4 != 0)

/-- A misaligned vector: its base, or its spacing when it has two or more elements (R74). -/
def badVectorAlign (r : Regs) : Bool :=
  r.srcAddr.toNat % 4 != 0 || (2 ≤ r.width && r.srcStride.toNat % 4 != 0)

/-- A footprint that leaves memory (R76). -/
def badFootprint (r : Regs) (memSize : Nat) (i : Instr) : Bool :=
  !((readInterval r i).inMemory memSize && (writeInterval r i).inMemory memSize)

/-- Read and write intervals that share a byte (R80). -/
def badAliasing (r : Regs) (i : Instr) : Bool := (readInterval r i).overlaps (writeInterval r i)

/-- The error outcome of a command: what R304 and R306 say an error leaves depends on the command and on the phase of the
error. -/
def failWith (r : Regs) (i : Instr) (e : ErrCode) : CmdResult :=
  .fail e
    { clearsLzw := match i with
        | .lzwEnc | .lzwDec => true
        | .nop | .wt1Fwd | .wt1Inv | .wt2Fwd | .wt2Inv | .qFwd | .qInv => false
        | .packWrap _ | .packSats _ | .packSatu _ | .unpackU _ | .unpackS _ => false
      clearsLevels := match i with
        | .wt2Fwd | .wt2Inv | .qFwd | .qInv => true
        | .packWrap o | .packSats o | .packSatu o | .unpackU o | .unpackS o => o == .band
        | .nop | .lzwEnc | .lzwDec | .wt1Fwd | .wt1Inv => false
      scratch := if e.isExecution then writeInterval r i else noBytes }

/-- Run a command whose checks are `checks` (R143): the first failing one ends it, otherwise its execution does. -/
def checked (r : Regs) (i : Instr) (checks : List (Bool × ErrCode)) (run : CmdResult) : CmdResult :=
  match firstError checks with
  | some e => failWith r i e
  | none => run

/-! ## Acceptance and completion -/

/-- The cells of an interval's bytes that exist, each with a free value: 'any value' (R304, R341; log 6, 7). -/
def freeCells (draw memSize : Nat) (v : Interval) : List Host.Cell :=
  (List.range (min v.hi memSize - v.lo)).map fun i => (v.lo + i, Config.freeByte draw (v.lo + i))

/-- The bytes of an interval take any value; a fresh draw for each use. -/
def State.scramble (s : State) (v : Interval) : State :=
  if v.isEmpty then s
  else { s with mem := s.mem.writeAll (freeCells s.draws s.memSize v), draws := s.draws + 1 }

/-- The latency of the command being accepted, at least 1 (R144; log 2), and the state with the draw made. -/
def State.drawLatency (s : State) : State :=
  match s.latencies with
  | [] => { s with latencyLeft := Config.latencyLessOne s.draws + 1, draws := s.draws + 1 }
  | n :: rest => { s with latencyLeft := max 1 n, latencies := rest }

/-- Acceptance of a command word (R142), less its outcome `S.result`, which HostPort.lean adds. -/
def State.accept (s : State) (w : Word) : State :=
  let s := s.drawLatency
  { s with
    regs := { s.regs with cmd := w, status := s.regs.status.accept, outLen := 0 }
    run := some w
    raced := false }

/-- The registers after a successful completion (R145). -/
def Regs.succeed (r : Regs) (o : Outs) : Regs :=
  { r with
    outLen := BitVec.ofNat 32 o.outLen
    lzwNext := match o.lzw with
      | some (next, _) => BitVec.ofNat 17 next
      | none => r.lzwNext
    lzwWidth := match o.lzw with
      | some (_, width) => BitVec.ofNat 5 width
      | none => r.lzwWidth
    levels := match o.levels with
      | some l => BitVec.ofNat 5 l
      | none => r.levels
    status := r.status.succeed o.arithOvf o.narrowOvf }

/-- The registers after an error completion (R306). -/
def Regs.fail (r : Regs) (e : ErrCode) (o : FailOuts) : Regs :=
  { r with
    outLen := 0
    lzwNext := if o.clearsLzw then 0 else r.lzwNext
    lzwWidth := if o.clearsLzw then 0 else r.lzwWidth
    levels := if o.clearsLevels then 0 else r.levels
    status := r.status.fail e.code }

/-- The completion step (R145 for `Ok`, R306 for `Fail`): the outcome is delivered and the engine is idle. -/
def State.complete (s : State) (res : CmdResult) : State :=
  match res with
  | .ok writes o =>
    { s with
      regs := s.regs.succeed o
      mem := s.mem.writeAll writes
      run := none
      result := res
      latencyLeft := 0
      raced := false }
  | .fail e o =>
    let s := s.scramble o.scratch
    { s with
      regs := s.regs.fail e o
      run := none
      result := res
      latencyLeft := 0
      raced := false }

/-- What every command's meaning does with its outcome: exec is the command's whole effect on the state that accepted it
(log 12). -/
def State.conclude (s : State) (res : CmdResult) : Host.Outcome State Fault Refusal := .next (s.complete res)

end Sys2Proof.Machine
end

