-- ==== Sys2Proof/Machine/Control.lean ====
section
/-! DEFINITION. `NOP` (40_control.md R148). -/

namespace Sys2Proof.Machine

/-- `NOP`: no memory change, `OUT_LEN = 0` (R148). -/
def execNop (s : State) : Host.Outcome State Fault Refusal := s.conclude (.ok [] { outLen := 0 })

end Sys2Proof.Machine
end

