-- ==== Sys2Proof/Machine/Lifting.lean ====
section
/-! DEFINITION. The lifting-scheme wavelet transform (42_lifting.md): `WT1_FWD`, `WT1_INV`, `WT2_FWD`, `WT2_INV`. -/

namespace Sys2Proof.Machine

/-! ## Step lists (R200 to R204, R208, R209) -/

/-- A transform: its step list and its scale factors (R200). -/
structure Lifting where
  steps : List LiftStep
  ka : Nat
  kd : Nat
  deriving DecidableEq, Repr

/-- `HAAR_INT` (R208). -/
def haarInt : Lifting where
  steps := [⟨.predict, [1], 0, 0⟩, ⟨.update, [1], 0, 1⟩]
  ka := 1
  kd := 1

/-- `BIOR22_INT` (R209). -/
def bior22Int : Lifting where
  steps := [⟨.predict, [1, 1], 0, 1⟩, ⟨.update, [1, 1], 2, 2⟩]
  ka := 1
  kd := 1

/-- The custom step list `STEP0 .. STEP(NSTEPS-1)` (R203). -/
def Regs.customLifting (r : Regs) : Lifting where
  steps := (List.range r.nsteps).map r.step
  ka := r.ka
  kd := r.kd

/-- The transform `KIND` selects (R201): none for the identity, and for the reserved kinds, which no command runs
(R202). -/
def Regs.lifting (r : Regs) : Option Lifting :=
  match r.kind with
  | 1 => some haarInt
  | 2 => some bior22Int
  | 3 => some r.customLifting
  | _ => none

/-- Descriptor `k` may stand at place `k` of a custom list: `1 <= P_k <= 4` and `tag_k = k mod 2` (R203). -/
def Regs.stepOk (r : Regs) (k : Nat) : Bool :=
  1 ≤ stepNTaps (r.stepCtrlAt k) && stepNTaps (r.stepCtrlAt k) ≤ 4 &&
    stepTag (r.stepCtrlAt k) == (if k % 2 = 0 then .predict else .update)

/-- The custom list R203 accepts. -/
def Regs.customOk (r : Regs) : Bool :=
  1 ≤ r.nsteps && r.nsteps ≤ 8 && (List.range r.nsteps).all r.stepOk && 1 ≤ r.ka && 1 ≤ r.kd

/-- A reserved kind (R202), or `CUSTOM` with a list R203 does not accept. -/
def badKind (r : Regs) : Bool := 4 ≤ r.kind || (r.kind == 3 && !r.customOk)

/-- `c_0*t_0 + .. + c_(P-1)*t_(P-1)`. -/
def weightedSum (cs ts : List Int) : Int := (List.zipWith (· * ·) cs ts).sum

/-- `f(st, t) = wrap32((r + sum c_j * t_j) >> s)` (R204), and whether it wrapped (R210). -/
def LiftStep.value (st : LiftStep) (ts : List Int) : Int × Bool :=
  wrapFlag (shiftRight (st.round + weightedSum st.taps ts) st.shift)

/-! ## The 1D transform (R205 to R207) -/

/-- The approximation samples: the even positions (R205). -/
def evens : List Int → List Int
  | [] => []
  | [x] => [x]
  | x :: _ :: rest => x :: evens rest

/-- The detail samples: the odd positions (R205). -/
def odds : List Int → List Int
  | _ :: y :: rest => y :: odds rest
  | _ => []

/-- Interleave by parity (R206). -/
def interleave : List Int → List Int → List Int
  | [], _ => []
  | x :: _, [] => [x]
  | x :: as, y :: ds => x :: y :: interleave as ds

/-- The taps of a predict step at `i`: `a[(i - j) mod na]` for `j = 0 .. P-1` (R205). -/
def predictTaps (a : List Int) (i P : Nat) : List Int :=
  (List.range P).map fun j => a.getD (((i : Int) - j) % a.length).toNat 0

/-- The taps of an update step at `i`: `d[(i + j) mod nd]` for `j = 0 .. P-1` (R205). -/
def updateTaps (d : List Int) (i P : Nat) : List Int :=
  (List.range P).map fun j => d.getD ((i + j) % d.length) 0

/-- `wrap32(x + sign * f)`, flagged when it or `f` wrapped (R205, R206, R210). -/
def liftElem (sign x : Int) (f : Int × Bool) : Int × Bool :=
  (wrap32 (x + sign * f.1), f.2 || ovf32 (x + sign * f.1))

/-- The approximation and detail bands. -/
structure Bands where
  approx : List Int
  detail : List Int
  deriving DecidableEq, Repr

/-- One lifting step: `sign = 1` forward, `sign = -1` inverse; a predict step subtracts from the detail band, an update
step adds to the approximation band (R205), the inverse the other way (R206). -/
def Bands.lift (sign : Int) (st : LiftStep) (b : Bands) : Bands × Bool :=
  match st.tag with
  | .predict =>
    let d := collect (b.detail.mapIdx fun i x =>
      liftElem (-sign) x (st.value (predictTaps b.approx i st.taps.length)))
    (⟨b.approx, d.1⟩, d.2)
  | .update =>
    let a := collect (b.approx.mapIdx fun i x =>
      liftElem sign x (st.value (updateTaps b.detail i st.taps.length)))
    (⟨a.1, b.detail⟩, a.2)

/-- Steps one after another, collecting the wrap flag. -/
def Bands.liftAll (sign : Int) (steps : List LiftStep) (b : Bands) : Bands × Bool :=
  steps.foldl (fun acc st => ((acc.1.lift sign st).1, acc.2 || (acc.1.lift sign st).2)) (b, false)

/-- `wrap32(x * k)` for every element. -/
def scaleBand (k : Nat) (xs : List Int) : List Int × Bool := collect (xs.map fun x => wrapFlag (x * k))

/-- `lift_fwd` (R205, R207): approximation first, then detail; whether anything wrapped (R210). -/
def Lifting.forward (t : Lifting) (x : List Int) : List Int × Bool :=
  if x.length < 2 then (x, false)
  else
    let lifted := Bands.liftAll 1 t.steps ⟨evens x, odds x⟩
    let a := scaleBand t.ka lifted.1.approx
    let d := scaleBand t.kd lifted.1.detail
    (a.1 ++ d.1, lifted.2 || a.2 || d.2)

/-- `lift_inv` (R206, R207): scale factors divided away, the steps in reverse order with opposite sign, then interleaved
by parity. -/
def Lifting.inverse (t : Lifting) (y : List Int) : List Int × Bool :=
  if y.length < 2 then (y, false)
  else
    let na := (y.length + 1) / 2
    let a := (y.take na).map fun v => tdiv v t.ka
    let d := (y.drop na).map fun v => tdiv v t.kd
    let lifted := Bands.liftAll (-1) t.steps.reverse ⟨a, d⟩
    (interleave lifted.1.approx lifted.1.detail, lifted.2)

/-! ## Levels and bands (R220, R221) -/

/-- `ceil(n / 2)`. -/
def halfUp (n : Nat) : Nat := (n + 1) / 2

/-- The level sizes `(w_l, h_l)`, `l = 1 .. L` (R220); the budget is the first argument. -/
def levelSizes : Nat → Nat → Nat → List (Nat × Nat)
  | 0, _, _ => []
  | iter + 1, w, h => if w = 1 ∧ h = 1 then [] else (w, h) :: levelSizes iter (halfUp w) (halfUp h)

/-- The final approximation block `(w_(L+1), h_(L+1))` (R220). -/
def finalBlock : Nat → Nat → Nat → Nat × Nat
  | 0, w, h => (w, h)
  | iter + 1, w, h => if w = 1 ∧ h = 1 then (w, h) else finalBlock iter (halfUp w) (halfUp h)

/-- A rectangle of positions: rows `r0 .. r1-1`, columns `c0 .. c1-1`. -/
structure Region where
  r0 : Nat
  r1 : Nat
  c0 : Nat
  c1 : Nat
  deriving DecidableEq, Repr

/-- `D_l` (R221). -/
def diagonalRegion (wh : Nat × Nat) : Region := ⟨halfUp wh.2, wh.2, halfUp wh.1, wh.1⟩

/-- `H_l` (R221). -/
def horizontalRegion (wh : Nat × Nat) : Region := ⟨halfUp wh.2, wh.2, 0, halfUp wh.1⟩

/-- `V_l` (R221). -/
def verticalRegion (wh : Nat × Nat) : Region := ⟨0, halfUp wh.2, halfUp wh.1, wh.1⟩

/-- The final approximation `A` (R221). -/
def finalRegion (wh : Nat × Nat) : Region := ⟨0, wh.2, 0, wh.1⟩

/-- The region holds a position. -/
def Region.contains (g : Region) (r c : Nat) : Bool := g.r0 ≤ r && r < g.r1 && g.c0 ≤ c && c < g.c1

/-- `rowmajor(region)`: its positions row by row, columns ascending (30_encoding.md R113). -/
def Region.positions (g : Region) : List (Nat × Nat) :=
  ((List.range (g.r1 - g.r0)).map fun i => (List.range (g.c1 - g.c0)).map fun j => (g.r0 + i, g.c0 + j)).flatten

/-! ## The 2D driver (R222, R223) -/

/-- A word view's coefficients, row by row. -/
abbrev Grid := List (List Int)

/-- The columns of the top-left `w` columns of some rows. -/
def columnsOf (w : Nat) (rows : Grid) : Grid := (List.range w).map fun c => rows.map fun row => row.getD c 0

/-- A flagged transform on each of some sequences. -/
def mapSeqs (f : List Int → List Int × Bool) (xs : Grid) : Grid × Bool :=
  (xs.map fun x => (f x).1, xs.any fun x => (f x).2)

/-- A flagged transform on columns `0 .. w-1`, rows `0 .. h-1` (R222 'every column'). -/
def transformCols (f : List Int → List Int × Bool) (w h : Nat) (g : Grid) : Grid × Bool :=
  let out := mapSeqs f (columnsOf w (g.take h))
  ((g.take h).mapIdx (fun r row => out.1.map (fun col => col.getD r 0) ++ row.drop w) ++ g.drop h, out.2)

/-- A flagged transform on rows `0 .. h-1`, columns `0 .. w-1` (R222 'then every row'). -/
def transformRows (f : List Int → List Int × Bool) (w h : Nat) (g : Grid) : Grid × Bool :=
  let out := mapSeqs f ((g.take h).map (·.take w))
  (List.zipWith (fun row rest => row ++ rest) out.1 ((g.take h).map (·.drop w)) ++ g.drop h, out.2)

/-- One level forward: columns if `h > 1`, then rows if `w > 1` (R222). -/
def forwardLevel (t : Lifting) (g : Grid) (wh : Nat × Nat) : Grid × Bool :=
  let cols := if 1 < wh.2 then transformCols t.forward wh.1 wh.2 g else (g, false)
  let rows := if 1 < wh.1 then transformRows t.forward wh.1 wh.2 cols.1 else (cols.1, false)
  (rows.1, cols.2 || rows.2)

/-- One level back: rows if `w > 1`, then columns if `h > 1` (R223). -/
def inverseLevel (t : Lifting) (g : Grid) (wh : Nat × Nat) : Grid × Bool :=
  let rows := if 1 < wh.1 then transformRows t.inverse wh.1 wh.2 g else (g, false)
  let cols := if 1 < wh.2 then transformCols t.inverse wh.1 wh.2 rows.1 else (rows.1, false)
  (cols.1, rows.2 || cols.2)

/-- Levels one after another, collecting the wrap flag. -/
def runLevels (f : Grid → Nat × Nat → Grid × Bool) (ls : List (Nat × Nat)) (g : Grid) : Grid × Bool :=
  ls.foldl (fun acc wh => ((f acc.1 wh).1, acc.2 || (f acc.1 wh).2)) (g, false)

/-! ## The commands -/

/-- The check phase of `WT1_*` (R211). -/
def wt1Checks (s : State) (i : Instr) : List (Bool × ErrCode) := [
  (badKind s.regs, .cfg),
  (badVectorGeom s.regs, .geom),
  (badVectorAlign s.regs, .align),
  (badFootprint s.regs s.memSize i, .bus)]

/-- The check phase of `WT2_*` (R222). -/
def wt2Checks (s : State) (i : Instr) : List (Bool × ErrCode) := [
  (badKind s.regs, .cfg),
  (badWordGeom s.regs.srcView, .geom),
  (badWordAlign s.regs.srcView, .align),
  (badFootprint s.regs s.memSize i, .bus)]

/-- The execution phase of a 1D command with a given transform of the vector (R211, R212); with `KIND = NONE` the vector
is unchanged (R225). -/
def runWt1 (f : Lifting → List Int → List Int × Bool) (s : State) : CmdResult :=
  match s.regs.lifting with
  | none => .ok [] { outLen := s.regs.width }
  | some t =>
    let y := f t (s.regs.readVector s.mem)
    .ok (s.regs.vectorCells y.1) { outLen := s.regs.width, arithOvf := y.2 }

/-- The execution phase of a 2D command with a given transform of the view over its levels (R222, R223); with
`KIND = NONE` the view is unchanged and there are no levels (R225). -/
def runWt2 (f : Lifting → List (Nat × Nat) → Grid → Grid × Bool) (s : State) : CmdResult :=
  let v := s.regs.srcView
  match s.regs.lifting with
  | none => .ok [] { outLen := v.width * v.height, levels := some 0 }
  | some t =>
    let ls := levelSizes s.regs.iter v.width v.height
    let y := f t ls (v.readGrid s.mem)
    .ok (v.gridCells y.1) { outLen := v.width * v.height, levels := some ls.length, arithOvf := y.2 }

/-- The recursive 2D transform: level 1 first (R222). -/
def forward2d (t : Lifting) (ls : List (Nat × Nat)) (g : Grid) : Grid × Bool := runLevels (forwardLevel t) ls g

/-- Its inverse: the innermost level first (R223). -/
def inverse2d (t : Lifting) (ls : List (Nat × Nat)) (g : Grid) : Grid × Bool :=
  runLevels (inverseLevel t) ls.reverse g

/-- The outcome of `WT1_FWD` (R144, R211). -/
def outcomeWt1Fwd (s : State) : CmdResult :=
  checked s.regs .wt1Fwd (wt1Checks s .wt1Fwd) (runWt1 Lifting.forward s)

/-- The outcome of `WT1_INV` (R144, R212). -/
def outcomeWt1Inv (s : State) : CmdResult :=
  checked s.regs .wt1Inv (wt1Checks s .wt1Inv) (runWt1 Lifting.inverse s)

/-- The outcome of `WT2_FWD` (R144, R222). -/
def outcomeWt2Fwd (s : State) : CmdResult := checked s.regs .wt2Fwd (wt2Checks s .wt2Fwd) (runWt2 forward2d s)

/-- The outcome of `WT2_INV` (R144, R223). -/
def outcomeWt2Inv (s : State) : CmdResult := checked s.regs .wt2Inv (wt2Checks s .wt2Inv) (runWt2 inverse2d s)

/-- `WT1_FWD` (R211). -/
def execWt1Fwd (s : State) : Host.Outcome State Fault Refusal := s.conclude (outcomeWt1Fwd s)

/-- `WT1_INV` (R212). -/
def execWt1Inv (s : State) : Host.Outcome State Fault Refusal := s.conclude (outcomeWt1Inv s)

/-- `WT2_FWD` (R222). -/
def execWt2Fwd (s : State) : Host.Outcome State Fault Refusal := s.conclude (outcomeWt2Fwd s)

/-- `WT2_INV` (R223). -/
def execWt2Inv (s : State) : Host.Outcome State Fault Refusal := s.conclude (outcomeWt2Inv s)

end Sys2Proof.Machine
end

