-- ==== Sys2Proof/Machine/Lzw.lean ====
section
/-! DEFINITION. The LZW coder and its code stream (41_lzw.md, 30_encoding.md R110): `LZW_ENC` and `LZW_DEC`. -/

namespace Sys2Proof.Machine

namespace Lzw

/-- The options of `LZW_CFG` a stream is coded with (10_state.md R39). -/
structure Options where
  maxWidth : Nat
  dynamic : Bool
  flush : Bool
  deriving DecidableEq, Repr

/-- The dictionary and its width (R161 to R163).  `entries` holds the sequences of the code points from 257 on that
have one, the latest first; the code points below 256 need no entry. -/
structure Table where
  entries : List (Nat × List Byte)
  next : Nat
  width : Nat
  deriving DecidableEq, Repr

/-- `init()` (R163). -/
def Table.init (cfg : Options) : Table where
  entries := []
  next := 257
  width := if cfg.dynamic then 9 else cfg.maxWidth

/-- `S.dict[c]` (R161): a byte for `c < 256`, nothing for the end-of-input code, the assigned sequence from 257 on. -/
def Table.lookup (t : Table) (c : Nat) : Option (List Byte) :=
  if c < 256 then some [BitVec.ofNat 8 c]
  else (t.entries.find? (fun e => e.1 == c)).map (·.2)

/-- The code point from 257 on that has a given sequence, if one has (R169). -/
def Table.codeOf (t : Table) (w : List Byte) : Option Nat := (t.entries.find? (fun e => e.2 == w)).map (·.1)

/-- `S.dict[c] <- w`. -/
def Table.assign (t : Table) (c : Nat) (w : List Byte) : Table := { t with entries := (c, w) :: t.entries }

/-- No free code point remains (R162). -/
def Table.full (cfg : Options) (t : Table) : Bool := t.next == 2 ^ cfg.maxWidth

/-- `grow()` (R164). -/
def Table.grow (cfg : Options) (t : Table) : Table :=
  if cfg.dynamic && t.width < cfg.maxWidth && t.next == 2 ^ t.width then { t with width := t.width + 1 } else t

/-- `reserve(e)` (R165): the table after it, and whether it flushed. -/
def Table.reserve (cfg : Options) (e : Option (List Byte)) (t : Table) : Table × Bool :=
  if t.full cfg then (t, false)
  else
    let stored := match e with
      | some w => t.assign t.next w
      | none => t
    let grown := Table.grow cfg { stored with next := t.next + 1 }
    if grown.full cfg && cfg.flush then (Table.init cfg, true) else (grown, false)

/-! ## Bit packing (R110, R166 to R168) -/

/-- The `w` bits of code `c`, least significant first (R166 `emit`). -/
def codeBits (c w : Nat) : List Bool := (List.range w).map c.testBit

/-- The number whose bits are given, least significant first. -/
def ofBits : List Bool → Nat
  | [] => 0
  | b :: bs => b.toNat + 2 * ofBits bs

/-- The zero bits that fill the last byte (R167). -/
def padBits (bits : List Bool) : List Bool := bits ++ List.replicate ((8 - bits.length % 8) % 8) false

/-- Whole bytes of a bit stream, the first bit the least significant of the first byte (R110, R167). -/
def packBytes : List Bool → List Byte
  | b0 :: b1 :: b2 :: b3 :: b4 :: b5 :: b6 :: b7 :: rest =>
    BitVec.ofNat 8 (ofBits [b0, b1, b2, b3, b4, b5, b6, b7]) :: packBytes rest
  | _ => []

/-- The bit stream of bytes: stream bit `i` is bit `i mod 8` of byte `i div 8` (R110, R168). -/
def bytesToBits (bytes : List Byte) : List Bool := (bytes.map fun b => codeBits b.toNat 8).flatten

/-- The code stream of codes with their widths, in stream order: adjacent, padded at the end (R110, R167). -/
def packCodes (codes : List (Nat × Nat)) : List Byte :=
  packBytes (padBits (codes.map fun cw => codeBits cw.1 cw.2).flatten)

/-- `read(w)` (R168): the code and the bits after it, or `none` when fewer than `w` bits remain. -/
def readCode : Nat → List Bool → Option (Nat × List Bool)
  | 0, bits => some (0, bits)
  | _ + 1, [] => none
  | w + 1, b :: bits =>
    match readCode w bits with
    | some (c, rest) => some (b.toNat + 2 * c, rest)
    | none => none

/-! ## The encoder (R169) -/

/-- The encoder's working state: the table, the code of the current matched sequence, and the codes emitted so far with
their widths, the latest first. -/
structure EncState where
  table : Table
  cur : Option Nat
  emitted : List (Nat × Nat)
  deriving DecidableEq, Repr

/-- The encoder before its first byte. -/
def EncState.init (cfg : Options) : EncState := ⟨Table.init cfg, none, []⟩

/-- `emit(c, S.width)`. -/
def EncState.emit (st : EncState) (c : Nat) : EncState := { st with emitted := (c, st.table.width) :: st.emitted }

/-- One byte of input (R169's loop body). -/
def EncState.feed (cfg : Options) (st : EncState) (b : Byte) : EncState :=
  match st.cur with
  | none => { st with cur := some b.toNat }
  | some cur =>
    let extended := (st.table.lookup cur).getD [] ++ [b]
    match st.table.codeOf extended with
    | some k => { st with cur := some k }
    | none =>
      let st := st.emit cur
      { st with table := (st.table.reserve cfg (some extended)).1, cur := some b.toNat }

/-- The end of input (R169, R170): the pending match, its reservation, then the end-of-input code 256. -/
def EncState.finish (cfg : Options) (st : EncState) : EncState :=
  let st := match st.cur with
    | none => st
    | some cur =>
      let st := st.emit cur
      { st with table := (st.table.reserve cfg none).1 }
  st.emit 256

/-- The encoder's final state for an input. -/
def encodeState (cfg : Options) (input : List Byte) : EncState :=
  (input.foldl (EncState.feed cfg) (EncState.init cfg)).finish cfg

/-- The code stream of an input (R169). -/
def encodeBytes (cfg : Options) (input : List Byte) : List Byte :=
  packCodes (encodeState cfg input).emitted.reverse

/-! ## The decoder (R173) -/

/-- The decoder's working state: the table, the bits not yet read, the decoded bytes, the previous sequence and whether
a code point is pending. -/
structure DecState where
  table : Table
  bits : List Bool
  out : List Byte
  prev : Option (List Byte)
  pending : Bool
  deriving DecidableEq, Repr

/-- The decoder before its first code. -/
def DecState.init (cfg : Options) (bits : List Bool) : DecState := ⟨Table.init cfg, bits, [], none, false⟩

/-- What one turn of the decoder's loop does. -/
inductive DecTurn where
  /-- the end-of-input code was read -/
  | stop (st : DecState)
  /-- a code was decoded -/
  | more (st : DecState)
  /-- an execution error (R175) -/
  | error (e : ErrCode)
  deriving DecidableEq, Repr

/-- The sequence of a legal code, by R174 when it is the pending code point.  `none` is never reached from `init` (a code
below `S.next` other than the pending one and 256 always has a sequence; log 11). -/
def DecState.sequenceOf (st : DecState) (c : Nat) : Option (List Byte) :=
  if st.pending && c == st.table.next - 1 then st.prev.map (fun p => p ++ p.take 1) else st.table.lookup c

/-- The pending entry completed by the sequence just decoded: `S.dict[S.next - 1] <- prev ++ [seq[0]]` (R173). -/
def DecState.completePending (st : DecState) (seq : List Byte) : Table :=
  match st.pending, st.prev with
  | true, some p => st.table.assign (st.table.next - 1) (p ++ seq.take 1)
  | _, _ => st.table

/-- The reservation after a decoded code (R173, R165). -/
def DecState.reserveNext (cfg : Options) (st : DecState) : DecState :=
  if st.table.full cfg then { st with pending := false }
  else
    match st.table.reserve cfg none with
    | (t, true) => { st with table := t, prev := none, pending := false }
    | (t, false) => { st with table := t, pending := true }

/-- One turn of R173's loop, its errors in the order of R175. -/
def DecState.turn (cfg : Options) (dstCap : Nat) (st : DecState) : DecTurn :=
  match readCode st.table.width st.bits with
  | none => .error .trunc
  | some (c, rest) =>
    if c = 256 then .stop { st with bits := rest }
    else if st.table.next ≤ c then .error .badCode
    else
      match st.sequenceOf c with
      | none => .error .badCode
      | some seq =>
        let table := st.completePending seq
        if dstCap < st.out.length + seq.length then .error .dstOvf
        else
          .more (DecState.reserveNext cfg
            { st with table := table, bits := rest, out := st.out ++ seq, prev := some seq })

/-- R173's loop.  Every turn that goes on reads at least one bit, so `fuel` above the number of bits is never used up
(log 11). -/
def decodeLoop (cfg : Options) (dstCap : Nat) : Nat → DecState → Except ErrCode DecState
  | 0, _ => .error .trunc
  | fuel + 1, st =>
    match st.turn cfg dstCap with
    | .stop st => .ok st
    | .more st => decodeLoop cfg dstCap fuel st
    | .error e => .error e

/-- The decoder's final state for a code stream, or the execution error it ends with, `E_LEN` apart (R173). -/
def decodeState (cfg : Options) (dstCap : Nat) (input : List Byte) : Except ErrCode DecState :=
  decodeLoop cfg dstCap (8 * input.length + 1) (DecState.init cfg (bytesToBits input))

end Lzw

/-- The coding options `LZW_CFG` holds (R108). -/
def Regs.lzwOptions (r : Regs) : Lzw.Options := ⟨r.maxWidth, r.dynamic, r.flush⟩

/-- The check phase of the LZW commands: `MAX_WIDTH`, footprint, aliasing (R160, R169, R173). -/
def lzwChecks (s : State) (i : Instr) : List (Bool × ErrCode) := [
  (badMaxWidth s.regs, .cfg),
  (badFootprint s.regs s.memSize i, .bus),
  (badAliasing s.regs i, .aliasing)]

/-- The success outcome of an LZW command (R169, R172, R173, R177). -/
def lzwOk (s : State) (out : List Byte) (t : Lzw.Table) : CmdResult :=
  .ok (cellsAt s.regs.dstAddr.toNat out) { outLen := out.length, lzw := some (t.next, t.width) }

/-- The input bytes of an LZW command. -/
def lzwInput (s : State) : List Byte := s.mem.readBytes s.regs.srcAddr.toNat s.regs.srcLen.toNat

/-- The execution phase of `LZW_ENC` (R169, R171). -/
def runLzwEnc (s : State) : CmdResult :=
  let st := Lzw.encodeState s.regs.lzwOptions (lzwInput s)
  let out := Lzw.packCodes st.emitted.reverse
  if s.regs.dstCap.toNat < out.length then failWith s.regs .lzwEnc .dstOvf else lzwOk s out st.table

/-- The execution phase of `LZW_DEC` (R173, R175). -/
def runLzwDec (s : State) : CmdResult :=
  match Lzw.decodeState s.regs.lzwOptions s.regs.dstCap.toNat (lzwInput s) with
  | .error e => failWith s.regs .lzwDec e
  | .ok st =>
    if s.regs.checkLen && st.out.length != s.regs.dstCap.toNat then failWith s.regs .lzwDec .len
    else lzwOk s st.out st.table

/-- The outcome of `LZW_ENC` (R144, R169). -/
def outcomeLzwEnc (s : State) : CmdResult := checked s.regs .lzwEnc (lzwChecks s .lzwEnc) (runLzwEnc s)

/-- The outcome of `LZW_DEC` (R144, R173). -/
def outcomeLzwDec (s : State) : CmdResult := checked s.regs .lzwDec (lzwChecks s .lzwDec) (runLzwDec s)

/-- `LZW_ENC` (R169). -/
def execLzwEnc (s : State) : Host.Outcome State Fault Refusal := s.conclude (outcomeLzwEnc s)

/-- `LZW_DEC` (R173). -/
def execLzwDec (s : State) : Host.Outcome State Fault Refusal := s.conclude (outcomeLzwDec s)

end Sys2Proof.Machine
end

