-- ==== Sys2Proof/Machine/Pack.lean ====
section
/-! DEFINITION. Conversion between coefficients and bytes (44_pack.md): `PACK.WRAP`, `PACK.SATS`, `PACK.SATU`,
`UNPACK.U`, `UNPACK.S`. -/

namespace Sys2Proof.Machine

/-! ## Positions (R261) -/

/-- Raster order: row by row (30_encoding.md R114). -/
def rasterPositions (w h : Nat) : List (Nat × Nat) := (finalRegion (w, h)).positions

/-- `D_l`, `H_l`, `V_l` of one level, each row by row (30_encoding.md R113). -/
def detailPositions (wh : Nat × Nat) : List (Nat × Nat) :=
  (diagonalRegion wh).positions ++ (horizontalRegion wh).positions ++ (verticalRegion wh).positions

/-- Band order: the detail bands of the levels from the outermost on, then the final approximation (30_encoding.md
R113). -/
def bandPositions (iter w h : Nat) : List (Nat × Nat) :=
  ((levelSizes iter w h).map detailPositions).flatten ++ (finalRegion (finalBlock iter w h)).positions

/-- `pos_0 .. pos_(W*H-1)` (R261). -/
def Regs.positions (r : Regs) : Order → List (Nat × Nat)
  | .raster => rasterPositions r.width r.height
  | .band => bandPositions r.iter r.width r.height

/-- The address on the byte side of index `i`, whose position is `pos` (R261): in the byte view for raster order, at the
view's base `+ i` for band order. -/
def byteSideAddr (v : View) (o : Order) (i : Nat) (pos : Nat × Nat) : Nat :=
  match o with
  | .raster => v.byteAddr pos.1 pos.2
  | .band => v.base + i

/-- `LEVELS` is set by the commands in band order only (R261). -/
def Regs.packLevels (r : Regs) : Order → Option Nat
  | .raster => none
  | .band => some (levelSizes r.iter r.width r.height).length

/-! ## Narrowing and widening (R262) -/

/-- `WRAP`: the low 8 bits; flagged when neither `UNPACK` restores the value. -/
def narrowWrap (v : Int) : Byte × Bool := (BitVec.ofInt 8 v, v < -128 || 255 < v)

/-- `SATS`: saturate to `-128 .. 127`. -/
def narrowSats (v : Int) : Byte × Bool := (BitVec.ofInt 8 (min 127 (max (-128) v)), v < -128 || 127 < v)

/-- `SATU`: saturate to `0 .. 255`. -/
def narrowSatu (v : Int) : Byte × Bool := (BitVec.ofInt 8 (min 255 (max 0 v)), v < 0 || 255 < v)

/-- `U`: `zext_8`. -/
def widenU (b : Byte) : Int := b.toNat

/-- `S`: `sext_8`. -/
def widenS (b : Byte) : Int := sext 8 b.toNat

/-! ## The commands -/

/-- The check phase of `PACK.*` (R263). -/
def packChecks (s : State) (o : Order) (i : Instr) : List (Bool × ErrCode) := [
  (badWordGeom s.regs.srcView || (o == .raster && badByteGeom s.regs.dstView), .geom),
  (badWordAlign s.regs.srcView, .align),
  (badFootprint s.regs s.memSize i, .bus),
  (badAliasing s.regs i, .aliasing)]

/-- The check phase of `UNPACK.*` (R266). -/
def unpackChecks (s : State) (o : Order) (i : Instr) : List (Bool × ErrCode) := [
  (badWordGeom s.regs.dstView || (o == .raster && badByteGeom s.regs.srcView), .geom),
  (badWordAlign s.regs.dstView, .align),
  (badFootprint s.regs s.memSize i, .bus),
  (badAliasing s.regs i, .aliasing)]

/-- Index `i` of a `PACK`: the byte cell written for the element at `pos`, and whether it was out of range (R263). -/
def packCell (narrow : Int → Byte × Bool) (o : Order) (s : State) (i : Nat) (pos : Nat × Nat) : Host.Cell × Bool :=
  let b := narrow (s.mem.readCoef (s.regs.srcView.wordAddr pos.1 pos.2))
  ((byteSideAddr s.regs.dstView o i pos, b.1), b.2)

/-- Index `i` of an `UNPACK`: the cells of the element at `pos` (R266). -/
def unpackCells (widen : Byte → Int) (o : Order) (s : State) (i : Nat) (pos : Nat × Nat) : List Host.Cell :=
  coefCells (s.regs.dstView.wordAddr pos.1 pos.2) (widen (s.mem.read (byteSideAddr s.regs.srcView o i pos)))

/-- The execution phase of `PACK.*` with a narrowing function (R263). -/
def runPack (narrow : Int → Byte × Bool) (o : Order) (s : State) : CmdResult :=
  let out := (s.regs.positions o).mapIdx (packCell narrow o s)
  .ok (out.map (·.1))
    { outLen := s.regs.width * s.regs.height, levels := s.regs.packLevels o, narrowOvf := out.any (·.2) }

/-- The execution phase of `UNPACK.*` with a widening function (R266). -/
def runUnpack (widen : Byte → Int) (o : Order) (s : State) : CmdResult :=
  .ok ((s.regs.positions o).mapIdx (unpackCells widen o s)).flatten
    { outLen := s.regs.width * s.regs.height, levels := s.regs.packLevels o }

/-- The outcome of `PACK.WRAP` (R144, R263). -/
def outcomePackWrap (o : Order) (s : State) : CmdResult :=
  checked s.regs (.packWrap o) (packChecks s o (.packWrap o)) (runPack narrowWrap o s)

/-- The outcome of `PACK.SATS` (R144, R264). -/
def outcomePackSats (o : Order) (s : State) : CmdResult :=
  checked s.regs (.packSats o) (packChecks s o (.packSats o)) (runPack narrowSats o s)

/-- The outcome of `PACK.SATU` (R144, R265). -/
def outcomePackSatu (o : Order) (s : State) : CmdResult :=
  checked s.regs (.packSatu o) (packChecks s o (.packSatu o)) (runPack narrowSatu o s)

/-- The outcome of `UNPACK.U` (R144, R266). -/
def outcomeUnpackU (o : Order) (s : State) : CmdResult :=
  checked s.regs (.unpackU o) (unpackChecks s o (.unpackU o)) (runUnpack widenU o s)

/-- The outcome of `UNPACK.S` (R144, R267). -/
def outcomeUnpackS (o : Order) (s : State) : CmdResult :=
  checked s.regs (.unpackS o) (unpackChecks s o (.unpackS o)) (runUnpack widenS o s)

/-- `PACK.WRAP` (R263). -/
def execPackWrap (o : Order) (s : State) : Host.Outcome State Fault Refusal := s.conclude (outcomePackWrap o s)

/-- `PACK.SATS` (R264). -/
def execPackSats (o : Order) (s : State) : Host.Outcome State Fault Refusal := s.conclude (outcomePackSats o s)

/-- `PACK.SATU` (R265). -/
def execPackSatu (o : Order) (s : State) : Host.Outcome State Fault Refusal := s.conclude (outcomePackSatu o s)

/-- `UNPACK.U` (R266). -/
def execUnpackU (o : Order) (s : State) : Host.Outcome State Fault Refusal := s.conclude (outcomeUnpackU o s)

/-- `UNPACK.S` (R267). -/
def execUnpackS (o : Order) (s : State) : Host.Outcome State Fault Refusal := s.conclude (outcomeUnpackS o s)

end Sys2Proof.Machine
end

