-- ==== Sys2Proof/Machine/Quant.lean ====
section
/-! DEFINITION. The coefficient quantizer (43_quant.md): `Q_FWD`, `Q_INV`. -/

namespace Sys2Proof.Machine

/-- `clampF(x) = min(65535, max(2, x))` (R240). -/
def clampFactor (x : Int) : Nat := (clamp x 2 65535).toNat

/-- `f_(l+1) = clampF(ceil(f_l * 256 / Q_ALPHA) - Q_BETA)` (R240). -/
def nextFactor (alphaRaw : Nat) (beta : Int) (f : Nat) : Nat := clampFactor (ceilDiv (f * 256) alphaRaw - beta)

/-- `f_1 .. f_n` from `f_1` (R240). -/
def factorsFrom (alphaRaw : Nat) (beta : Int) : Nat → Nat → List Nat
  | 0, _ => []
  | n + 1, f => f :: factorsFrom alphaRaw beta n (nextFactor alphaRaw beta f)

/-- The factors of `n` levels (R240). -/
def Regs.factors (r : Regs) (n : Nat) : List Nat :=
  factorsFrom r.alphaRaw r.beta n (clampFactor r.factor0)

/-- A flagged function of position and value on every element of a grid. -/
def mapGrid (f : Nat → Nat → Int → Int × Bool) (x : Grid) : Grid × Bool :=
  let out := x.mapIdx fun r row => collect (row.mapIdx fun c v => f r c v)
  (out.map (·.1), out.any (·.2))

/-- A flagged function on every element of a region, the rest unchanged. -/
def mapRegion (g : Region) (f : Int → Int × Bool) (x : Grid) : Grid × Bool :=
  mapGrid (fun r c v => if g.contains r c then f v else (v, false)) x

/-- The quantizer's element functions: on a detail element with its divisor (`2 f_l` or `f_l`), and on an element of the
final approximation. -/
structure QuantOp where
  detail : Nat → Int → Int × Bool
  final : Int → Int × Bool

/-- `Q_BIAS` (00_scope.md R6). -/
def quantBias : Int := 128

/-- Forward: truncating division, and the bias subtracted (R242); divisions never wrap. -/
def quantForward : QuantOp where
  detail := fun d v => (tdiv v d, false)
  final := fun v => wrapFlag (v - quantBias)

/-- Inverse: multiplication, and the bias added (R243). -/
def quantInverse : QuantOp where
  detail := fun d v => wrapFlag (v * d)
  final := fun v => wrapFlag (v + quantBias)

/-- One level with factor `f`: `D_l` by `2 f`, `H_l` and `V_l` by `f` (R242, R243). -/
def quantLevel (q : QuantOp) (x : Grid) (lf : (Nat × Nat) × Nat) : Grid × Bool :=
  let d := mapRegion (diagonalRegion lf.1) (q.detail (2 * lf.2)) x
  let h := mapRegion (horizontalRegion lf.1) (q.detail lf.2) d.1
  let v := mapRegion (verticalRegion lf.1) (q.detail lf.2) h.1
  (v.1, d.2 || h.2 || v.2)

/-- All levels, then the final approximation (R242, R243). -/
def quantGrid (q : QuantOp) (ls : List (Nat × Nat)) (fs : List Nat) (final : Nat × Nat) (x : Grid) : Grid × Bool :=
  let y := (ls.zip fs).foldl (fun acc lf => ((quantLevel q acc.1 lf).1, acc.2 || (quantLevel q acc.1 lf).2)) (x, false)
  let a := mapRegion (finalRegion final) q.final y.1
  (a.1, y.2 || a.2)

/-- The check phase of `Q_*` (R241). -/
def quantChecks (s : State) (i : Instr) : List (Bool × ErrCode) := [
  (s.regs.alphaRaw == 0, .cfg),
  (badWordGeom s.regs.srcView, .geom),
  (badWordAlign s.regs.srcView, .align),
  (badFootprint s.regs s.memSize i, .bus)]

/-- The execution phase of `Q_*` (R242, R243). -/
def runQuant (q : QuantOp) (s : State) : CmdResult :=
  let v := s.regs.srcView
  let ls := levelSizes s.regs.iter v.width v.height
  let y := quantGrid q ls (s.regs.factors ls.length) (finalBlock s.regs.iter v.width v.height) (v.readGrid s.mem)
  .ok (v.gridCells y.1) { outLen := v.width * v.height, levels := some ls.length, arithOvf := y.2 }

/-- The outcome of `Q_FWD` (R144, R242). -/
def outcomeQFwd (s : State) : CmdResult := checked s.regs .qFwd (quantChecks s .qFwd) (runQuant quantForward s)

/-- The outcome of `Q_INV` (R144, R243). -/
def outcomeQInv (s : State) : CmdResult := checked s.regs .qInv (quantChecks s .qInv) (runQuant quantInverse s)

/-- `Q_FWD` (R242). -/
def execQFwd (s : State) : Host.Outcome State Fault Refusal := s.conclude (outcomeQFwd s)

/-- `Q_INV` (R243). -/
def execQInv (s : State) : Host.Outcome State Fault Refusal := s.conclude (outcomeQInv s)

end Sys2Proof.Machine
end

