-- ==== Sys2Proof/Machine/Dispatch.lean ====
section
/-! DEFINITION. One arm per command (30_encoding.md R101): the command's whole effect on the state that accepted it,
that is its outcome (40_control.md R144) delivered by its completion (R145, 60_exceptions.md R306). -/

namespace Sys2Proof.Machine

def exec (i : Instr) (s : State) : Host.Outcome State Fault Refusal :=
  match i with
  | .nop => Sys2Proof.Machine.execNop s
  | .lzwEnc => Sys2Proof.Machine.execLzwEnc s
  | .lzwDec => Sys2Proof.Machine.execLzwDec s
  | .wt1Fwd => Sys2Proof.Machine.execWt1Fwd s
  | .wt1Inv => Sys2Proof.Machine.execWt1Inv s
  | .wt2Fwd => Sys2Proof.Machine.execWt2Fwd s
  | .wt2Inv => Sys2Proof.Machine.execWt2Inv s
  | .qFwd => Sys2Proof.Machine.execQFwd s
  | .qInv => Sys2Proof.Machine.execQInv s
  | .packWrap o => Sys2Proof.Machine.execPackWrap o s
  | .packSats o => Sys2Proof.Machine.execPackSats o s
  | .packSatu o => Sys2Proof.Machine.execPackSatu o s
  | .unpackU o => Sys2Proof.Machine.execUnpackU o s
  | .unpackS o => Sys2Proof.Machine.execUnpackS o s

end Sys2Proof.Machine
end

