-- ==== Sys2Proof/Machine/HostPort.lean ====
section
/-! DEFINITION. What the host and the reset input do to the engine, and the engine's completion step: register reads and
writes (10_state.md R21 to R30; 40_control.md R146, R147, R149), the start of a command (R142), data-memory accesses
(20_memory.md R84, R85), the two resets (70_reset_and_hazards.md R340, R341), and the completion of a raced command
(R85). -/

namespace Sys2Proof.Machine

/-! ## The register map (R21) -/

/-- The registers, by name (R21). -/
inductive Reg where
  | id
  | version
  | ctrl
  | status
  | irqEn
  | cmd
  | srcAddr
  | srcLen
  | srcStride
  | dstAddr
  | dstCap
  | dstStride
  | geom
  | outLen
  | lzwCfg
  | lzwNext
  | lzwWidth
  | wtCfg
  | wtScale
  | qFactor
  | qAlpha
  | qBeta
  | levels
  | stepCtrl (k : Fin 8)
  | stepCoef (k : Fin 8)
  deriving DecidableEq, Repr

/-- The offsets below `0x05C` (R21). -/
def fixedOffsets : List (Nat × Reg) := [
  (0x000, .id), (0x004, .version), (0x008, .ctrl), (0x00C, .status), (0x010, .irqEn), (0x014, .cmd),
  (0x018, .srcAddr), (0x01C, .srcLen), (0x020, .srcStride), (0x024, .dstAddr), (0x028, .dstCap), (0x02C, .dstStride),
  (0x030, .geom), (0x034, .outLen), (0x038, .lzwCfg), (0x03C, .lzwNext), (0x040, .lzwWidth), (0x044, .wtCfg),
  (0x048, .wtScale), (0x04C, .qFactor), (0x050, .qAlpha), (0x054, .qBeta), (0x058, .levels)]

/-- The register at an offset, `none` for an unmapped one (R21, R22). -/
def Reg.ofOffset (offset : Nat) : Option Reg :=
  match fixedOffsets.lookup offset with
  | some reg => some reg
  | none =>
    if 0x080 ≤ offset ∧ offset < 0x0C0 ∧ offset % 4 = 0 then
      let k := Fin.ofNat 8 ((offset - 0x080) / 8)
      some (if offset % 8 = 0 then .stepCtrl k else .stepCoef k)
    else none

/-- What a host read of a register returns, reserved bits 0 (R21, R146). -/
def Regs.read (r : Regs) : Reg → Word
  | .id => 0x50413137
  | .version => 0x00000001
  | .ctrl => 0
  | .status => r.status.read
  | .irqEn => BitVec.ofNat 32 (r.doneIe.toNat + 2 * r.errIe.toNat)
  | .cmd => r.cmd
  | .srcAddr => r.srcAddr
  | .srcLen => r.srcLen
  | .srcStride => r.srcStride
  | .dstAddr => r.dstAddr
  | .dstCap => r.dstCap
  | .dstStride => r.dstStride
  | .geom => r.geom
  | .outLen => r.outLen
  | .lzwCfg => r.lzwCfg
  | .lzwNext => r.lzwNext.setWidth 32
  | .lzwWidth => r.lzwWidth.setWidth 32
  | .wtCfg => r.wtCfg
  | .wtScale => r.wtScale
  | .qFactor => r.qFactor
  | .qAlpha => r.qAlpha
  | .qBeta => r.qBeta
  | .levels => r.levels.setWidth 32
  | .stepCtrl k => r.stepCtrl[k]
  | .stepCoef k => r.stepCoef[k]

/-- The bits of `LZW_CFG` that are not reserved (R39). -/
def lzwCfgMask : Word := 0x0000071F

/-- The bits of `WT_CFG` that are not reserved (R42). -/
def wtCfgMask : Word := 0x000F1F07

/-- The bits of `Q_FACTOR`, `Q_ALPHA` and `Q_BETA` that are not reserved (R44 to R46). -/
def quantMask : Word := 0x0000FFFF

/-- The bits of `STEPk_CTRL` that are not reserved (R48). -/
def stepCtrlMask : Word := 0xFFFF0F0F

/-- A configuration register written with `v`, its reserved bits dropped (R147); the other registers are not written
here. -/
def Regs.storeConfig (r : Regs) (reg : Reg) (v : Word) : Regs :=
  match reg with
  | .srcAddr => { r with srcAddr := v }
  | .srcLen => { r with srcLen := v }
  | .srcStride => { r with srcStride := v }
  | .dstAddr => { r with dstAddr := v }
  | .dstCap => { r with dstCap := v }
  | .dstStride => { r with dstStride := v }
  | .geom => { r with geom := v }
  | .lzwCfg => { r with lzwCfg := v &&& lzwCfgMask }
  | .wtCfg => { r with wtCfg := v &&& wtCfgMask }
  | .wtScale => { r with wtScale := v }
  | .qFactor => { r with qFactor := v &&& quantMask }
  | .qAlpha => { r with qAlpha := v &&& quantMask }
  | .qBeta => { r with qBeta := v &&& quantMask }
  | .stepCtrl k => { r with stepCtrl := r.stepCtrl.set k (v &&& stepCtrlMask) }
  | .stepCoef k => { r with stepCoef := r.stepCoef.set k v }
  | .id | .version | .ctrl | .status | .irqEn | .cmd | .outLen | .lzwNext | .lzwWidth | .levels => r

/-! ## Footprint of the running command -/

/-- The command in flight; none when idle or when the word in flight is illegal. -/
def State.running (s : State) : Option Instr := s.run.bind fun w => (decode w).toOption

/-- The write interval of the command in flight (20_memory.md R76). -/
def State.runningWrites (s : State) : Interval :=
  match s.running with
  | some i => writeInterval s.regs i
  | none => noBytes

/-- The read interval of the command in flight. -/
def State.runningReads (s : State) : Interval :=
  match s.running with
  | some i => readInterval s.regs i
  | none => noBytes

/-! ## Resets (70_reset_and_hazards.md) -/

/-- The hardware reset on every register and on the internal state (R340, R341).  A command in flight is abandoned: every
byte of its write interval holds any value (R341, R342; log 7), and no other byte of memory changes. -/
def State.resetEngine (s : State) : State :=
  let s := s.scramble s.runningWrites
  { s with regs := Regs.reset, run := none, result := .ok [] {}, latencyLeft := 0, raced := false }

/-! ## Starting a command (R142) -/

/-- The outcome of an illegal word (30_encoding.md R102): no data-memory access, no `LZW_*` or `LEVELS` register
(R306). -/
def illegalWord : CmdResult := .fail .badCmd {}

/-- The host writes `w` to `CMD` while the engine is idle (R142): the command is accepted and `S.result <- Exec(w, registers,
data memory)`, which is the outcome that exec, run on the accepted state, leaves in `result` (log 12). -/
def State.startCommand (s : State) (w : Word) : Host.Outcome State Fault Refusal :=
  let s := s.accept w
  match decode w with
  | .error _ => .next { s with result := illegalWord }
  | .ok i =>
    match exec i s with
    | .next done => .next { s with result := done.result }
    | .fault f => .fault f
    | .refused r => .refused r

/-! ## Host accesses -/

/-- A write the engine ignores because it is busy, or does (R147, R149): `OVERRUN` is set when it ignores it. -/
def State.whenIdle (s : State) (act : Host.Outcome State Fault Refusal) : Host.Outcome State Fault Refusal :=
  if s.regs.status.busy then .next { s with regs := { s.regs with status := s.regs.status.setOverrun } } else act

/-- A host write to a register (R26, R28 to R30, R147, R149). -/
def State.writeReg (s : State) (reg : Reg) (v : Word) : Host.Outcome State Fault Refusal :=
  match reg with
  | .ctrl => .next (if v.getLsbD 0 then s.resetEngine else s)
  | .status => .next { s with regs := { s.regs with status := s.regs.status.writeClear v } }
  | .irqEn => .next { s with regs := { s.regs with doneIe := v.getLsbD 0, errIe := v.getLsbD 1 } }
  | .cmd => s.whenIdle (s.startCommand v)
  | .id | .version | .outLen | .lzwNext | .lzwWidth | .levels => .next s
  | .srcAddr | .srcLen | .srcStride | .dstAddr | .dstCap | .dstStride | .geom | .lzwCfg | .wtCfg | .wtScale
  | .qFactor | .qAlpha | .qBeta | .stepCtrl _ | .stepCoef _ =>
    s.whenIdle (.next { s with regs := s.regs.storeConfig reg v })

/-- A register access the engine decodes: in the block, aligned, 32 bits wide (R22, R23); the others are refused. -/
def decodedAccess (offset size : Nat) (act : Host.Outcome State Fault Refusal) : Host.Outcome State Fault Refusal :=
  if 0x0C0 ≤ offset then .refused .registerNotDecoded
  else if size ≠ 4 ∨ offset % 4 ≠ 0 then .refused .registerAccessShape
  else act

/-- A host read of a register; an unmapped offset reads 0 (R22, R146). -/
def State.hostRegRead (s : State) (offset size : Nat) : Host.Outcome State Fault Refusal :=
  decodedAccess offset size
    (.next { s with hostData := match Reg.ofOffset offset with
      | some reg => s.regs.read reg
      | none => 0 })

/-- A host write of a register; a write to an unmapped offset is ignored (R22, R147, R149). -/
def State.hostRegWrite (s : State) (offset size : Nat) (v : Word) : Host.Outcome State Fault Refusal :=
  decodedAccess offset size
    (match Reg.ofOffset offset with
     | some reg => s.writeReg reg v
     | none => .next s)

/-- A host access at an address of the host's address space: the block lies at `MMIO_BASE` and up (10_state.md R20; log
3), and an address below it is not the engine's. -/
def State.atBlock (s : State) (addr : Nat) (act : Nat → Host.Outcome State Fault Refusal) :
    Host.Outcome State Fault Refusal :=
  if addr < s.mmioBase then .refused .registerNotDecoded else act (addr - s.mmioBase)

/-- A host read of a byte of data memory: any value inside the write interval of a running command (R52, R85; log 8), the
byte's value elsewhere. -/
def State.hostMemRead (s : State) (addr : Nat) : Host.Outcome State Fault Refusal :=
  if s.memSize ≤ addr then .fault .hostAddressAbsent
  else if s.runningWrites.contains addr then
    .next { s with hostData := (Config.freeByte s.draws addr).setWidth 32, draws := s.draws + 1 }
  else .next { s with hostData := (s.mem.read addr).setWidth 32 }

/-- A host write of a byte of data memory: inside the footprint of a running command it makes the command's outcome
unconstrained (R85; log 9). -/
def State.hostMemWrite (s : State) (addr : Nat) (b : Byte) : Host.Outcome State Fault Refusal :=
  if s.memSize ≤ addr then .fault .hostAddressAbsent
  else
    .next { s with
      mem := s.mem.write addr b
      raced := s.raced || s.runningReads.contains addr || s.runningWrites.contains addr }

/-- One operation of the host; it has been taken off the queue, and `poll` puts itself back while the engine is busy. -/
def State.hostOp (s : State) : HostOp → Host.Outcome State Fault Refusal
  | .regRead offset size => s.hostRegRead offset size
  | .regWrite offset size v => s.hostRegWrite offset size v
  | .busRead addr size => s.atBlock addr fun offset => s.hostRegRead offset size
  | .busWrite addr size v => s.atBlock addr fun offset => s.hostRegWrite offset size v
  | .memRead addr => s.hostMemRead addr
  | .memWrite addr b => s.hostMemWrite addr b
  | .poll =>
    .next { s with
      hostData := s.regs.status.read
      hostQ := if s.regs.status.busy then .poll :: s.hostQ else s.hostQ }
  | .idle => .next s
  | .hwReset => .next s.resetEngine

/-- The host's step: its next operation, or nothing when it has none. -/
def State.hostStep (s : State) : Host.Outcome State Fault Refusal :=
  match s.hostQ with
  | [] => .next s
  | op :: rest => State.hostOp { s with hostQ := rest } op

/-! ## Completion -/

/-- The completion of a command whose footprint the host wrote into while it ran (R85): every byte of `WS`, the choice of
success or error, the error code (one of those R300 lists) and the result registers are free values (log 9). -/
def State.completeRaced (s : State) : State :=
  let d := s.draws
  let s := { s with draws := d + 1 }
  let s := s.scramble s.runningWrites
  let status := if Config.racedSuccess d then s.regs.status.succeed (Config.racedArith d) (Config.racedNarrow d)
    else s.regs.status.fail (BitVec.ofNat 8 ((Config.racedError d).val + 1))
  { s with
    regs := { s.regs with
      status := status
      outLen := Config.racedOutLen d
      lzwNext := Config.racedLzwNext d
      lzwWidth := Config.racedLzwWidth d
      levels := Config.racedLevels d }
    run := none
    latencyLeft := 0
    raced := false }

/-- The engine's completion step (R145, R306; R85 for a raced command). -/
def State.finish (s : State) : State := if s.raced then s.completeRaced else s.complete s.result

/-- One step of the running command's latency has passed (log 2). -/
def State.tick (s : State) : State := { s with latencyLeft := s.latencyLeft - 1 }

/-- One host-observable step (log 2): the engine completes when its latency is used up; otherwise the host moves, and a
busy engine is one step nearer its completion. -/
def State.advance (s : State) : Host.Outcome State Fault Refusal :=
  match s.run with
  | none => s.hostStep
  | some _ => if s.latencyLeft ≤ 1 then .next s.finish else s.tick.hostStep

/-- The engine idle and the host about to write a command word: its bits at or above `nbits` zero (log 1). -/
def State.loadCommand (s : State) (nbits w : Nat) : State :=
  { s with
    regs := { s.regs with status := { s.regs.status with busy := false } }
    run := none
    latencyLeft := 0
    hostQ := .regWrite 0x014 4 (BitVec.ofNat 32 (w % 2 ^ nbits)) :: s.hostQ }

end Sys2Proof.Machine
end

