-- ==== Sys2Proof/Machine/Step.lean ====
section
/-! DEFINITION. One step of the machine, and where it takes its next command from. -/

namespace Sys2Proof.Machine

/-- One step: the completion of the command in flight, or the host's next operation (Machine/HostPort.lean). -/
def step (s : State) : Host.Outcome State Fault Refusal := s.advance

/-- `s` with a command word as the host's next write to `CMD` and the engine idle, so that the very next step accepts and
runs it (log 1). -/
def State.withFetchWord (s : State) (nbits w : Nat) : State := s.loadCommand nbits w

end Sys2Proof.Machine
end

