-- ==== Sys2Proof/Safety.lean ====
section
/-! DEFINITION. The terms claims are stated in: the invariant of the machine, what makes a command's checks fail, written
in plain arithmetic from the rules (not from the model's own check functions), and what a completion leaves alone. -/

namespace Sys2Proof.Machine

/-! ## The invariant -/

/-- What holds of every state the machine reaches: the parameters are in range, memory is canonical and within
`MEM_SIZE`, reserved bits read 0, `BUSY` and `S.run` agree, `DONE` and `ERR` exclude each other, a busy engine shows no
result, and the outcome waiting for delivery writes only bytes that exist. -/
structure State.Inv (s : State) : Prop where
  memSizePos : 1 ≤ s.memSize
  memSizeLe : s.memSize ≤ 2 ^ 32
  memWf : s.mem.wf
  memBound : ∀ c ∈ s.mem, c.1 < s.memSize
  lzwCfgReserved : s.regs.lzwCfg &&& lzwCfgMask = s.regs.lzwCfg
  wtCfgReserved : s.regs.wtCfg &&& wtCfgMask = s.regs.wtCfg
  qFactorReserved : s.regs.qFactor &&& quantMask = s.regs.qFactor
  qAlphaReserved : s.regs.qAlpha &&& quantMask = s.regs.qAlpha
  qBetaReserved : s.regs.qBeta &&& quantMask = s.regs.qBeta
  stepCtrlReserved : ∀ k : Fin 8, s.regs.stepCtrl[k] &&& stepCtrlMask = s.regs.stepCtrl[k]
  doneErr : ¬(s.regs.status.done = true ∧ s.regs.status.err = true)
  errCodeRange : s.regs.status.errCode.toNat ≤ 10
  busyRun : s.regs.status.busy = s.run.isSome
  busyStatus : s.regs.status.busy = true →
    s.regs.status.done = false ∧ s.regs.status.err = false ∧ s.regs.status.errCode = 0 ∧ s.regs.outLen = 0
  runCmd : ∀ w, s.run = some w → s.regs.cmd = w ∧ 1 ≤ s.latencyLeft
  idle : s.run = none → s.raced = false ∧ s.latencyLeft = 0
  resultBound : ∀ writes outs, s.result = .ok writes outs → ∀ c ∈ writes, c.1 < s.memSize

/-! ## The checks, from the rules (60_exceptions.md R300, R303) -/

/-- 42_lifting.md R203: `1 <= S <= 8`; for each `k < S`, `1 <= P_k <= 4` and `tag_k = k mod 2`; `KA >= 1`; `KD >= 1`. -/
def CustomListOk (r : Regs) : Prop :=
  1 ≤ r.nsteps ∧ r.nsteps ≤ 8 ∧
    (∀ k : Fin 8, k.val < r.nsteps →
      1 ≤ bitsOf r.stepCtrl[k] 3 1 ∧ bitsOf r.stepCtrl[k] 3 1 ≤ 4 ∧ bitsOf r.stepCtrl[k] 0 0 = k.val % 2) ∧
    1 ≤ r.ka ∧ 1 ≤ r.kd

/-- `E_CFG` (R300): a configuration field the command uses is illegal. -/
def CfgBad (i : Instr) (s : State) : Prop :=
  match i with
  | .lzwEnc | .lzwDec => s.regs.maxWidth < 9 ∨ 16 < s.regs.maxWidth
  | .wt1Fwd | .wt1Inv | .wt2Fwd | .wt2Inv => 4 ≤ s.regs.kind ∨ (s.regs.kind = 3 ∧ ¬CustomListOk s.regs)
  | .qFwd | .qInv => s.regs.alphaRaw = 0
  | .nop | .packWrap _ | .packSats _ | .packSatu _ | .unpackU _ | .unpackS _ => False

/-- A view with no element, or with a row stride too small for its rows of `rowBytes` bytes (20_memory.md R79). -/
def ViewGeomBad (w h stride rowBytes : Nat) : Prop := w = 0 ∨ h = 0 ∨ (2 ≤ h ∧ stride < rowBytes)

/-- `E_GEOM` (R300; 20_memory.md R79). -/
def GeomBad (i : Instr) (s : State) : Prop :=
  let w := s.regs.width
  let h := s.regs.height
  let src := s.regs.srcStride.toNat
  let dst := s.regs.dstStride.toNat
  match i with
  | .nop | .lzwEnc | .lzwDec => False
  | .wt1Fwd | .wt1Inv => w = 0 ∨ (2 ≤ w ∧ src < 4)
  | .wt2Fwd | .wt2Inv | .qFwd | .qInv => ViewGeomBad w h src (4 * w)
  | .packWrap .raster | .packSats .raster | .packSatu .raster => ViewGeomBad w h src (4 * w) ∨ ViewGeomBad w h dst w
  | .packWrap .band | .packSats .band | .packSatu .band => ViewGeomBad w h src (4 * w)
  | .unpackU .raster | .unpackS .raster => ViewGeomBad w h dst (4 * w) ∨ ViewGeomBad w h src w
  | .unpackU .band | .unpackS .band => ViewGeomBad w h dst (4 * w)

/-- `E_ALIGN` (R300; 20_memory.md R74): a word view's base, or its stride when it has two or more rows. -/
def AlignBad (i : Instr) (s : State) : Prop :=
  let src := s.regs.srcAddr.toNat % 4 ≠ 0 ∨ (2 ≤ s.regs.height ∧ s.regs.srcStride.toNat % 4 ≠ 0)
  let dst := s.regs.dstAddr.toNat % 4 ≠ 0 ∨ (2 ≤ s.regs.height ∧ s.regs.dstStride.toNat % 4 ≠ 0)
  match i with
  | .nop | .lzwEnc | .lzwDec => False
  | .wt1Fwd | .wt1Inv => s.regs.srcAddr.toNat % 4 ≠ 0 ∨ (2 ≤ s.regs.width ∧ s.regs.srcStride.toNat % 4 ≠ 0)
  | .wt2Fwd | .wt2Inv | .qFwd | .qInv => src
  | .packWrap _ | .packSats _ | .packSatu _ => src
  | .unpackU _ | .unpackS _ => dst

/-- The length in bytes of the read interval of a command that passed its geometry check (20_memory.md R76). -/
def readLength (i : Instr) (r : Regs) : Nat :=
  match i with
  | .nop => 0
  | .lzwEnc | .lzwDec => r.srcLen.toNat
  | .wt1Fwd | .wt1Inv => (r.width - 1) * r.srcStride.toNat + 4
  | .wt2Fwd | .wt2Inv | .qFwd | .qInv => (r.height - 1) * r.srcStride.toNat + 4 * r.width
  | .packWrap _ | .packSats _ | .packSatu _ => (r.height - 1) * r.srcStride.toNat + 4 * r.width
  | .unpackU .raster | .unpackS .raster => (r.height - 1) * r.srcStride.toNat + r.width
  | .unpackU .band | .unpackS .band => r.width * r.height

/-- The base of the write interval: the in-place commands write their source (R76). -/
def writeBase (i : Instr) (r : Regs) : Nat :=
  match i with
  | .nop => 0
  | .wt1Fwd | .wt1Inv | .wt2Fwd | .wt2Inv | .qFwd | .qInv => r.srcAddr.toNat
  | .lzwEnc | .lzwDec | .packWrap _ | .packSats _ | .packSatu _ | .unpackU _ | .unpackS _ => r.dstAddr.toNat

/-- The base of the read interval (R76). -/
def readBase (i : Instr) (r : Regs) : Nat :=
  match i with
  | .nop => 0
  | .lzwEnc | .lzwDec | .wt1Fwd | .wt1Inv | .wt2Fwd | .wt2Inv | .qFwd | .qInv | .packWrap _ | .packSats _
  | .packSatu _ | .unpackU _ | .unpackS _ => r.srcAddr.toNat

/-- The length in bytes of the write interval of a command that passed its geometry check (R76). -/
def writeLength (i : Instr) (r : Regs) : Nat :=
  match i with
  | .nop => 0
  | .lzwEnc | .lzwDec => r.dstCap.toNat
  | .wt1Fwd | .wt1Inv => (r.width - 1) * r.srcStride.toNat + 4
  | .wt2Fwd | .wt2Inv | .qFwd | .qInv => (r.height - 1) * r.srcStride.toNat + 4 * r.width
  | .packWrap .raster | .packSats .raster | .packSatu .raster => (r.height - 1) * r.dstStride.toNat + r.width
  | .packWrap .band | .packSats .band | .packSatu .band => r.width * r.height
  | .unpackU _ | .unpackS _ => (r.height - 1) * r.dstStride.toNat + 4 * r.width

/-- A non-empty range of `len` bytes that leaves memory (R76). -/
def RangeBad (base len memSize : Nat) : Prop := len ≠ 0 ∧ memSize < base + len

/-- `E_BUS` (R300; 20_memory.md R76). -/
def BusBad (i : Instr) (s : State) : Prop :=
  RangeBad (readBase i s.regs) (readLength i s.regs) s.memSize ∨
    RangeBad (writeBase i s.regs) (writeLength i s.regs) s.memSize

/-- `E_ALIAS` (R300; 20_memory.md R80): some byte lies in both intervals. -/
def AliasBad (i : Instr) (s : State) : Prop :=
  match i with
  | .nop | .wt1Fwd | .wt1Inv | .wt2Fwd | .wt2Inv | .qFwd | .qInv => False
  | .lzwEnc | .lzwDec | .packWrap _ | .packSats _ | .packSatu _ | .unpackU _ | .unpackS _ =>
    ∃ a, (readBase i s.regs ≤ a ∧ a < readBase i s.regs + readLength i s.regs) ∧
      (writeBase i s.regs ≤ a ∧ a < writeBase i s.regs + writeLength i s.regs)

/-- The check-phase errors in their order of priority, each with its condition (R303). -/
def FirstCheckError (i : Instr) (s : State) (e : ErrCode) : Prop :=
  (e = .cfg ∧ CfgBad i s) ∨
  (e = .geom ∧ ¬CfgBad i s ∧ GeomBad i s) ∨
  (e = .align ∧ ¬CfgBad i s ∧ ¬GeomBad i s ∧ AlignBad i s) ∨
  (e = .bus ∧ ¬CfgBad i s ∧ ¬GeomBad i s ∧ ¬AlignBad i s ∧ BusBad i s) ∨
  (e = .aliasing ∧ ¬CfgBad i s ∧ ¬GeomBad i s ∧ ¬AlignBad i s ∧ ¬BusBad i s ∧ AliasBad i s)

/-- The command passes its check phase (40_control.md R143). -/
def ChecksPass (i : Instr) (s : State) : Prop :=
  ¬CfgBad i s ∧ ¬GeomBad i s ∧ ¬AlignBad i s ∧ ¬BusBad i s ∧ ¬AliasBad i s

/-! ## Completions -/

/-- `t` is `s` after a completion that left the registers as `r`: the engine is idle, and everything outside the
registers, the memory and the free-value counter is as before. -/
def CompletedWith (s t : State) (r : Regs) : Prop :=
  t.regs = r ∧ t.run = none ∧ t.latencyLeft = 0 ∧ t.raced = false ∧ t.memSize = s.memSize ∧
    t.mmioBase = s.mmioBase ∧ t.latencies = s.latencies ∧ t.hostQ = s.hostQ ∧ t.hostData = s.hostData

/-- `STATUS` after a successful completion (40_control.md R145). -/
def statusAfterOk (st : Status) (arith narrow : Bool) : Status :=
  { st with busy := false, done := true, errCode := 0, arithOvf := st.arithOvf || arith,
            narrowOvf := st.narrowOvf || narrow }

/-- Every byte outside `[lo, lo + len)` reads as before. -/
def SameOutside (s t : State) (lo len : Nat) : Prop :=
  ∀ a, ¬(lo ≤ a ∧ a < lo + len) → t.mem.read a = s.mem.read a

/-- A 32-bit coefficient (00_scope.md R6, `COEF_WIDTH`). -/
abbrev Coef32 (v : Int) : Prop := -(2 ^ 31) ≤ v ∧ v < 2 ^ 31

/-- A `w x h` grid. -/
def IsGrid (w h : Nat) (g : Grid) : Prop := g.length = h ∧ ∀ row ∈ g, row.length = w

/-- Element `(r, c)` of a grid. -/
def elemAt (g : Grid) (r c : Nat) : Int := (g.getD r []).getD c 0

/-- The LZW commands, which set `LZW_NEXT` and `LZW_WIDTH` (10_state.md R40, R41). -/
def isLzw (i : Instr) : Bool :=
  match i with
  | .lzwEnc | .lzwDec => true
  | .nop | .wt1Fwd | .wt1Inv | .wt2Fwd | .wt2Inv | .qFwd | .qInv | .packWrap _ | .packSats _ | .packSatu _
  | .unpackU _ | .unpackS _ => false

/-- The commands that set `LEVELS` (10_state.md R47). -/
def setsLevels (i : Instr) : Bool :=
  match i with
  | .wt2Fwd | .wt2Inv | .qFwd | .qInv => true
  | .packWrap o | .packSats o | .packSatu o | .unpackU o | .unpackS o => o == .band
  | .nop | .lzwEnc | .lzwDec | .wt1Fwd | .wt1Inv => false

/-- The commands that can set `ARITH_OVF` (10_state.md R27). -/
def canWrap (i : Instr) : Bool :=
  match i with
  | .wt1Fwd | .wt1Inv | .wt2Fwd | .wt2Inv | .qFwd | .qInv => true
  | .nop | .lzwEnc | .lzwDec | .packWrap _ | .packSats _ | .packSatu _ | .unpackU _ | .unpackS _ => false

/-- The commands that can set `NARROW_OVF` (10_state.md R27). -/
def canNarrow (i : Instr) : Bool :=
  match i with
  | .packWrap _ | .packSats _ | .packSatu _ => true
  | .nop | .lzwEnc | .lzwDec | .wt1Fwd | .wt1Inv | .wt2Fwd | .wt2Inv | .qFwd | .qInv | .unpackU _ | .unpackS _ =>
    false

/-- The registers after an error completion of a command with code `e` (60_exceptions.md R306). -/
def regsAfterError (i : Instr) (e : ErrCode) (r : Regs) : Regs :=
  { r with
    outLen := 0
    lzwNext := if isLzw i then 0 else r.lzwNext
    lzwWidth := if isLzw i then 0 else r.lzwWidth
    levels := if setsLevels i then 0 else r.levels
    status := { r.status with busy := false, err := true, errCode := e.code } }

/-- Every register a command reads as an operand, and the interrupt enables, are the same in both. -/
def SameConfig (r r' : Regs) : Prop :=
  r'.cmd = r.cmd ∧ r'.doneIe = r.doneIe ∧ r'.errIe = r.errIe ∧ r'.srcAddr = r.srcAddr ∧ r'.srcLen = r.srcLen ∧
    r'.srcStride = r.srcStride ∧ r'.dstAddr = r.dstAddr ∧ r'.dstCap = r.dstCap ∧ r'.dstStride = r.dstStride ∧
    r'.geom = r.geom ∧ r'.lzwCfg = r.lzwCfg ∧ r'.wtCfg = r.wtCfg ∧ r'.wtScale = r.wtScale ∧
    r'.qFactor = r.qFactor ∧ r'.qAlpha = r.qAlpha ∧ r'.qBeta = r.qBeta ∧ r'.stepCtrl = r.stepCtrl ∧
    r'.stepCoef = r.stepCoef

/-! ## Host operations, by their effect -/

/-- The bits of a read-write register that are not reserved (10_state.md R29, R31 to R49); `none` for the registers the
host does not configure. -/
def regMask (reg : Reg) : Option Word :=
  match reg with
  | .irqEn => some 0x00000003
  | .srcAddr | .srcLen | .srcStride | .dstAddr | .dstCap | .dstStride | .geom | .wtScale | .stepCoef _ =>
    some 0xFFFFFFFF
  | .lzwCfg => some 0x0000071F
  | .wtCfg => some 0x000F1F07
  | .qFactor | .qAlpha | .qBeta => some 0x0000FFFF
  | .stepCtrl _ => some 0xFFFF0F0F
  | .id | .version | .ctrl | .status | .cmd | .outLen | .lzwNext | .lzwWidth | .levels => none

/-- The operation writes `v` to the register at an offset by an aligned 32-bit access, by name or by address (10_state.md
R23). -/
def WritesReg (s : State) (op : HostOp) (offset : Nat) (v : Word) : Prop :=
  op = .regWrite offset 4 v ∨ op = .busWrite (s.mmioBase + offset) 4 v

/-- The operation resets the engine: the reset input, or a write of `CTRL` with bit 0 set. -/
def IsReset (s : State) (op : HostOp) : Prop := op = .hwReset ∨ ∃ v : Word, WritesReg s op 0x008 v ∧ v.getLsbD 0 = true

/-- The step from `s` to `t` took this operation off the host's queue.  A completion step takes none, and a polling that
goes on puts itself back. -/
def TookOp (s t : State) (op : HostOp) : Prop := s.hostQ = op :: t.hostQ

/-! ## Decoder runs -/

/-- The decoder states reached from the start of a stream. -/
inductive Lzw.DecReached (cfg : Lzw.Options) (cap : Nat) (bits : List Bool) : Lzw.DecState → Prop
  | start : DecReached cfg cap bits (Lzw.DecState.init cfg bits)
  | more {st st' : Lzw.DecState} : DecReached cfg cap bits st → st.turn cfg cap = .more st' →
      DecReached cfg cap bits st'

/-- Options R160 accepts. -/
def Lzw.Options.Ok (cfg : Lzw.Options) : Prop := 9 ≤ cfg.maxWidth ∧ cfg.maxWidth ≤ 16

end Sys2Proof.Machine
end

