-- ==== Sys2Proof/Certificates/Slice0/Obligations.lean ====
section
/-! DEFINITION. The statements for the provers.  Each docstring says which rule of spec/ it formalises. -/

open Sys2Proof Sys2Proof.Machine

/-! ## Reset, registers, STATUS, irq -/

/-- 70_reset_and_hazards.md R340: after reset, and after the reset input is asserted in any state, `ID = 0x5041_3137`,
`VERSION = 0x0000_0001`, every other register reads 0, no command is in flight and `irq` is low.  R342: the reset input
changes no byte outside the write interval of the command it abandons, and none when the engine is idle (that it frees
that interval as a soft reset does is log 7). -/
def Obligations.ResetGivesEveryRegisterItsValue : Prop :=
  (∀ reg : Reg, State.reset.regs.read reg =
    match reg with
    | .id => 0x50413137
    | .version => 0x00000001
    | _ => 0) ∧
  State.reset.run = none ∧ State.reset.regs.irq = false ∧
  ∀ s : State, ∃ t, s.hostOp .hwReset = .next t ∧ (∀ reg : Reg, t.regs.read reg = State.reset.regs.read reg) ∧
    t.run = none ∧ t.regs.irq = false ∧ t.memSize = s.memSize ∧ t.mmioBase = s.mmioBase ∧ t.hostQ = s.hostQ ∧
    (∀ a, (∀ w i, s.run = some w → decode w = .ok i → (writeInterval s.regs i).contains a = false) →
      t.mem.read a = s.mem.read a) ∧
    (s.run = none → t.mem = s.mem)

/-- The invariant holds right after reset (the values of the model's own fields and of `S.result` are the model's choice:
log 2, 5). -/
def Obligations.ResetMeetsInvariant : Prop := State.reset.Inv

/-- Every step keeps the invariant: memory canonical and within `MEM_SIZE`, reserved register bits 0, `BUSY` set exactly
while a command is in flight, never both `DONE` and `ERR`, no result shown while busy. -/
def Obligations.EveryStepKeepsInvariant : Prop := ∀ s t : State, s.Inv → step s = .next t → t.Inv

/-- 10_state.md R28: a host write `v` to `STATUS`, busy or not, clears each of the five write-one-to-clear bits whose bit
is 1 in `v` and changes nothing else. -/
def Obligations.StatusWriteClearsOnlyItsBits : Prop :=
  ∀ (s : State) (v : Word), s.hostOp (.regWrite 0x00C 4 v) = .next { s with regs := { s.regs with
    status := { s.regs.status with
      done := s.regs.status.done && !v.getLsbD 1
      err := s.regs.status.err && !v.getLsbD 2
      arithOvf := s.regs.status.arithOvf && !v.getLsbD 3
      narrowOvf := s.regs.status.narrowOvf && !v.getLsbD 4
      overrun := s.regs.status.overrun && !v.getLsbD 5 } } }

/-- 40_control.md R146, R147 and the field tables of 10_state.md R29 to R49: with the engine idle, a write of `v` to a
read-write register other than `CMD` reads back as `v` with the reserved bits 0, every other register reads as before,
and nothing else changes.  (`IRQ_EN` is written the same way when busy: `BusyEngineIgnoresWrites`.)  A write to a read-only
register does nothing, idle or busy (R147, R149). -/
def Obligations.ConfigWriteReadsBack : Prop :=
  (∀ (s : State) (offset : Nat) (reg : Reg) (mask v : Word), Reg.ofOffset offset = some reg → regMask reg = some mask →
    s.regs.status.busy = false →
    ∃ t, s.hostOp (.regWrite offset 4 v) = .next t ∧ t.regs.read reg = v &&& mask ∧
      (∀ reg', reg' ≠ reg → t.regs.read reg' = s.regs.read reg') ∧ t = { s with regs := t.regs }) ∧
  ∀ (s : State) (offset : Nat) (v : Word),
    Reg.ofOffset offset ∈ [some .id, some .version, some .outLen, some .lzwNext, some .lzwWidth, some .levels] →
    s.hostOp (.regWrite offset 4 v) = .next s

/-- 40_control.md R149: while `BUSY = 1` a write to `CMD` or a configuration register changes nothing but sets `OVERRUN`;
writes to `STATUS`, `IRQ_EN` and `CTRL` are honoured; writes to read-only registers and unmapped offsets change nothing. -/
def Obligations.BusyEngineIgnoresWrites : Prop :=
  ∀ (s : State) (offset : Nat) (v : Word), offset < 0x0C0 → offset % 4 = 0 → s.regs.status.busy = true →
    (∀ reg, Reg.ofOffset offset = some reg → (reg = .cmd ∨ (reg ≠ .irqEn ∧ (regMask reg).isSome)) →
      s.hostOp (.regWrite offset 4 v) =
        .next { s with regs := { s.regs with status := { s.regs.status with overrun := true } } }) ∧
    (Reg.ofOffset offset = some .irqEn → s.hostOp (.regWrite offset 4 v) =
      .next { s with regs := { s.regs with doneIe := v.getLsbD 0, errIe := v.getLsbD 1 } }) ∧
    (Reg.ofOffset offset = some .status → ∃ t, s.hostOp (.regWrite offset 4 v) = .next t ∧
      t = { s with regs := { s.regs with status := t.regs.status } } ∧
      t.regs.status.busy = true ∧ t.regs.status.errCode = s.regs.status.errCode ∧
      t.regs.status.done = (s.regs.status.done && !v.getLsbD 1) ∧
      t.regs.status.err = (s.regs.status.err && !v.getLsbD 2) ∧
      t.regs.status.arithOvf = (s.regs.status.arithOvf && !v.getLsbD 3) ∧
      t.regs.status.narrowOvf = (s.regs.status.narrowOvf && !v.getLsbD 4) ∧
      t.regs.status.overrun = (s.regs.status.overrun && !v.getLsbD 5)) ∧
    (Reg.ofOffset offset = some .ctrl → ∃ t, s.hostOp (.regWrite offset 4 v) = .next t ∧
      (v.getLsbD 0 = true → t.regs = Regs.reset ∧ t.run = none) ∧ (v.getLsbD 0 = false → t = s)) ∧
    ((Reg.ofOffset offset = none ∨
        Reg.ofOffset offset ∈ [some .id, some .version, some .outLen, some .lzwNext, some .lzwWidth, some .levels]) →
      s.hostOp (.regWrite offset 4 v) = .next s)

/-- 40_control.md R146 and 10_state.md R20 to R23: an aligned 32-bit read inside the block returns the register's value,
0 at the unmapped offsets `0x05C .. 0x07C`, where a write is ignored, and has no side effect; any other access shape, and
any offset outside the block, is refused by name, for reads and writes alike (R23 has a model refuse the first; that the
second is refused too is the model's choice: log 10).  An access at an address is the access at its offset from
`MMIO_BASE`, and an address below that is outside the block (log 3). -/
def Obligations.RegisterReadsAndRefusedAccesses : Prop :=
  ∀ (s : State) (offset size : Nat) (v : Word),
    (offset < 0x0C0 → offset % 4 = 0 → ∃ d, s.hostOp (.regRead offset 4) = .next { s with hostData := d } ∧
      (∀ reg, Reg.ofOffset offset = some reg → d = s.regs.read reg) ∧
      (0x05C ≤ offset → offset ≤ 0x07C → d = 0 ∧ s.hostOp (.regWrite offset 4 v) = .next s)) ∧
    (offset < 0x0C0 → (size ≠ 4 ∨ offset % 4 ≠ 0) →
      s.hostOp (.regRead offset size) = .refused .registerAccessShape ∧
      s.hostOp (.regWrite offset size v) = .refused .registerAccessShape) ∧
    (0x0C0 ≤ offset →
      s.hostOp (.regRead offset size) = .refused .registerNotDecoded ∧
      s.hostOp (.regWrite offset size v) = .refused .registerNotDecoded) ∧
    (s.hostOp (.busRead (s.mmioBase + offset) size) = s.hostOp (.regRead offset size) ∧
      s.hostOp (.busWrite (s.mmioBase + offset) size v) = s.hostOp (.regWrite offset size v)) ∧
    ∀ addr < s.mmioBase, s.hostOp (.busRead addr size) = .refused .registerNotDecoded ∧
      s.hostOp (.busWrite addr size v) = .refused .registerNotDecoded

/-- 10_state.md R21, the register map, offset by offset; R24 to R49, what a read of each register shows: the constants, the
fields of `STATUS` and `IRQ_EN` at their bits, the bits no field names 0, and the other registers' values; and
30_encoding.md R108, the operand fields of the configuration registers. -/
def Obligations.ReadsShowTheFields : Prop :=
  (∀ row ∈ [(0x000, Reg.id), (0x004, .version), (0x008, .ctrl), (0x00C, .status), (0x010, .irqEn), (0x014, .cmd),
      (0x018, .srcAddr), (0x01C, .srcLen), (0x020, .srcStride), (0x024, .dstAddr), (0x028, .dstCap),
      (0x02C, .dstStride), (0x030, .geom), (0x034, .outLen), (0x038, .lzwCfg), (0x03C, .lzwNext), (0x040, .lzwWidth),
      (0x044, .wtCfg), (0x048, .wtScale), (0x04C, .qFactor), (0x050, .qAlpha), (0x054, .qBeta), (0x058, .levels)],
    Reg.ofOffset row.1 = some row.2) ∧
  (∀ k : Fin 8, Reg.ofOffset (0x080 + 8 * k) = some (.stepCtrl k) ∧ Reg.ofOffset (0x084 + 8 * k) = some (.stepCoef k)) ∧
  (∀ offset, (0x05C ≤ offset ∧ offset ≤ 0x07C) ∨ offset % 4 ≠ 0 ∨ 0x0C0 ≤ offset → Reg.ofOffset offset = none) ∧
  ∀ r : Regs,
    let status := r.read .status
    let irqEn := r.read .irqEn
    (status.getLsbD 0 = r.status.busy ∧ status.getLsbD 1 = r.status.done ∧ status.getLsbD 2 = r.status.err ∧
      status.getLsbD 3 = r.status.arithOvf ∧ status.getLsbD 4 = r.status.narrowOvf ∧
      status.getLsbD 5 = r.status.overrun ∧ (∀ k < 8, status.getLsbD (8 + k) = r.status.errCode.getLsbD k) ∧
      (∀ k, k = 6 ∨ k = 7 ∨ 16 ≤ k → status.getLsbD k = false)) ∧
    (irqEn.getLsbD 0 = r.doneIe ∧ irqEn.getLsbD 1 = r.errIe ∧ ∀ k, 2 ≤ k → irqEn.getLsbD k = false) ∧
    (r.read .id = 0x50413137 ∧ r.read .version = 0x00000001 ∧ r.read .ctrl = 0 ∧ r.read .cmd = r.cmd ∧
      r.read .outLen = r.outLen ∧ (r.read .lzwNext).toNat = r.lzwNext.toNat ∧
      (r.read .lzwWidth).toNat = r.lzwWidth.toNat ∧ (r.read .levels).toNat = r.levels.toNat) ∧
    (r.read .srcAddr = r.srcAddr ∧ r.read .srcLen = r.srcLen ∧ r.read .srcStride = r.srcStride ∧
      r.read .dstAddr = r.dstAddr ∧ r.read .dstCap = r.dstCap ∧ r.read .dstStride = r.dstStride ∧
      r.read .geom = r.geom ∧ r.read .lzwCfg = r.lzwCfg ∧ r.read .wtCfg = r.wtCfg ∧ r.read .wtScale = r.wtScale ∧
      r.read .qFactor = r.qFactor ∧ r.read .qAlpha = r.qAlpha ∧ r.read .qBeta = r.qBeta ∧
      ∀ k : Fin 8, r.read (.stepCtrl k) = r.stepCtrl[k] ∧ r.read (.stepCoef k) = r.stepCoef[k]) ∧
    (r.width = r.geom.toNat % 2 ^ 16 ∧ r.height = r.geom.toNat / 2 ^ 16 ∧ r.kind = r.wtCfg.toNat % 2 ^ 3 ∧
      r.iter = r.wtCfg.toNat / 2 ^ 8 % 2 ^ 5 ∧ r.nsteps = r.wtCfg.toNat / 2 ^ 16 % 2 ^ 4 ∧
      r.ka = r.wtScale.toNat % 2 ^ 16 ∧ r.kd = r.wtScale.toNat / 2 ^ 16 ∧ r.maxWidth = r.lzwCfg.toNat % 2 ^ 5 ∧
      r.dynamic = r.lzwCfg.getLsbD 8 ∧ r.flush = r.lzwCfg.getLsbD 9 ∧ r.checkLen = r.lzwCfg.getLsbD 10 ∧
      r.lzwOptions = ⟨r.maxWidth, r.dynamic, r.flush⟩ ∧ r.factor0 = r.qFactor.toNat % 2 ^ 16 ∧
      r.alphaRaw = r.qAlpha.toNat % 2 ^ 16 ∧ r.beta = (r.qBeta.setWidth 16).toInt)

/-- 60_exceptions.md R308: `irq = (DONE and DONE_IE) or (ERR and ERR_IE)`, read off the bits software sees; and a step
lowers it only when it takes one of these operations of the host: a write of 1 to the bit that holds `irq` high, a write of
0 to its enable, the next command word, or a reset (70_reset_and_hazards.md R340, R341). -/
def Obligations.IrqIsALevelTheHostLowers : Prop :=
  (∀ r : Regs, r.irq = (((r.read .status).getLsbD 1 && (r.read .irqEn).getLsbD 0) ||
    ((r.read .status).getLsbD 2 && (r.read .irqEn).getLsbD 1))) ∧
  ∀ s t : State, s.Inv → step s = .next t → s.regs.irq = true → t.regs.irq = false →
    ∃ op, TookOp s t op ∧ (IsReset s op ∨ ∃ v : Word, WritesReg s op 0x014 v ∨
      (WritesReg s op 0x00C v ∧ ((s.regs.status.done = true ∧ v.getLsbD 1 = true) ∨
        (s.regs.status.err = true ∧ v.getLsbD 2 = true))) ∨
      (WritesReg s op 0x010 v ∧ ((s.regs.status.done = true ∧ v.getLsbD 0 = false) ∨
        (s.regs.status.err = true ∧ v.getLsbD 1 = false))))

/-- 70_reset_and_hazards.md R341, R342: a write of `CTRL` with bit 0 = 1 in any state gives every register its reset
value, abandons the command in flight, leaves `DONE`, `ERR` and `irq` 0, changes no byte outside the write interval of
that command (and no byte at all when the engine was idle), and leaves the engine idle; with bit 0 = 0 nothing
happens. -/
def Obligations.SoftResetAbandonsTheCommand : Prop :=
  ∀ (s : State) (v : Word),
    (v.getLsbD 0 = true → ∃ t, s.hostOp (.regWrite 0x008 4 v) = .next t ∧ t.regs = State.reset.regs ∧ t.run = none ∧
      t.regs.irq = false ∧ t.memSize = s.memSize ∧ t.mmioBase = s.mmioBase ∧ t.hostQ = s.hostQ ∧
      (∀ a, (∀ w i, s.run = some w → decode w = .ok i → (writeInterval s.regs i).contains a = false) →
        t.mem.read a = s.mem.read a) ∧
      (s.run = none → t.mem = s.mem)) ∧
    (v.getLsbD 0 = false → s.hostOp (.regWrite 0x008 4 v) = .next s)

/-- 20_memory.md R70, R71, R85, in every state, idle or busy: a host write of a byte that exists makes that byte what was
written and changes no other byte, and outside the footprint of the command in flight it leaves the command undisturbed; a
host read of a byte outside the write interval of the command in flight returns the byte; an address at or above
`MEM_SIZE` stops the machine with the fault of that name (the model's choice: log 10).  A coefficient is the 32-bit two's
complement number whose least significant byte lies lowest (R72). -/
def Obligations.HostMemoryReadAfterWrite : Prop :=
  ∀ (s : State) (a : Nat) (b : Byte), s.mem.wf →
    (a < s.memSize → ∃ t, s.hostOp (.memWrite a b) = .next t ∧ t.mem.read a = b ∧ t.mem.wf ∧
      (∀ a', a' ≠ a → t.mem.read a' = s.mem.read a') ∧
      ((∀ w i, s.run = some w → decode w = .ok i →
          (readInterval s.regs i).contains a = false ∧ (writeInterval s.regs i).contains a = false) →
        t = { s with mem := t.mem })) ∧
    (a < s.memSize → (∀ w i, s.run = some w → decode w = .ok i → (writeInterval s.regs i).contains a = false) →
      s.hostOp (.memRead a) = .next { s with hostData := (s.mem.read a).setWidth 32 }) ∧
    (s.memSize ≤ a → s.hostOp (.memWrite a b) = .fault .hostAddressAbsent ∧
      s.hostOp (.memRead a) = .fault .hostAddressAbsent) ∧
    s.mem.readCoef a = (s.mem.read (a + 3) ++ s.mem.read (a + 2) ++ s.mem.read (a + 1) ++ s.mem.read a).toInt

/-! ## Life of a command -/

/-- What a step does: unless the engine completes, it takes the host's next operation and applies it, with one step of the
latency passed when the engine is busy; with none to come nothing else happens.  The host's write of a legal word to
`CMD`, by name or by address, while the engine is idle accepts the command, and `S.result` becomes the outcome that exec of
the decoded command on the accepted state records (the model's steps and its way of running a command: log 1, 2, 12). -/
def Obligations.StepRunsTheDecodedCommand : Prop :=
  (∀ (s : State) (w : Word) (i : Instr) (op : HostOp) (rest : List HostOp), s.run = none →
    s.regs.status.busy = false → s.hostQ = op :: rest → WritesReg s op 0x014 w → decode w = .ok i →
    ∃ t, exec i (State.accept { s with hostQ := rest } w) = .next t ∧
      step s = .next { State.accept { s with hostQ := rest } w with result := t.result }) ∧
  (∀ (s : State) (op : HostOp) (rest : List HostOp), s.hostQ = op :: rest →
    (s.run = none → step s = State.hostOp { s with hostQ := rest } op) ∧
    (s.run.isSome = true → 1 < s.latencyLeft →
      step s = State.hostOp { s with hostQ := rest, latencyLeft := s.latencyLeft - 1 } op)) ∧
  ∀ s : State, s.hostQ = [] →
    (s.run = none → step s = .next s) ∧
    (s.run.isSome = true → 1 < s.latencyLeft → step s = .next { s with latencyLeft := s.latencyLeft - 1 })

/-- 40_control.md R142: a host write of any value `v` to `CMD` while the engine is idle stores it, clears `DONE`, `ERR`,
`ERRCODE` and `OUT_LEN`, sets `BUSY` and `S.run`, makes `S.result` the outcome of the command on this state, and changes
no other register and no memory; the command then stays busy for at least one step.  That the outcome is the one exec
records on the accepted state is the model's choice (log 12), and so is the counter of the steps left (log 2; R144). -/
def Obligations.CmdWriteIsAccepted : Prop :=
  ∀ (s : State) (v : Word), s.regs.status.busy = false →
    ∃ t, s.hostOp (.regWrite 0x014 4 v) = .next t ∧
      t.regs = { s.regs with
        cmd := v
        outLen := 0
        status := { s.regs.status with busy := true, done := false, err := false, errCode := 0 } } ∧
      t.run = some v ∧ t.mem = s.mem ∧ t.memSize = s.memSize ∧ t.mmioBase = s.mmioBase ∧ t.hostQ = s.hostQ ∧ 1 ≤ t.latencyLeft ∧
      (∀ i, decode v = .ok i → ∃ u, exec i t = .next u ∧ t.result = u.result) ∧
      (∀ e, decode v = .error e → t.result = .fail .badCmd {})

/-- 40_control.md R145, 60_exceptions.md R306: the completion step of a command no host write disturbed (when it comes is
the model's counter, log 2).  On success the
bytes are written and the result registers and flags set; on an error `OUT_LEN`, and the result registers of the command,
are 0, `ERR` and `ERRCODE` say which error, and no byte outside the interval the error frees changes. -/
def Obligations.CompletionDeliversTheOutcome : Prop :=
  ∀ (s : State) (w : Word), s.run = some w → s.latencyLeft ≤ 1 → s.raced = false →
    ∃ t, step s = .next t ∧
      match s.result with
      | .ok writes o =>
        t.mem = s.mem.writeAll writes ∧
        CompletedWith s t { s.regs with
          outLen := BitVec.ofNat 32 o.outLen
          lzwNext := (o.lzw.map fun x => BitVec.ofNat 17 x.1).getD s.regs.lzwNext
          lzwWidth := (o.lzw.map fun x => BitVec.ofNat 5 x.2).getD s.regs.lzwWidth
          levels := (o.levels.map (BitVec.ofNat 5)).getD s.regs.levels
          status := statusAfterOk s.regs.status o.arithOvf o.narrowOvf }
      | .fail e o =>
        (∀ a, o.scratch.contains a = false → t.mem.read a = s.mem.read a) ∧
        CompletedWith s t { s.regs with
          outLen := 0
          lzwNext := if o.clearsLzw then 0 else s.regs.lzwNext
          lzwWidth := if o.clearsLzw then 0 else s.regs.lzwWidth
          levels := if o.clearsLevels then 0 else s.regs.levels
          status := { s.regs.status with busy := false, err := true, errCode := e.code } }

/-- 40_control.md R140, R144: from an idle engine whose host writes one legal word to `CMD` and then does nothing, the
command completes after a finite number of steps, in exactly the state exec gives on the accepted state (the model's
steps and its exec: log 1, 2, 12). -/
def Obligations.CommandRunsToItsCompletion : Prop :=
  ∀ (s : State) (w : Word) (i : Instr) (op : HostOp), s.run = none → s.regs.status.busy = false →
    s.hostQ = [op] → WritesReg s op 0x014 w → decode w = .ok i →
    ∃ n t, 1 ≤ n ∧ Host.Core.run Sys2Proof.core (1 + n) s = .next t ∧
      exec i (State.accept { s with hostQ := [] } w) = .next t

/-- 40_control.md R140, R149: `BUSY` rises only with the step that takes the host's write of a word to `CMD`, and falls
only with the completion of the command in flight, whose latency the model counts (log 2), or with the step that takes a
reset, which gives every register its reset value (70_reset_and_hazards.md R340, R341). -/
def Obligations.BusyChangesOnlyByCommands : Prop :=
  ∀ s t : State, s.Inv → step s = .next t →
    (s.regs.status.busy = false → t.regs.status.busy = true →
      ∃ op w, TookOp s t op ∧ WritesReg s op 0x014 w ∧ t.run = some w ∧ t.regs.cmd = w) ∧
    (s.regs.status.busy = true → t.regs.status.busy = false →
      (s.latencyLeft ≤ 1 ∧ t = s.finish ∧ (t.regs.status.done = true ∨ t.regs.status.err = true)) ∨
        ∃ op, TookOp s t op ∧ IsReset s op ∧ t.regs = Regs.reset)

/-- 20_memory.md R88, 40_control.md R149: no step of a busy engine changes a register a command reads as an operand,
unless it takes a reset (70_reset_and_hazards.md R340, R341); and while the command stays in flight its word, its outcome
and the parameters stay, and the model's counter of its latency goes down by one (the model's choice: log 2). -/
def Obligations.ConfigurationIsFrozenWhileBusy : Prop :=
  ∀ s t : State, s.Inv → step s = .next t → s.regs.status.busy = true →
    ((∃ op, TookOp s t op ∧ IsReset s op) ∨
      SameConfig { s.regs with doneIe := t.regs.doneIe, errIe := t.regs.errIe } t.regs) ∧
    (t.regs.status.busy = true → t.run = s.run ∧ t.result = s.result ∧ t.memSize = s.memSize ∧
      t.mmioBase = s.mmioBase ∧ t.latencyLeft + 1 = s.latencyLeft)

/-- 60_exceptions.md R307: a sticky flag that is 1 stays 1 through every step that is not a host write of 1 to it or a
reset; `ARITH_OVF` and `NARROW_OVF` rise only with a completion that sets `DONE`, `OVERRUN` only with a host write while
busy; `DONE` and `ERR` fall only with a host write of 1 to them, the host's write of the next command word, or a
reset. -/
def Obligations.StickyFlagsStayUntilCleared : Prop :=
  ∀ s t : State, s.Inv → step s = .next t →
    (∀ (flag : Status → Bool) (bit : Nat),
      ((flag = Status.arithOvf ∧ bit = 3) ∨ (flag = Status.narrowOvf ∧ bit = 4) ∨ (flag = Status.overrun ∧ bit = 5)) →
      flag s.regs.status = true → flag t.regs.status = false →
      ∃ op, TookOp s t op ∧ (IsReset s op ∨ ∃ v : Word, WritesReg s op 0x00C v ∧ v.getLsbD bit = true)) ∧
    ((s.regs.status.arithOvf = false ∧ t.regs.status.arithOvf = true ∨
        s.regs.status.narrowOvf = false ∧ t.regs.status.narrowOvf = true) →
      s.regs.status.busy = true ∧ t.regs.status.busy = false ∧ t.regs.status.done = true) ∧
    (s.regs.status.overrun = false → t.regs.status.overrun = true →
      s.regs.status.busy = true ∧ ∃ op offset v, TookOp s t op ∧ WritesReg s op offset v) ∧
    (∀ (flag : Status → Bool) (bit : Nat), ((flag = Status.done ∧ bit = 1) ∨ (flag = Status.err ∧ bit = 2)) →
      flag s.regs.status = true → flag t.regs.status = false →
      ∃ op, TookOp s t op ∧ (IsReset s op ∨ (∃ v : Word, WritesReg s op 0x00C v ∧ v.getLsbD bit = true) ∨
        ∃ w : Word, WritesReg s op 0x014 w))

/-- 20_memory.md R85 (the model's reading of it: log 9): a host write into the footprint of a running command marks it;
the completion of a marked command ends with `DONE` or `ERR`, an error code of the table R300, the operand registers as
they were, and no byte outside the command's write interval changed. -/
def Obligations.RacedCommandIsFreeOnlyInside : Prop :=
  ∀ (s : State) (w : Word) (i : Instr), s.Inv → s.run = some w → decode w = .ok i →
    (∀ (a : Nat) (b : Byte), a < s.memSize →
      ((readInterval s.regs i).contains a = true ∨ (writeInterval s.regs i).contains a = true) →
      ∃ t, s.hostOp (.memWrite a b) = .next t ∧ t.raced = true ∧ t.run = some w ∧ t.regs = s.regs) ∧
    (s.raced = true → s.latencyLeft ≤ 1 → ∃ t, step s = .next t ∧ t.run = none ∧ t.regs.status.busy = false ∧
      (t.regs.status.done = true ∧ t.regs.status.err = false ∧ t.regs.status.errCode = 0 ∨
        t.regs.status.done = false ∧ t.regs.status.err = true ∧ 1 ≤ t.regs.status.errCode.toNat ∧
          t.regs.status.errCode.toNat ≤ 10) ∧
      SameConfig s.regs t.regs ∧
      ∀ a, (writeInterval s.regs i).contains a = false → t.mem.read a = s.mem.read a)

/-! ## Encoding -/

/-- Words written out from the opcode map 30_encoding.md R101, R115 decode to the commands they stand for. -/
def Obligations.WordsOfTheOpcodeMapDecode : Prop :=
  decode 0x00000000 = .ok .nop ∧ decode 0x00000001 = .ok .lzwEnc ∧ decode 0x00000002 = .ok .lzwDec ∧
  decode 0x00000010 = .ok .wt1Fwd ∧ decode 0x00000011 = .ok .wt1Inv ∧ decode 0x00000012 = .ok .wt2Fwd ∧
  decode 0x00000013 = .ok .wt2Inv ∧ decode 0x00000020 = .ok .qFwd ∧ decode 0x00000021 = .ok .qInv ∧
  decode 0x00001030 = .ok (.packWrap .band) ∧ decode 0x00001130 = .ok (.packSats .band) ∧
  decode 0x00000230 = .ok (.packSatu .raster) ∧ decode 0x00000031 = .ok (.unpackU .raster) ∧
  decode 0x00001131 = .ok (.unpackS .band)

/-- Decode and encode agree on all 2^32 words: a word decodes to a command exactly when it is the word the command is
encoded as; every command is well formed. -/
def Obligations.DecodeAndEncodeAgree : Prop :=
  (∀ (w : Word) (i : Instr), decode w = .ok i ↔ w = encode i) ∧ ∀ i : Instr, i.wellFormed = true

/-- 30_encoding.md R102: the illegal words are exactly those with an `OPCODE` not in the table, a nonzero reserved bit, a
nonzero `MODE` or `ORDER` on an opcode that does not use it, `MODE = 3` on `PACK`, or bit 9 set on `UNPACK`. -/
def Obligations.IllegalWordsAreTheListedOnes : Prop :=
  ∀ w : Word, (∃ e, decode w = .error e) ↔
    (bitsOf w 7 0 ∉ [0x00, 0x01, 0x02, 0x10, 0x11, 0x12, 0x13, 0x20, 0x21, 0x30, 0x31] ∨
      bitsOf w 11 10 ≠ 0 ∨ bitsOf w 31 13 ≠ 0 ∨
      (bitsOf w 7 0 ≠ 0x30 ∧ bitsOf w 7 0 ≠ 0x31 ∧ (bitsOf w 9 8 ≠ 0 ∨ bitsOf w 12 12 ≠ 0)) ∨
      (bitsOf w 7 0 = 0x30 ∧ bitsOf w 9 8 = 3) ∨
      (bitsOf w 7 0 = 0x31 ∧ w.getLsbD 9 = true))

/-- 30_encoding.md R102, 60_exceptions.md R306: an illegal word is accepted and completes with `E_BAD_CMD`; no byte of
memory changes and no register but `CMD`, `OUT_LEN` and `STATUS` (the number of steps is the model's counter: log 2). -/
def Obligations.IllegalWordCompletesWithBadCmd : Prop :=
  ∀ (s : State) (w : Word) (e : CmdReject) (op : HostOp), s.run = none → s.regs.status.busy = false →
    s.hostQ = [op] → WritesReg s op 0x014 w → decode w = .error e →
    ∃ n t, 1 ≤ n ∧ Host.Core.run Sys2Proof.core (1 + n) s = .next t ∧ t.mem = s.mem ∧ t.run = none ∧
      t.regs = { s.regs with
        cmd := w
        outLen := 0
        status := { s.regs.status with busy := false, done := false, err := true, errCode := 0x01 } }

/-! ## Checks and frames of every command -/

/-- 60_exceptions.md R301, R303, R304, R306: a command some of whose checks fail reports the first in the order `E_CFG`,
`E_GEOM`, `E_ALIGN`, `E_BUS`, `E_ALIAS`; memory is unchanged and the registers are those of an error completion. -/
def Obligations.FirstFailingCheckIsReported : Prop :=
  ∀ (i : Instr) (s : State) (e : ErrCode), FirstCheckError i s e →
    ∃ t, exec i s = .next t ∧ t.mem = s.mem ∧ CompletedWith s t (regsAfterError i e s.regs)

/-- 20_memory.md R82, 60_exceptions.md R304, 40_control.md R145: what no command changes.  Every command completes; the
operand registers, the interrupt enables, `OVERRUN` and the parameters are unchanged, `LZW_NEXT` and `LZW_WIDTH` but for
the LZW commands, `LEVELS` but for the commands that set it, `ARITH_OVF` but for the transform and quantizer commands,
`NARROW_OVF` but for `PACK.*`, and every byte outside the command's write interval.  For a view with elements the two
intervals are those of R76. -/
def Obligations.FrameOfEveryCommand : Prop :=
  ∀ (i : Instr) (s : State), ∃ t, exec i s = .next t ∧
    SameConfig s.regs t.regs ∧
    t.regs.status.overrun = s.regs.status.overrun ∧
    (isLzw i = false → t.regs.lzwNext = s.regs.lzwNext ∧ t.regs.lzwWidth = s.regs.lzwWidth) ∧
    (setsLevels i = false → t.regs.levels = s.regs.levels) ∧
    (s.regs.status.arithOvf = true → t.regs.status.arithOvf = true) ∧
    (canWrap i = false → t.regs.status.arithOvf = s.regs.status.arithOvf) ∧
    (s.regs.status.narrowOvf = true → t.regs.status.narrowOvf = true) ∧
    (canNarrow i = false → t.regs.status.narrowOvf = s.regs.status.narrowOvf) ∧
    t.regs.status.busy = false ∧ (t.regs.status.done = true ∨ t.regs.status.err = true) ∧ t.run = none ∧
    t.memSize = s.memSize ∧ t.mmioBase = s.mmioBase ∧ t.latencies = s.latencies ∧ t.hostQ = s.hostQ ∧ t.hostData = s.hostData ∧
    (∀ a, (writeInterval s.regs i).contains a = false → t.mem.read a = s.mem.read a) ∧
    (1 ≤ s.regs.width → 1 ≤ s.regs.height → ∀ a,
      ((readInterval s.regs i).contains a = true ↔
        readBase i s.regs ≤ a ∧ a < readBase i s.regs + readLength i s.regs) ∧
      ((writeInterval s.regs i).contains a = true ↔
        writeBase i s.regs ≤ a ∧ a < writeBase i s.regs + writeLength i s.regs))

/-- 40_control.md R144: a command's outcome depends only on its word, the operand registers, `MEM_SIZE` and the bytes of
its read interval. -/
def Obligations.OutcomeDependsOnReadIntervalOnly : Prop :=
  ∀ (i : Instr) (s s' : State), SameConfig s.regs s'.regs → s'.memSize = s.memSize →
    (∀ a, (readInterval s.regs i).contains a = true → s'.mem.read a = s.mem.read a) →
    ∃ t t', exec i s = .next t ∧ exec i s' = .next t' ∧ t'.result = t.result

/-! ## NOP -/

/-- 40_control.md R148: `NOP` succeeds with `OUT_LEN = 0`, sets `DONE`, no sticky flag and no other register, and leaves
memory as it is. -/
def Obligations.NopOnlyCompletes : Prop :=
  ∀ s : State, ∃ t, exec .nop s = .next t ∧ t.mem = s.mem ∧
    CompletedWith s t { s.regs with
      outLen := 0
      status := { s.regs.status with busy := false, done := true, errCode := 0 } }

/-! ## LZW -/

/-- 41_lzw.md R169, R171, R172: `LZW_ENC`, its checks passed and its output within `DST_CAP`, writes the code stream at
`DST_ADDR`, leaves every other byte, and sets `OUT_LEN`, `LZW_NEXT`, `LZW_WIDTH` and `DONE`. -/
def Obligations.LzwEncWritesTheCodeStream : Prop :=
  ∀ s : State, ChecksPass .lzwEnc s →
    let input := (List.range s.regs.srcLen.toNat).map fun j => s.mem.read (s.regs.srcAddr.toNat + j)
    let fin := Lzw.encodeState s.regs.lzwOptions input
    let out := Lzw.encodeBytes s.regs.lzwOptions input
    s.mem.wf → out.length ≤ s.regs.dstCap.toNat →
    ∃ t, exec .lzwEnc s = .next t ∧
      (∀ j < out.length, t.mem.read (s.regs.dstAddr.toNat + j) = out.getD j 0) ∧
      SameOutside s t s.regs.dstAddr.toNat out.length ∧
      CompletedWith s t { s.regs with
        outLen := BitVec.ofNat 32 out.length
        lzwNext := BitVec.ofNat 17 fin.table.next
        lzwWidth := BitVec.ofNat 5 fin.table.width
        status := statusAfterOk s.regs.status false false }

/-- 41_lzw.md R171: `LZW_ENC` whose complete output is longer than `DST_CAP` fails with `E_DST_OVF`; no byte outside
`[DST_ADDR, DST_ADDR + DST_CAP)` changes. -/
def Obligations.LzwEncOverflowFails : Prop :=
  ∀ s : State, ChecksPass .lzwEnc s →
    let input := (List.range s.regs.srcLen.toNat).map fun j => s.mem.read (s.regs.srcAddr.toNat + j)
    s.regs.dstCap.toNat < (Lzw.encodeBytes s.regs.lzwOptions input).length →
    ∃ t, exec .lzwEnc s = .next t ∧ SameOutside s t s.regs.dstAddr.toNat s.regs.dstCap.toNat ∧
      CompletedWith s t (regsAfterError .lzwEnc .dstOvf s.regs)

/-- 41_lzw.md R173, R175, R177: `LZW_DEC`, its checks passed.  When the decoder reaches the end-of-input code with `st`
and `CHECK_LEN` does not object, the decoded bytes stand at `DST_ADDR`, every other byte is as before, and `OUT_LEN`,
`LZW_NEXT`, `LZW_WIDTH` and `DONE` are set; when `CHECK_LEN` objects the command fails with `E_LEN`; when the decoder ends
with an error the command fails with it; after a failure only bytes of `[DST_ADDR, DST_ADDR + DST_CAP)` may differ. -/
def Obligations.LzwDecWritesTheDecodedBytes : Prop :=
  ∀ s : State, ChecksPass .lzwDec s → s.mem.wf →
    let dst := s.regs.dstAddr.toNat
    let cap := s.regs.dstCap.toNat
    let input := (List.range s.regs.srcLen.toNat).map fun j => s.mem.read (s.regs.srcAddr.toNat + j)
    (∀ st, Lzw.decodeState s.regs.lzwOptions cap input = .ok st →
      ((s.regs.checkLen = true → st.out.length = cap) →
        ∃ t, exec .lzwDec s = .next t ∧ (∀ j < st.out.length, t.mem.read (dst + j) = st.out.getD j 0) ∧
          SameOutside s t dst st.out.length ∧
          CompletedWith s t { s.regs with
            outLen := BitVec.ofNat 32 st.out.length
            lzwNext := BitVec.ofNat 17 st.table.next
            lzwWidth := BitVec.ofNat 5 st.table.width
            status := statusAfterOk s.regs.status false false }) ∧
      (s.regs.checkLen = true → st.out.length ≠ cap →
        ∃ t, exec .lzwDec s = .next t ∧ SameOutside s t dst cap ∧
          CompletedWith s t (regsAfterError .lzwDec .len s.regs))) ∧
    (∀ e, Lzw.decodeState s.regs.lzwOptions cap input = .error e →
      ∃ t, exec .lzwDec s = .next t ∧ SameOutside s t dst cap ∧
        CompletedWith s t (regsAfterError .lzwDec e s.regs))

/-- 41_lzw.md R164, R165: what taking a code point does.  A full table is left alone; otherwise the code point is taken
and the width grows by one exactly when the new next code point equals `2^width` below the limit in dynamic mode; when
that fills the table and `FLUSH` is on, the table is the initial one. -/
def Obligations.ReserveTakesOneCodePoint : Prop :=
  ∀ (cfg : Lzw.Options) (e : Option (List Byte)) (t : Lzw.Table),
    (t.next = 2 ^ cfg.maxWidth → t.reserve cfg e = (t, false)) ∧
    (t.next ≠ 2 ^ cfg.maxWidth → t.next + 1 = 2 ^ cfg.maxWidth → cfg.flush = true →
      t.reserve cfg e = (⟨[], 257, if cfg.dynamic then 9 else cfg.maxWidth⟩, true)) ∧
    (t.next ≠ 2 ^ cfg.maxWidth → (t.next + 1 ≠ 2 ^ cfg.maxWidth ∨ cfg.flush = false) →
      t.reserve cfg e =
        (⟨match e with
            | some w => (t.next, w) :: t.entries
            | none => t.entries,
          t.next + 1,
          if cfg.dynamic = true ∧ t.width < cfg.maxWidth ∧ t.next + 1 = 2 ^ t.width then t.width + 1 else t.width⟩,
        false))

/-- 41_lzw.md R169, R170: what the encoder does, after any input.  Its current match is a sequence of the dictionary that
ends the input.  On the next byte it extends the match if the extended sequence has a code point from 257 on; otherwise it
emits the match at the current width, reserves a code point for the extended sequence, and restarts from the byte.  At the
end it emits the match, reserves a code point without a sequence, and emits 256 at the width that results; an empty input
gives 256 alone. -/
def Obligations.EncoderFollowsTheGreedyRule : Prop :=
  ∀ (cfg : Lzw.Options) (input : List Byte), cfg.Ok →
    let st := input.foldl (Lzw.EncState.feed cfg) (Lzw.EncState.init cfg)
    let width := st.table.width
    Lzw.encodeState cfg input = st.finish cfg ∧
    Lzw.encodeBytes cfg input = Lzw.packCodes (st.finish cfg).emitted.reverse ∧
    (input = [] → st = ⟨⟨[], 257, if cfg.dynamic then 9 else cfg.maxWidth⟩, none, []⟩ ∧
      (st.finish cfg).table = st.table ∧ (st.finish cfg).emitted = [(256, width)] ∧
      ∀ b, st.feed cfg b = { st with cur := some b.toNat }) ∧
    (input ≠ [] → ∃ cur w, st.cur = some cur ∧ st.table.lookup cur = some w ∧ w ≠ [] ∧ w <:+ input ∧
      (∀ b,
        (∀ k, 257 ≤ k → k < st.table.next → st.table.lookup k = some (w ++ [b]) →
          st.feed cfg b = { st with cur := some k }) ∧
        ((∀ k, 257 ≤ k → k < st.table.next → st.table.lookup k ≠ some (w ++ [b])) →
          st.feed cfg b =
            ⟨(st.table.reserve cfg (some (w ++ [b]))).1, some b.toNat, (cur, width) :: st.emitted⟩)) ∧
      let last := (st.table.reserve cfg none).1
      (st.finish cfg).table = last ∧ (st.finish cfg).emitted = (256, last.width) :: (cur, width) :: st.emitted)

/-- 41_lzw.md R178, R161, for the encoder after any input: `257 <= S.next <= 2^MAX_WIDTH`, `S.next <= 2^S.width`,
`9 <= S.width <= MAX_WIDTH` with equality in fixed mode; every code emitted fits the width it is emitted at, a width in
that range; the assigned code points lie in `257 .. S.next - 1`, and no two entries share a code point or a sequence. -/
def Obligations.EncoderTableInvariant : Prop :=
  ∀ (cfg : Lzw.Options) (input : List Byte), cfg.Ok →
    let st := Lzw.encodeState cfg input
    257 ≤ st.table.next ∧ st.table.next ≤ 2 ^ cfg.maxWidth ∧ st.table.next ≤ 2 ^ st.table.width ∧
    9 ≤ st.table.width ∧ st.table.width ≤ cfg.maxWidth ∧ (cfg.dynamic = false → st.table.width = cfg.maxWidth) ∧
    (∀ cw ∈ st.emitted, cw.1 < 2 ^ cw.2 ∧ 9 ≤ cw.2 ∧ cw.2 ≤ cfg.maxWidth) ∧
    (∀ e ∈ st.table.entries, 257 ≤ e.1 ∧ e.1 < st.table.next ∧ 2 ≤ e.2.length) ∧
    (st.table.entries.map (·.1)).Nodup ∧ (st.table.entries.map (·.2)).Nodup

/-- 41_lzw.md R168, R173, R174, R175: one turn of the decoder.  With fewer than `S.width` bits left it ends with
`E_TRUNC`; otherwise the code is the number those bits give, least significant first, and 256 ends the stream, a code at
least `S.next` ends with `E_BAD_CODE`, and decoded bytes beyond `DST_CAP` end with `E_DST_OVF`, tested in that order.  The
sequence of the pending code point is the previous one and its first byte, of any other code the dictionary's; a code that
goes on completes the pending entry with the previous sequence and the first byte of the new one, appends the new one, and
reserves a code point unless the table is full. -/
def Obligations.DecoderErrorsInOrder : Prop :=
  ∀ (cfg : Lzw.Options) (cap : Nat) (st : Lzw.DecState),
    (st.bits.length < st.table.width → st.turn cfg cap = .error .trunc) ∧
    (st.table.width ≤ st.bits.length →
      let c := ((List.range st.table.width).map fun j => (st.bits.getD j false).toNat * 2 ^ j).sum
      let bits := st.bits.drop st.table.width
      (c = 256 → st.turn cfg cap = .stop { st with bits := bits }) ∧
      (c ≠ 256 → st.table.next ≤ c → st.turn cfg cap = .error .badCode) ∧
      (c ≠ 256 → c < st.table.next →
        (∀ p, st.pending = true → c + 1 = st.table.next → st.prev = some p →
          st.sequenceOf c = some (p ++ p.take 1)) ∧
        (¬(st.pending = true ∧ c + 1 = st.table.next) → st.sequenceOf c = st.table.lookup c) ∧
        (c < 256 → st.table.lookup c = some [BitVec.ofNat 8 c]) ∧
        ∀ seq, st.sequenceOf c = some seq →
          (cap < st.out.length + seq.length → st.turn cfg cap = .error .dstOvf) ∧
          (st.out.length + seq.length ≤ cap →
            let table : Lzw.Table := match st.pending, st.prev with
              | true, some p => { st.table with entries := (st.table.next - 1, p ++ seq.take 1) :: st.table.entries }
              | _, _ => st.table
            let r := table.reserve cfg none
            st.turn cfg cap = .more (
              if st.table.next = 2 ^ cfg.maxWidth then ⟨table, bits, st.out ++ seq, some seq, false⟩
              else if r.2 = true then ⟨r.1, bits, st.out ++ seq, none, false⟩
              else ⟨r.1, bits, st.out ++ seq, some seq, true⟩))))

/-- 41_lzw.md R175 ('a corrupt code never causes a read outside S.dict'), R178: in every state the decoder reaches on any
stream, each code below `S.next` other than 256 has a sequence, the decoded bytes are within `DST_CAP`, and
`257 <= S.next <= 2^MAX_WIDTH`, `S.next <= 2^S.width`. -/
def Obligations.DecoderNeverReadsOutsideDictionary : Prop :=
  ∀ (cfg : Lzw.Options) (cap : Nat) (bits : List Bool) (st : Lzw.DecState), cfg.Ok →
    Lzw.DecReached cfg cap bits st →
    (∀ c < st.table.next, c ≠ 256 → ∃ seq, st.sequenceOf c = some seq ∧ seq ≠ []) ∧ st.out.length ≤ cap ∧
    257 ≤ st.table.next ∧ st.table.next ≤ 2 ^ cfg.maxWidth ∧ st.table.next ≤ 2 ^ st.table.width ∧
    9 ≤ st.table.width ∧ st.table.width ≤ cfg.maxWidth

/-- 41_lzw.md R173's loop: the decoder's answer is that of the first turn that does not go on, from the state in which no
code point past 256 is assigned and the bits are those of the input, bit `i` being bit `i mod 8` of byte `i div 8` (R168).
The model's step bound (log 11) is never what ends it: a larger one gives the same answer. -/
def Obligations.DecoderBoundIsNeverReached : Prop :=
  ∀ (cfg : Lzw.Options) (cap extra : Nat) (input : List Byte), cfg.Ok →
    let bits := Lzw.bytesToBits input
    Lzw.decodeLoop cfg cap (8 * input.length + 1 + extra) (Lzw.DecState.init cfg bits) =
      Lzw.decodeState cfg cap input ∧
    (∀ st, Lzw.decodeState cfg cap input = .ok st ↔
      ∃ st0, Lzw.DecReached cfg cap bits st0 ∧ st0.turn cfg cap = .stop st) ∧
    (∀ e, Lzw.decodeState cfg cap input = .error e ↔
      ∃ st0, Lzw.DecReached cfg cap bits st0 ∧ st0.turn cfg cap = .error e) ∧
    Lzw.DecState.init cfg bits = ⟨⟨[], 257, if cfg.dynamic then 9 else cfg.maxWidth⟩, bits, [], none, false⟩ ∧
    bits.length = 8 * input.length ∧
    ∀ i < 8 * input.length, bits.getD i false = (input.getD (i / 8) 0).getLsbD (i % 8)

/-- 30_encoding.md R110, 41_lzw.md R166, R167: stream bit `i` is bit `i mod 8` of byte `i div 8`, code after code, least
significant bit first; the bits that fill the last byte are 0, and the length is the number of code bits over 8, rounded
up. -/
def Obligations.CodeStreamBitOrder : Prop :=
  ∀ codes : List (Nat × Nat),
    let bits := (codes.map fun cw => (List.range cw.2).map cw.1.testBit).flatten
    (Lzw.packCodes codes).length = (bits.length + 7) / 8 ∧
    ∀ i < 8 * (Lzw.packCodes codes).length, ((Lzw.packCodes codes).getD (i / 8) 0).getLsbD (i % 8) = bits.getD i false

/-- 41_lzw.md R179, R180: decoding the code stream of any input, with the same options and room for it, gives back the
input, with the same final `S.next` and `S.width`. -/
def Obligations.LzwRoundTrip : Prop :=
  ∀ (cfg : Lzw.Options) (cap : Nat) (input : List Byte), cfg.Ok → input.length ≤ cap →
    ∃ st, Lzw.decodeState cfg cap (Lzw.encodeBytes cfg input) = .ok st ∧ st.out = input ∧
      st.table.next = (Lzw.encodeState cfg input).table.next ∧
      st.table.width = (Lzw.encodeState cfg input).table.width

/-! ## Lifting transform -/

/-- 42_lifting.md R211, R212, with a transform (`KIND` 1, 2 or 3) and the checks passed: element `i` of the vector view
(at `SRC_ADDR + i*SRC_STRIDE`, R78) becomes element `i` of the forward or inverse 1D transform of the vector, every byte outside the elements is as before,
`OUT_LEN = N`, and `ARITH_OVF` is set if a wrap occurred. -/
def Obligations.Wt1TransformsTheVector : Prop :=
  ∀ (s : State) (T : Lifting), s.mem.wf →
    ((s.regs.kind = 1 ∧ T = haarInt) ∨ (s.regs.kind = 2 ∧ T = bior22Int) ∨
      (s.regs.kind = 3 ∧ T = s.regs.customLifting)) →
    ∀ (i : Instr) (f : List Int → List Int × Bool),
      ((i = .wt1Fwd ∧ f = T.forward) ∨ (i = .wt1Inv ∧ f = T.inverse)) → ChecksPass i s →
      let elem := fun k : Nat => s.regs.srcAddr.toNat + k * s.regs.srcStride.toNat
      let y := f ((List.range s.regs.width).map fun k => s.mem.readCoef (elem k))
      ∃ t, exec i s = .next t ∧
        (∀ k < s.regs.width, t.mem.readCoef (elem k) = y.1.getD k 0) ∧
        (∀ a, (∀ k < s.regs.width, ¬(elem k ≤ a ∧ a < elem k + 4)) →
          t.mem.read a = s.mem.read a) ∧
        CompletedWith s t { s.regs with
          outLen := BitVec.ofNat 32 s.regs.width
          status := statusAfterOk s.regs.status y.2 false }

/-- 42_lifting.md R222, R223, with a transform (`KIND` 1, 2 or 3) and the checks passed: element `(r, c)` of the view
becomes that of the recursive 2D transform or its inverse, every byte outside the elements is as before,
`OUT_LEN = W*H`, `LEVELS = L`, and `ARITH_OVF` is set if a wrap occurred. -/
def Obligations.Wt2TransformsTheView : Prop :=
  ∀ (s : State) (T : Lifting), s.mem.wf →
    ((s.regs.kind = 1 ∧ T = haarInt) ∨ (s.regs.kind = 2 ∧ T = bior22Int) ∨
      (s.regs.kind = 3 ∧ T = s.regs.customLifting)) →
    ∀ (i : Instr) (f : List (Nat × Nat) → Grid → Grid × Bool),
      ((i = .wt2Fwd ∧ f = forward2d T) ∨ (i = .wt2Inv ∧ f = inverse2d T)) → ChecksPass i s →
      let elem := fun r c : Nat => s.regs.srcAddr.toNat + r * s.regs.srcStride.toNat + 4 * c
      let ls := levelSizes s.regs.iter s.regs.width s.regs.height
      let grid := (List.range s.regs.height).map fun r =>
        (List.range s.regs.width).map fun c => s.mem.readCoef (elem r c)
      let y := f ls grid
      ∃ t, exec i s = .next t ∧
        (∀ r < s.regs.height, ∀ c < s.regs.width, t.mem.readCoef (elem r c) = elemAt y.1 r c) ∧
        (∀ a, (∀ r < s.regs.height, ∀ c < s.regs.width, ¬(elem r c ≤ a ∧ a < elem r c + 4)) →
          t.mem.read a = s.mem.read a) ∧
        CompletedWith s t { s.regs with
          outLen := BitVec.ofNat 32 (s.regs.width * s.regs.height)
          levels := BitVec.ofNat 5 ls.length
          status := statusAfterOk s.regs.status y.2 false }

/-- 42_lifting.md R225: with `KIND = NONE` and the checks passed, the transform commands leave memory unchanged and
complete as the other kinds do, `WT2_*` with `LEVELS = 0`. -/
def Obligations.KindNoneChangesNoMemory : Prop :=
  ∀ s : State, s.regs.kind = 0 →
    (∀ i, (i = .wt1Fwd ∨ i = .wt1Inv) → ChecksPass i s → ∃ t, exec i s = .next t ∧ t.mem = s.mem ∧
      CompletedWith s t { s.regs with
        outLen := BitVec.ofNat 32 s.regs.width
        status := statusAfterOk s.regs.status false false }) ∧
    (∀ i, (i = .wt2Fwd ∨ i = .wt2Inv) → ChecksPass i s → ∃ t, exec i s = .next t ∧ t.mem = s.mem ∧
      CompletedWith s t { s.regs with
        outLen := BitVec.ofNat 32 (s.regs.width * s.regs.height)
        levels := 0
        status := statusAfterOk s.regs.status false false })

/-- 42_lifting.md R203, R205 to R207: the steps run in order forward and in reverse order back, the wrap flags collected;
forward the even samples are the approximation and the odd ones the detail, and after the steps the bands are multiplied by
`KA` and `KD`, wrapped, approximation first; back the bands are first divided by `KA` and `KD`, truncating toward zero, and
at the end interleaved by parity; a sequence of fewer than two samples is unchanged.  A custom transform has the
descriptors `STEP0 .. STEP(NSTEPS-1)` as its steps, in that order, and the scales of `WT_SCALE`. -/
def Obligations.TransformRunsStepsInOrderAndScales : Prop :=
  (∀ (sign : Int) (b : Bands) (st : LiftStep) (steps : List LiftStep),
    let one := b.lift sign st
    let rest := Bands.liftAll sign steps one.1
    Bands.liftAll sign [] b = (b, false) ∧ Bands.liftAll sign (st :: steps) b = (rest.1, one.2 || rest.2)) ∧
  (∀ (T : Lifting) (x : List Int),
    let na := (x.length + 1) / 2
    let nd := x.length / 2
    let evenOdd : Bands :=
      ⟨(List.range na).map fun i => x.getD (2 * i) 0, (List.range nd).map fun i => x.getD (2 * i + 1) 0⟩
    let lifted := Bands.liftAll 1 T.steps evenOdd
    let a := fun i => lifted.1.approx.getD i 0 * T.ka
    let d := fun i => lifted.1.detail.getD i 0 * T.kd
    let divided : Bands :=
      ⟨(List.range na).map fun i => Int.tdiv (x.getD i 0) T.ka,
        (List.range nd).map fun i => Int.tdiv (x.getD (na + i) 0) T.kd⟩
    let back := Bands.liftAll (-1) T.steps.reverse divided
    (x.length < 2 → T.forward x = (x, false) ∧ T.inverse x = (x, false)) ∧
    (2 ≤ x.length →
      (T.forward x).1.length = x.length ∧
      (∀ i < na, (T.forward x).1.getD i 0 = wrap32 (a i)) ∧ (∀ i < nd, (T.forward x).1.getD (na + i) 0 = wrap32 (d i)) ∧
      ((T.forward x).2 = true ↔ lifted.2 = true ∨ (∃ i < na, ¬Coef32 (a i)) ∨ ∃ i < nd, ¬Coef32 (d i)) ∧
      (T.inverse x).1.length = x.length ∧
      (∀ i < na, (T.inverse x).1.getD (2 * i) 0 = back.1.approx.getD i 0) ∧
      (∀ i < nd, (T.inverse x).1.getD (2 * i + 1) 0 = back.1.detail.getD i 0) ∧ (T.inverse x).2 = back.2)) ∧
  ∀ r : Regs, r.nsteps ≤ 8 →
    r.customLifting.ka = bitsOf r.wtScale 15 0 ∧ r.customLifting.kd = bitsOf r.wtScale 31 16 ∧
    r.customLifting.steps.length = bitsOf r.wtCfg 19 16 ∧
    ∀ k : Fin 8, k.val < r.nsteps → r.customLifting.steps[k.val]? = some (decodeStep r.stepCtrl[k] r.stepCoef[k])

/-- 42_lifting.md R205, R206: one lifting step, forward (`sign = 1`) or inverse (`sign = -1`).  A predict step changes the
detail band only, by its value on the approximation samples `i, i-1, .., i-P+1` (modulo the band's length); an update step
changes the approximation band only, by its value on the detail samples `i, i+1, .., i+P-1`; and the flag is set exactly
when a step value or a result wrapped. -/
def Obligations.LiftingStepActsOnOneBand : Prop :=
  ∀ (st : LiftStep) (b : Bands) (sign : Int), sign = 1 ∨ sign = -1 →
    let na := b.approx.length
    let nd := b.detail.length
    let P := st.taps.length
    let y := b.lift sign st
    let p := fun i : Nat => st.value ((List.range P).map fun j => b.approx.getD (((i : Int) - j) % na).toNat 0)
    let u := fun i : Nat => st.value ((List.range P).map fun j => b.detail.getD ((i + j) % nd) 0)
    (st.tag = .predict → y.1.approx = b.approx ∧ y.1.detail.length = nd ∧
      (∀ i < nd, y.1.detail.getD i 0 = wrap32 (b.detail.getD i 0 - sign * (p i).1)) ∧
      (y.2 = true ↔ ∃ i < nd, (p i).2 = true ∨ ¬Coef32 (b.detail.getD i 0 - sign * (p i).1))) ∧
    (st.tag = .update → y.1.detail = b.detail ∧ y.1.approx.length = na ∧
      (∀ i < na, y.1.approx.getD i 0 = wrap32 (b.approx.getD i 0 + sign * (u i).1)) ∧
      (y.2 = true ↔ ∃ i < na, (u i).2 = true ∨ ¬Coef32 (b.approx.getD i 0 + sign * (u i).1)))

/-- 42_lifting.md R208 in R205's order and placement: `HAAR_INT` of a sequence of 32-bit values. -/
def Obligations.HaarForwardFormula : Prop :=
  ∀ x : List Int, 2 ≤ x.length → (∀ v ∈ x, Coef32 v) →
    let y := (haarInt.forward x).1
    let na := (x.length + 1) / 2
    let nd := x.length / 2
    y.length = x.length ∧
    (∀ i < nd, y.getD (na + i) 0 = wrap32 (x.getD (2 * i + 1) 0 - x.getD (2 * i) 0)) ∧
    (∀ i < na, y.getD i 0 = wrap32 (x.getD (2 * i) 0 + y.getD (na + i % nd) 0 / 2))

/-- 42_lifting.md R209 in R205's order and placement, with the source's tap windows (90_conflicts.md C6): `BIOR22_INT` of
a sequence of 32-bit values. -/
def Obligations.Bior22ForwardFormula : Prop :=
  ∀ x : List Int, 2 ≤ x.length → (∀ v ∈ x, Coef32 v) →
    let y := (bior22Int.forward x).1
    let na := (x.length + 1) / 2
    let nd := x.length / 2
    y.length = x.length ∧
    (∀ i < nd, y.getD (na + i) 0 =
      wrap32 (x.getD (2 * i + 1) 0 - (x.getD (2 * i) 0 + x.getD (2 * ((i + na - 1) % na)) 0) / 2)) ∧
    (∀ i < na, y.getD i 0 =
      wrap32 (x.getD (2 * i) 0 + (y.getD (na + i % nd) 0 + y.getD (na + (i + 1) % nd) 0 + 2) / 4))

/-- 42_lifting.md R213: the inverse 1D transform undoes the forward one for every step list and every sequence of 32-bit
values, steps that wrapped included, if no scale multiplication wrapped; with `KA = KD = 1` for every such sequence. -/
def Obligations.OneDimensionalRoundTrip : Prop :=
  ∀ (T : Lifting) (x : List Int), 1 ≤ T.ka → 1 ≤ T.kd → (∀ v ∈ x, Coef32 v) →
    ((∀ v ∈ (Bands.liftAll 1 T.steps ⟨evens x, odds x⟩).1.approx, Coef32 (v * T.ka)) →
      (∀ v ∈ (Bands.liftAll 1 T.steps ⟨evens x, odds x⟩).1.detail, Coef32 (v * T.kd)) →
      (T.inverse (T.forward x).1).1 = x) ∧
    (T.ka = 1 → T.kd = 1 → (T.inverse (T.forward x).1).1 = x)

/-- 42_lifting.md R224: with `KA = KD = 1` (every preset; also with `KIND = NONE`), `WT2_INV` after `WT2_FWD` with the
same registers restores every byte of memory, wraps or not. -/
def Obligations.TwoDimensionalRoundTrip : Prop :=
  ∀ s : State, s.mem.wf → ChecksPass .wt2Fwd s → (s.regs.kind = 3 → s.regs.ka = 1 ∧ s.regs.kd = 1) →
    ∃ t u, exec .wt2Fwd s = .next t ∧ exec .wt2Inv t = .next u ∧ u.regs.status.done = true ∧ u.mem = s.mem

/-- 42_lifting.md R222, R223: the levels of the recursive transform.  Forward a level transforms every column of its block
if it has more than one row, then every row if it has more than one column, and the deeper levels follow; back the deeper
levels come first, then the rows of the block, then its columns; the flags are collected. -/
def Obligations.LevelsRunColumnsThenRows : Prop :=
  ∀ (T : Lifting) (w h : Nat) (ls : List (Nat × Nat)) (g : Grid),
    (forward2d T [] g = (g, false) ∧ inverse2d T [] g = (g, false)) ∧
    (let cols := if 1 < h then transformCols T.forward w h g else (g, false)
      let rows := if 1 < w then transformRows T.forward w h cols.1 else (cols.1, false)
      let deeper := forward2d T ls rows.1
      forward2d T ((w, h) :: ls) g = (deeper.1, cols.2 || rows.2 || deeper.2)) ∧
    (let deeper := inverse2d T ls g
      let rows := if 1 < w then transformRows T.inverse w h deeper.1 else (deeper.1, false)
      let cols := if 1 < h then transformCols T.inverse w h rows.1 else (rows.1, false)
      inverse2d T ((w, h) :: ls) g = (cols.1, deeper.2 || rows.2 || cols.2))

/-- 42_lifting.md R222, R223: one pass over the columns, or over the rows, of the top-left `w x h` block of a grid
replaces each of them by its transform and leaves the rest of the grid alone. -/
def Obligations.PassActsOnEachColumnAndRow : Prop :=
  ∀ (f : List Int → List Int × Bool) (W H w h : Nat) (g : Grid), IsGrid W H g → w ≤ W → h ≤ H →
    (∀ x, (f x).1.length = x.length) →
    let cols := transformCols f w h g
    let rows := transformRows f w h g
    let column := fun c => (List.range h).map fun r => elemAt g r c
    let row := fun r => (List.range w).map fun c => elemAt g r c
    IsGrid W H cols.1 ∧ IsGrid W H rows.1 ∧
    (∀ r < H, ∀ c < W, elemAt cols.1 r c = if r < h ∧ c < w then (f (column c)).1.getD r 0 else elemAt g r c) ∧
    (∀ r < H, ∀ c < W, elemAt rows.1 r c = if r < h ∧ c < w then (f (row r)).1.getD c 0 else elemAt g r c) ∧
    (cols.2 = true ↔ ∃ c < w, (f (column c)).2 = true) ∧ (rows.2 = true ↔ ∃ r < h, (f (row r)).2 = true)

/-- 42_lifting.md R220: level `l + 1` is level `l` halved and rounded up, the sequence stops when both sizes are 1 or the
budget is spent, and there are at most `min(ITER, 17)` levels of a view within `GEOM_MAX`. -/
def Obligations.LevelsHalveRoundingUp : Prop :=
  ∀ iter w h : Nat, 1 ≤ w → w ≤ 65535 → 1 ≤ h → h ≤ 65535 →
    let ls := levelSizes iter w h
    let up := fun n l => (n + 2 ^ l - 1) / 2 ^ l
    ls.length ≤ min iter 17 ∧
    (∀ l < ls.length, ls.getD l (0, 0) = (up w l, up h l) ∧ ls.getD l (0, 0) ≠ (1, 1)) ∧
    finalBlock iter w h = (up w ls.length, up h ls.length) ∧
    (ls.length < iter → finalBlock iter w h = (1, 1))

/-- 30_encoding.md R113, R114, the band regions of 42_lifting.md R221 written out: band order is, level by level, the
diagonal, the horizontal and the vertical band row by row, then the final approximation row by row; it lists every
position of the view exactly once; raster order is row by row. -/
def Obligations.OrdersListEveryPositionOnce : Prop :=
  ∀ iter w h : Nat, 1 ≤ w → 1 ≤ h →
    let rowMajor := fun r0 r1 c0 c1 : Nat =>
      (List.range ((r1 - r0) * (c1 - c0))).map fun k => (r0 + k / (c1 - c0), c0 + k % (c1 - c0))
    let aw := (w + 1) / 2
    let ah := (h + 1) / 2
    (bandPositions 0 w h = rowMajor 0 h 0 w) ∧
    (w = 1 → h = 1 → bandPositions iter w h = rowMajor 0 h 0 w) ∧
    ((w ≠ 1 ∨ h ≠ 1) → bandPositions (iter + 1) w h =
      rowMajor ah h aw w ++ rowMajor ah h 0 aw ++ rowMajor 0 ah aw w ++ bandPositions iter aw ah) ∧
    (bandPositions iter w h).Nodup ∧ (bandPositions iter w h).length = w * h ∧
    (∀ r c, (r, c) ∈ bandPositions iter w h ↔ r < h ∧ c < w) ∧
    rasterPositions w h = rowMajor 0 h 0 w

/-- 30_encoding.md R109: the control word `{r[15:0], 0000, s[3:0], 0000, P[2:0], tag}` and the coefficient word
`{C3, C2, C1, C0}` decode to these fields; the step they make has the first `P` of the four weights. -/
def Obligations.StepDescriptorDecodes : Prop :=
  ∀ (r : Int) (s P tag : Nat) (c : Nat → Int), -(2 ^ 15) ≤ r → r < 2 ^ 15 → s < 16 → P ≤ 4 → tag < 2 →
    (∀ j, -128 ≤ c j ∧ c j < 128) →
    let ctrl : Word := BitVec.ofInt 32 (r * 2 ^ 16 + s * 2 ^ 8 + P * 2 + tag)
    let coef : Word := BitVec.ofInt 32 ((c 3 % 256) * 2 ^ 24 + (c 2 % 256) * 2 ^ 16 + (c 1 % 256) * 2 ^ 8 + c 0 % 256)
    decodeStep ctrl coef = ⟨if tag = 0 then .predict else .update, (List.range P).map c, r, s⟩ ∧
      ∀ j < 4, stepCoefAt coef j = c j

/-- 42_lifting.md R204: the value of a step is the 32-bit wrap of `floor((r + sum c_j*t_j) / 2^s)`, flagged exactly when
the wrap changes it (R210); with descriptor fields in range and 32-bit taps the sum is at most `4 * 128 * 2^31 + 2^15` in
magnitude. -/
def Obligations.StepValueIsTheFloor : Prop :=
  ∀ (st : LiftStep) (ts : List Int), ts.length = st.taps.length →
    let sum := st.round + ((List.range st.taps.length).map fun j => st.taps.getD j 0 * ts.getD j 0).sum
    ∃ (q : Int) (ovf : Bool), q * 2 ^ st.shift ≤ sum ∧ sum < (q + 1) * 2 ^ st.shift ∧ st.value ts = (wrap32 q, ovf) ∧
      (ovf = true ↔ ¬Coef32 q) ∧ wrap32 q = (BitVec.ofInt 32 q).toInt ∧
      (st.taps.length ≤ 4 → (∀ c ∈ st.taps, -128 ≤ c ∧ c < 128) → (∀ t ∈ ts, Coef32 t) →
        -(2 ^ 15) ≤ st.round → st.round < 2 ^ 15 → |sum| ≤ 4 * 128 * 2 ^ 31 + 2 ^ 15)

/-! ## Quantizer -/

/-- 43_quant.md R240: `f_1` is `Q_FACTOR` clamped to `2 .. 65535`; `f_(l+1)` is `ceil(f_l / alpha) - beta` clamped, where
the ceiling is the least integer `q` with `q * Q_ALPHA >= f_l * 256`. -/
def Obligations.FactorsFollowTheRecurrence : Prop :=
  ∀ (r : Regs) (n : Nat), r.alphaRaw ≠ 0 →
    let fs := r.factors n
    fs.length = n ∧
    (0 < n → (fs.getD 0 0 : Int) = min 65535 (max 2 (r.factor0 : Int))) ∧
    (∀ l, l + 1 < n → ∃ q : Int, (fs.getD l 0 : Int) * 256 ≤ q * r.alphaRaw ∧
      (q - 1) * r.alphaRaw < (fs.getD l 0 : Int) * 256 ∧
      (fs.getD (l + 1) 0 : Int) = min 65535 (max 2 (q - r.beta))) ∧
    (∀ f ∈ fs, 2 ≤ f ∧ f ≤ 65535)

/-- 43_quant.md R242, with the checks passed: `Q_FWD` divides the diagonal band of level `l` by `2 f_l` and its
horizontal and vertical bands by `f_l`, truncating toward zero, and subtracts 128 from the final approximation; every byte
outside the elements is as before; `OUT_LEN = W*H`, `LEVELS = L`, and `ARITH_OVF` is set exactly if a subtraction
wrapped. -/
def Obligations.QFwdDividesTheBands : Prop :=
  ∀ s : State, s.mem.wf → ChecksPass .qFwd s →
    let elem := fun r c : Nat => s.regs.srcAddr.toNat + r * s.regs.srcStride.toNat + 4 * c
    let ls := levelSizes s.regs.iter s.regs.width s.regs.height
    let fs := s.regs.factors ls.length
    let fin := finalBlock s.regs.iter s.regs.width s.regs.height
    let x := fun r c => s.mem.readCoef (elem r c)
    ∃ t ovf, exec .qFwd s = .next t ∧
      (∀ l < ls.length, ∀ r c,
        let w := (ls.getD l (0, 0)).1
        let h := (ls.getD l (0, 0)).2
        ((h + 1) / 2 ≤ r → r < h → (w + 1) / 2 ≤ c → c < w →
          t.mem.readCoef (elem r c) = Int.tdiv (x r c) (2 * fs.getD l 0)) ∧
        ((h + 1) / 2 ≤ r → r < h → c < (w + 1) / 2 →
          t.mem.readCoef (elem r c) = Int.tdiv (x r c) (fs.getD l 0)) ∧
        (r < (h + 1) / 2 → (w + 1) / 2 ≤ c → c < w →
          t.mem.readCoef (elem r c) = Int.tdiv (x r c) (fs.getD l 0))) ∧
      (∀ r c, r < fin.2 → c < fin.1 → t.mem.readCoef (elem r c) = wrap32 (x r c - 128)) ∧
      (∀ a, (∀ r < s.regs.height, ∀ c < s.regs.width, ¬(elem r c ≤ a ∧ a < elem r c + 4)) →
        t.mem.read a = s.mem.read a) ∧
      (ovf = true ↔ ∃ r c, r < fin.2 ∧ c < fin.1 ∧ ¬Coef32 (x r c - 128)) ∧
      CompletedWith s t { s.regs with
        outLen := BitVec.ofNat 32 (s.regs.width * s.regs.height)
        levels := BitVec.ofNat 5 ls.length
        status := statusAfterOk s.regs.status ovf false }

/-- 43_quant.md R243, with the checks passed: `Q_INV` multiplies the diagonal band of level `l` by `2 f_l`, its
horizontal and vertical bands by `f_l`, and adds 128 to the final approximation, each wrapped; every byte outside the
elements is as before; `OUT_LEN = W*H`, `LEVELS = L`, and `ARITH_OVF` is set exactly if a product or the bias addition
wrapped. -/
def Obligations.QInvMultipliesTheBands : Prop :=
  ∀ s : State, s.mem.wf → ChecksPass .qInv s →
    let elem := fun r c : Nat => s.regs.srcAddr.toNat + r * s.regs.srcStride.toNat + 4 * c
    let ls := levelSizes s.regs.iter s.regs.width s.regs.height
    let fs := s.regs.factors ls.length
    let fin := finalBlock s.regs.iter s.regs.width s.regs.height
    let x := fun r c => s.mem.readCoef (elem r c)
    let diagonal := fun l r c => (((ls.getD l (0, 0)).2 + 1) / 2 ≤ r ∧ r < (ls.getD l (0, 0)).2) ∧
      (((ls.getD l (0, 0)).1 + 1) / 2 ≤ c ∧ c < (ls.getD l (0, 0)).1)
    let side := fun l r c =>
      (((ls.getD l (0, 0)).2 + 1) / 2 ≤ r ∧ r < (ls.getD l (0, 0)).2 ∧ c < ((ls.getD l (0, 0)).1 + 1) / 2) ∨
      (r < ((ls.getD l (0, 0)).2 + 1) / 2 ∧ ((ls.getD l (0, 0)).1 + 1) / 2 ≤ c ∧ c < (ls.getD l (0, 0)).1)
    ∃ t ovf, exec .qInv s = .next t ∧
      (∀ l < ls.length, ∀ r c,
        (diagonal l r c → t.mem.readCoef (elem r c) = wrap32 (x r c * 2 * fs.getD l 0)) ∧
        (side l r c → t.mem.readCoef (elem r c) = wrap32 (x r c * fs.getD l 0))) ∧
      (∀ r c, r < fin.2 → c < fin.1 → t.mem.readCoef (elem r c) = wrap32 (x r c + 128)) ∧
      (∀ a, (∀ r < s.regs.height, ∀ c < s.regs.width, ¬(elem r c ≤ a ∧ a < elem r c + 4)) →
        t.mem.read a = s.mem.read a) ∧
      (ovf = true ↔ (∃ r c, r < fin.2 ∧ c < fin.1 ∧ ¬Coef32 (x r c + 128)) ∨
        ∃ l < ls.length, ∃ r c, (diagonal l r c ∧ ¬Coef32 (x r c * 2 * fs.getD l 0)) ∨
          (side l r c ∧ ¬Coef32 (x r c * fs.getD l 0))) ∧
      CompletedWith s t { s.regs with
        outLen := BitVec.ofNat 32 (s.regs.width * s.regs.height)
        levels := BitVec.ofNat 5 ls.length
        status := statusAfterOk s.regs.status ovf false }

/-- 43_quant.md R244: `Q_INV` after `Q_FWD` with the same registers restores the final approximation, and every detail
coefficient up to less than its divisor, never away from zero, exactly when it is a multiple of the divisor. -/
def Obligations.QuantizerRoundTripBound : Prop :=
  ∀ s : State, s.mem.wf → ChecksPass .qFwd s →
    let elem := fun r c : Nat => s.regs.srcAddr.toNat + r * s.regs.srcStride.toNat + 4 * c
    let ls := levelSizes s.regs.iter s.regs.width s.regs.height
    let fs := s.regs.factors ls.length
    let fin := finalBlock s.regs.iter s.regs.width s.regs.height
    ∃ t u, exec .qFwd s = .next t ∧ exec .qInv t = .next u ∧
      (∀ r c, r < fin.2 → c < fin.1 → u.mem.readCoef (elem r c) = s.mem.readCoef (elem r c)) ∧
      (∀ l < ls.length, ∀ r c, r < (ls.getD l (0, 0)).2 → c < (ls.getD l (0, 0)).1 →
        let x := s.mem.readCoef (elem r c)
        let y := u.mem.readCoef (elem r c)
        ∀ d : Int,
          ((((ls.getD l (0, 0)).2 + 1) / 2 ≤ r ∧ ((ls.getD l (0, 0)).1 + 1) / 2 ≤ c ∧ d = 2 * fs.getD l 0) ∨
            (((ls.getD l (0, 0)).2 + 1) / 2 ≤ r ∧ c < ((ls.getD l (0, 0)).1 + 1) / 2 ∧ d = fs.getD l 0) ∨
            (r < ((ls.getD l (0, 0)).2 + 1) / 2 ∧ ((ls.getD l (0, 0)).1 + 1) / 2 ≤ c ∧ d = fs.getD l 0)) →
          |x - y| < d ∧ |y| ≤ |x| ∧ (y = x ↔ d ∣ x))

/-! ## Packing -/

/-- 44_pack.md R261 to R265, with the checks passed: index `k` of the byte side holds the narrowed element at `pos_k`:
the low 8 bits, or the value saturated to `-128 .. 127` or to `0 .. 255`; every other byte is as before;
`OUT_LEN = W*H`, `LEVELS = L` in band order only, and `NARROW_OVF` is set if an element lay outside the range of the
mode. -/
def Obligations.PackNarrowsEveryElement : Prop :=
  ∀ (s : State) (o : Order) (i : Instr) (value : Int → Int) (lo hi : Int), s.mem.wf →
    ((i = .packWrap o ∧ value = id ∧ lo = -128 ∧ hi = 255) ∨
      (i = .packSats o ∧ value = (fun v => min 127 (max (-128) v)) ∧ lo = -128 ∧ hi = 127) ∨
      (i = .packSatu o ∧ value = (fun v => min 255 (max 0 v)) ∧ lo = 0 ∧ hi = 255)) → ChecksPass i s →
    let n := s.regs.width * s.regs.height
    let order := match o with
      | .raster => rasterPositions s.regs.width s.regs.height
      | .band => bandPositions s.regs.iter s.regs.width s.regs.height
    let pos := fun k => order.getD k (0, 0)
    let x := fun k => s.mem.readCoef (s.regs.srcAddr.toNat + (pos k).1 * s.regs.srcStride.toNat + 4 * (pos k).2)
    let addr := fun k => match o with
      | .raster => s.regs.dstAddr.toNat + (pos k).1 * s.regs.dstStride.toNat + (pos k).2
      | .band => s.regs.dstAddr.toNat + k
    ∃ t ovf, exec i s = .next t ∧
      (∀ k < n, (t.mem.read (addr k)).toNat = value (x k) % 256) ∧
      (∀ a, (∀ k < n, a ≠ addr k) → t.mem.read a = s.mem.read a) ∧
      (ovf = true ↔ ∃ k < n, x k < lo ∨ hi < x k) ∧
      CompletedWith s t { s.regs with
        outLen := BitVec.ofNat 32 n
        levels := match o with
          | .raster => s.regs.levels
          | .band => BitVec.ofNat 5 (levelSizes s.regs.iter s.regs.width s.regs.height).length
        status := statusAfterOk s.regs.status false ovf }

/-- 44_pack.md R261, R262, R266, R267, with the checks passed: the word-view element at `pos_k` holds the byte of index
`k`, zero-extended or sign-extended; every byte outside the elements is as before; `OUT_LEN = W*H`, `LEVELS = L` in band
order only, and no flag is set. -/
def Obligations.UnpackWidensEveryByte : Prop :=
  ∀ (s : State) (o : Order) (i : Instr) (value : Byte → Int), s.mem.wf →
    ((i = .unpackU o ∧ value = fun b => (b.toNat : Int)) ∨ (i = .unpackS o ∧ value = fun b => b.toInt)) →
    ChecksPass i s →
    let n := s.regs.width * s.regs.height
    let order := match o with
      | .raster => rasterPositions s.regs.width s.regs.height
      | .band => bandPositions s.regs.iter s.regs.width s.regs.height
    let pos := fun k => order.getD k (0, 0)
    let elem := fun k => s.regs.dstAddr.toNat + (pos k).1 * s.regs.dstStride.toNat + 4 * (pos k).2
    let addr := fun k => match o with
      | .raster => s.regs.srcAddr.toNat + (pos k).1 * s.regs.srcStride.toNat + (pos k).2
      | .band => s.regs.srcAddr.toNat + k
    ∃ t, exec i s = .next t ∧
      (∀ k < n, t.mem.readCoef (elem k) = value (s.mem.read (addr k))) ∧
      (∀ a, (∀ k < n, ¬(elem k ≤ a ∧ a < elem k + 4)) → t.mem.read a = s.mem.read a) ∧
      CompletedWith s t { s.regs with
        outLen := BitVec.ofNat 32 n
        levels := match o with
          | .raster => s.regs.levels
          | .band => BitVec.ofNat 5 (levelSizes s.regs.iter s.regs.width s.regs.height).length
        status := statusAfterOk s.regs.status false false }

/-- 44_pack.md R268: a `PACK` followed by an `UNPACK` of its bytes, with equal `W`, `H`, `ORDER` and `ITER`, restores
every element of the range both fit: `-128 .. 127` with `UNPACK.S` after `PACK.SATS` or `PACK.WRAP`, `0 .. 255` with
`UNPACK.U` after `PACK.SATU` or `PACK.WRAP`. -/
def Obligations.PackUnpackRoundTrip : Prop :=
  ∀ (s : State) (o : Order) (dst stride : Word) (p u : Instr) (lo hi : Int), s.mem.wf →
    (((p = .packSats o ∨ p = .packWrap o) ∧ u = .unpackS o ∧ lo = -128 ∧ hi = 127) ∨
      ((p = .packSatu o ∨ p = .packWrap o) ∧ u = .unpackU o ∧ lo = 0 ∧ hi = 255)) →
    ChecksPass p s →
    ∃ t, exec p s = .next t ∧
      let t' := { t with regs := { t.regs with
        srcAddr := t.regs.dstAddr, srcStride := t.regs.dstStride, dstAddr := dst, dstStride := stride } }
      (ChecksPass u t' → ∃ w, exec u t' = .next w ∧
        ∀ r < s.regs.height, ∀ c < s.regs.width,
          let x := s.mem.readCoef (s.regs.srcAddr.toNat + r * s.regs.srcStride.toNat + 4 * c)
          lo ≤ x → x ≤ hi → w.mem.readCoef (dst.toNat + r * stride.toNat + 4 * c) = x)
end

