-- ==== Sys2Proof/Laws/Memory.lean ====
section
/-! SUPPORT. What the memory operations do: reads after writes, and that every operation keeps the canonical form. -/

namespace Sys2Proof.Machine.Memory

@[simp] theorem read_nil (x : Nat) : read [] x = unwritten := rfl

theorem read_cons (a : Nat) (b : Byte) (m : Memory) (x : Nat) :
    read ((a, b) :: m) x = if x = a then b else read m x := rfl

/-- An address below every listed one reads as unwritten. -/
theorem read_of_below {m : Memory} {x : Nat} (h : ∀ c ∈ m, x < c.1) : read m x = unwritten := by
  induction m with
  | nil => rfl
  | cons c m ih =>
    obtain ⟨a, b⟩ := c
    have hx : x < a := h (a, b) (List.mem_cons_self ..)
    rw [read_cons, if_neg (by omega)]
    exact ih fun c hc => h c (List.mem_cons_of_mem _ hc)

theorem wf_tail {c : Host.Cell} {m : Memory} (h : wf (c :: m)) : wf m :=
  ⟨(List.pairwise_cons.1 h.1).2, fun d hd => h.2 d (List.mem_cons_of_mem _ hd)⟩

theorem below_of_wf {c : Host.Cell} {m : Memory} (h : wf (c :: m)) : ∀ d ∈ m, c.1 < d.1 :=
  (List.pairwise_cons.1 h.1).1

theorem read_consByte_same {m : Memory} {x : Nat} (v : Byte) (h : ∀ c ∈ m, x < c.1) : read (consByte x v m) x = v := by
  unfold consByte
  split
  · next hv => rw [read_of_below h, hv]
  · simp [read_cons]

theorem read_consByte_other (m : Memory) (x : Nat) (v : Byte) {y : Nat} (h : y ≠ x) :
    read (consByte x v m) y = read m y := by
  unfold consByte
  split <;> simp [read_cons, h]

/-- Reading the byte just written gives it. -/
theorem read_write_same {m : Memory} (h : wf m) (x : Nat) (v : Byte) : read (write m x v) x = v := by
  induction m with
  | nil => exact read_consByte_same v (by simp)
  | cons c m ih =>
    obtain ⟨a, b⟩ := c
    unfold write
    have hb := below_of_wf h
    split
    · next hx =>
      refine read_consByte_same v fun d hd => ?_
      rcases List.mem_cons.1 hd with rfl | hd
      · exact hx
      · exact lt_trans hx (hb d hd)
    · split
      · next hx => exact read_consByte_same v fun d hd => by subst hx; exact hb d hd
      · next hx => rw [read_cons, if_neg hx, ih (wf_tail h)]

/-- A write leaves every other byte alone. -/
theorem read_write_other (m : Memory) {x y : Nat} (v : Byte) (h : y ≠ x) : read (write m x v) y = read m y := by
  induction m with
  | nil => exact read_consByte_other _ _ _ h
  | cons c m ih =>
    obtain ⟨a, b⟩ := c
    unfold write
    split
    · exact read_consByte_other _ _ _ h
    · split
      · next hx => rw [read_consByte_other _ _ _ h, read_cons, if_neg (by omega)]
      · rw [read_cons, read_cons, ih]

/-- The addresses a write can list are those listed before and its own. -/
theorem mem_write {m : Memory} {x : Nat} {v : Byte} {c : Host.Cell} (h : c ∈ write m x v) : c ∈ m ∨ c = (x, v) := by
  have hcons : ∀ {m' : Memory}, c ∈ consByte x v m' → c ∈ m' ∨ c = (x, v) := by
    intro m' hc
    unfold consByte at hc
    split at hc
    · exact .inl hc
    · exact (List.mem_cons.1 hc).symm
  induction m with
  | nil => exact hcons h
  | cons d m ih =>
    obtain ⟨a, b⟩ := d
    unfold write at h
    split at h
    · exact hcons h
    · split at h
      · exact (hcons h).imp_left (List.mem_cons_of_mem _)
      · rcases List.mem_cons.1 h with rfl | h
        · exact .inl (List.mem_cons_self ..)
        · exact (ih h).imp_left (List.mem_cons_of_mem _)

theorem wf_consByte {m : Memory} {x : Nat} {v : Byte} (h : wf m) (hx : ∀ c ∈ m, x < c.1) : wf (consByte x v m) := by
  unfold consByte
  split
  · exact h
  · next hv => exact ⟨List.pairwise_cons.2 ⟨hx, h.1⟩, List.forall_mem_cons.2 ⟨hv, h.2⟩⟩

/-- A write keeps the canonical form. -/
theorem wf_write {m : Memory} (h : wf m) (x : Nat) (v : Byte) : wf (write m x v) := by
  induction m with
  | nil => exact wf_consByte h (by simp)
  | cons c m ih =>
    obtain ⟨a, b⟩ := c
    have hb := below_of_wf h
    unfold write
    split
    · next hx =>
      refine wf_consByte h fun d hd => ?_
      rcases List.mem_cons.1 hd with rfl | hd
      · exact hx
      · exact lt_trans hx (hb d hd)
    · split
      · next hx => exact wf_consByte (wf_tail h) fun d hd => by subst hx; exact hb d hd
      · next h1 h2 =>
        refine ⟨List.pairwise_cons.2 ⟨fun d hd => ?_, (ih (wf_tail h)).1⟩,
          List.forall_mem_cons.2 ⟨h.2 _ (List.mem_cons_self ..), (ih (wf_tail h)).2⟩⟩
        rcases mem_write hd with hd | rfl
        · exact hb d hd
        · show a < x
          omega

/-- Writing bytes one after another keeps the canonical form. -/
theorem wf_writeAll {m : Memory} (h : wf m) (cells : List Host.Cell) : wf (writeAll m cells) := by
  induction cells generalizing m with
  | nil => exact h
  | cons c cells ih => exact ih (wf_write h c.1 c.2)

/-- A byte that is not among those written reads as before. -/
theorem read_writeAll_other (m : Memory) (cells : List Host.Cell) {y : Nat} (h : ∀ c ∈ cells, c.1 ≠ y) :
    read (writeAll m cells) y = read m y := by
  induction cells generalizing m with
  | nil => rfl
  | cons c cells ih =>
    rw [List.forall_mem_cons] at h
    show read (writeAll (write m c.1 c.2) cells) y = _
    rw [ih _ h.2, read_write_other _ _ (Ne.symm h.1)]

/-- A byte among those written, at most once, reads as written. -/
theorem read_writeAll_mem {m : Memory} (hm : wf m) {cells : List Host.Cell} (hn : (cells.map (·.1)).Nodup)
    {c : Host.Cell} (h : c ∈ cells) : read (writeAll m cells) c.1 = c.2 := by
  induction cells generalizing m with
  | nil => cases h
  | cons d cells ih =>
    rw [List.map_cons, List.nodup_cons] at hn
    show read (writeAll (write m d.1 d.2) cells) c.1 = _
    rcases List.mem_cons.1 h with rfl | h
    · rw [read_writeAll_other, read_write_same hm]
      intro e he heq
      exact hn.1 (List.mem_map.2 ⟨e, he, heq⟩)
    · exact ih (wf_write hm d.1 d.2) hn.2 h

/-- A bound on listed addresses is kept by writes within it. -/
theorem bound_writeAll {m : Memory} {n : Nat} (hm : ∀ c ∈ m, c.1 < n) (cells : List Host.Cell)
    (hc : ∀ c ∈ cells, c.1 < n) : ∀ c ∈ writeAll m cells, c.1 < n := by
  induction cells generalizing m with
  | nil => exact hm
  | cons d cells ih =>
    rw [List.forall_mem_cons] at hc
    refine ih (m := write m d.1 d.2) (fun c hcm => ?_) hc.2
    rcases mem_write hcm with hcm | rfl
    · exact hm c hcm
    · exact hc.1

/-- Canonical memories that read alike are equal. -/
theorem eq_of_read_eq {m n : Memory} (hm : wf m) (hn : wf n) (h : ∀ x, read m x = read n x) : m = n := by
  induction m generalizing n with
  | nil =>
    cases n with
    | nil => rfl
    | cons d n =>
      have := h d.1
      rw [read_nil, read_cons, if_pos rfl] at this
      exact absurd this.symm (hn.2 d (List.mem_cons_self ..))
  | cons c m ih =>
    obtain ⟨a, b⟩ := c
    have hb : b ≠ unwritten := hm.2 _ (List.mem_cons_self ..)
    cases n with
    | nil =>
      have := h a
      rw [read_cons, if_pos rfl, read_nil] at this
      exact absurd this hb
    | cons d n =>
      obtain ⟨a', b'⟩ := d
      have hb' : b' ≠ unwritten := hn.2 _ (List.mem_cons_self ..)
      have key : ∀ {p q : Nat} {u v : Byte} {k l : Memory}, wf ((q, v) :: l) → u ≠ unwritten →
          read ((p, u) :: k) p = read ((q, v) :: l) p → ¬p < q := by
        intro p q u v k l hw hu he hlt
        rw [read_cons, if_pos rfl, read_cons, if_neg (by omega),
          read_of_below (fun c hc => lt_trans hlt (below_of_wf hw c hc))] at he
        exact hu he
      have haa : a = a' := by
        have h1 := key hn hb (h a)
        have h2 := key hm hb' (h a').symm
        omega
      subst haa
      have hbb : b = b' := by
        have := h a
        rwa [read_cons, if_pos rfl, read_cons, if_pos rfl] at this
      subst hbb
      congr 1
      refine ih (wf_tail hm) (wf_tail hn) fun x => ?_
      by_cases hx : x = a
      · subst hx
        rw [read_of_below (fun c hc => below_of_wf hm c hc), read_of_below (fun c hc => below_of_wf hn c hc)]
      · have := h x
        rwa [read_cons, if_neg hx, read_cons, if_neg hx] at this

end Sys2Proof.Machine.Memory
end

