-- ==== Sys2Proof/Laws/State.lean ====
section
/-! SUPPORT. One lemma per field for every named update of the state and its parts, so that no proof unfolds a record
update. -/

namespace Sys2Proof.Machine

/-! ## STATUS -/

@[simp] theorem Status.accept_busy (s : Status) :
    (s.accept).busy = true := rfl

@[simp] theorem Status.accept_done (s : Status) :
    (s.accept).done = false := rfl

@[simp] theorem Status.accept_err (s : Status) :
    (s.accept).err = false := rfl

@[simp] theorem Status.accept_arithOvf (s : Status) :
    (s.accept).arithOvf = s.arithOvf := rfl

@[simp] theorem Status.accept_narrowOvf (s : Status) :
    (s.accept).narrowOvf = s.narrowOvf := rfl

@[simp] theorem Status.accept_overrun (s : Status) :
    (s.accept).overrun = s.overrun := rfl

@[simp] theorem Status.accept_errCode (s : Status) :
    (s.accept).errCode = 0 := rfl

@[simp] theorem Status.succeed_busy (s : Status) (arith narrow : Bool) :
    (s.succeed arith narrow).busy = false := rfl

@[simp] theorem Status.succeed_done (s : Status) (arith narrow : Bool) :
    (s.succeed arith narrow).done = true := rfl

@[simp] theorem Status.succeed_err (s : Status) (arith narrow : Bool) :
    (s.succeed arith narrow).err = s.err := rfl

@[simp] theorem Status.succeed_arithOvf (s : Status) (arith narrow : Bool) :
    (s.succeed arith narrow).arithOvf = (s.arithOvf || arith) := rfl

@[simp] theorem Status.succeed_narrowOvf (s : Status) (arith narrow : Bool) :
    (s.succeed arith narrow).narrowOvf = (s.narrowOvf || narrow) := rfl

@[simp] theorem Status.succeed_overrun (s : Status) (arith narrow : Bool) :
    (s.succeed arith narrow).overrun = s.overrun := rfl

@[simp] theorem Status.succeed_errCode (s : Status) (arith narrow : Bool) :
    (s.succeed arith narrow).errCode = 0 := rfl

@[simp] theorem Status.fail_busy (s : Status) (code : BitVec 8) :
    (s.fail code).busy = false := rfl

@[simp] theorem Status.fail_done (s : Status) (code : BitVec 8) :
    (s.fail code).done = s.done := rfl

@[simp] theorem Status.fail_err (s : Status) (code : BitVec 8) :
    (s.fail code).err = true := rfl

@[simp] theorem Status.fail_arithOvf (s : Status) (code : BitVec 8) :
    (s.fail code).arithOvf = s.arithOvf := rfl

@[simp] theorem Status.fail_narrowOvf (s : Status) (code : BitVec 8) :
    (s.fail code).narrowOvf = s.narrowOvf := rfl

@[simp] theorem Status.fail_overrun (s : Status) (code : BitVec 8) :
    (s.fail code).overrun = s.overrun := rfl

@[simp] theorem Status.fail_errCode (s : Status) (code : BitVec 8) :
    (s.fail code).errCode = code := rfl

@[simp] theorem Status.setOverrun_busy (s : Status) :
    (s.setOverrun).busy = s.busy := rfl

@[simp] theorem Status.setOverrun_done (s : Status) :
    (s.setOverrun).done = s.done := rfl

@[simp] theorem Status.setOverrun_err (s : Status) :
    (s.setOverrun).err = s.err := rfl

@[simp] theorem Status.setOverrun_arithOvf (s : Status) :
    (s.setOverrun).arithOvf = s.arithOvf := rfl

@[simp] theorem Status.setOverrun_narrowOvf (s : Status) :
    (s.setOverrun).narrowOvf = s.narrowOvf := rfl

@[simp] theorem Status.setOverrun_overrun (s : Status) :
    (s.setOverrun).overrun = true := rfl

@[simp] theorem Status.setOverrun_errCode (s : Status) :
    (s.setOverrun).errCode = s.errCode := rfl

@[simp] theorem Status.writeClear_busy (s : Status) (v : Word) :
    (s.writeClear v).busy = s.busy := rfl

@[simp] theorem Status.writeClear_done (s : Status) (v : Word) :
    (s.writeClear v).done = (s.done && !v.getLsbD 1) := rfl

@[simp] theorem Status.writeClear_err (s : Status) (v : Word) :
    (s.writeClear v).err = (s.err && !v.getLsbD 2) := rfl

@[simp] theorem Status.writeClear_arithOvf (s : Status) (v : Word) :
    (s.writeClear v).arithOvf = (s.arithOvf && !v.getLsbD 3) := rfl

@[simp] theorem Status.writeClear_narrowOvf (s : Status) (v : Word) :
    (s.writeClear v).narrowOvf = (s.narrowOvf && !v.getLsbD 4) := rfl

@[simp] theorem Status.writeClear_overrun (s : Status) (v : Word) :
    (s.writeClear v).overrun = (s.overrun && !v.getLsbD 5) := rfl

@[simp] theorem Status.writeClear_errCode (s : Status) (v : Word) :
    (s.writeClear v).errCode = s.errCode := rfl

/-! ## The registers -/

@[simp] theorem Regs.succeed_status (r : Regs) (o : Outs) :
    (r.succeed o).status = r.status.succeed o.arithOvf o.narrowOvf := rfl

@[simp] theorem Regs.succeed_doneIe (r : Regs) (o : Outs) :
    (r.succeed o).doneIe = r.doneIe := rfl

@[simp] theorem Regs.succeed_errIe (r : Regs) (o : Outs) :
    (r.succeed o).errIe = r.errIe := rfl

@[simp] theorem Regs.succeed_cmd (r : Regs) (o : Outs) :
    (r.succeed o).cmd = r.cmd := rfl

@[simp] theorem Regs.succeed_srcAddr (r : Regs) (o : Outs) :
    (r.succeed o).srcAddr = r.srcAddr := rfl

@[simp] theorem Regs.succeed_srcLen (r : Regs) (o : Outs) :
    (r.succeed o).srcLen = r.srcLen := rfl

@[simp] theorem Regs.succeed_srcStride (r : Regs) (o : Outs) :
    (r.succeed o).srcStride = r.srcStride := rfl

@[simp] theorem Regs.succeed_dstAddr (r : Regs) (o : Outs) :
    (r.succeed o).dstAddr = r.dstAddr := rfl

@[simp] theorem Regs.succeed_dstCap (r : Regs) (o : Outs) :
    (r.succeed o).dstCap = r.dstCap := rfl

@[simp] theorem Regs.succeed_dstStride (r : Regs) (o : Outs) :
    (r.succeed o).dstStride = r.dstStride := rfl

@[simp] theorem Regs.succeed_geom (r : Regs) (o : Outs) :
    (r.succeed o).geom = r.geom := rfl

@[simp] theorem Regs.succeed_outLen (r : Regs) (o : Outs) :
    (r.succeed o).outLen = BitVec.ofNat 32 o.outLen := rfl

@[simp] theorem Regs.succeed_lzwCfg (r : Regs) (o : Outs) :
    (r.succeed o).lzwCfg = r.lzwCfg := rfl

@[simp] theorem Regs.succeed_lzwNext (r : Regs) (o : Outs) :
    (r.succeed o).lzwNext = (match o.lzw with | some (next, _) => BitVec.ofNat 17 next | none => r.lzwNext) := rfl

@[simp] theorem Regs.succeed_lzwWidth (r : Regs) (o : Outs) :
    (r.succeed o).lzwWidth = (match o.lzw with | some (_, width) => BitVec.ofNat 5 width | none => r.lzwWidth) := rfl

@[simp] theorem Regs.succeed_wtCfg (r : Regs) (o : Outs) :
    (r.succeed o).wtCfg = r.wtCfg := rfl

@[simp] theorem Regs.succeed_wtScale (r : Regs) (o : Outs) :
    (r.succeed o).wtScale = r.wtScale := rfl

@[simp] theorem Regs.succeed_qFactor (r : Regs) (o : Outs) :
    (r.succeed o).qFactor = r.qFactor := rfl

@[simp] theorem Regs.succeed_qAlpha (r : Regs) (o : Outs) :
    (r.succeed o).qAlpha = r.qAlpha := rfl

@[simp] theorem Regs.succeed_qBeta (r : Regs) (o : Outs) :
    (r.succeed o).qBeta = r.qBeta := rfl

@[simp] theorem Regs.succeed_levels (r : Regs) (o : Outs) :
    (r.succeed o).levels = (match o.levels with | some l => BitVec.ofNat 5 l | none => r.levels) := rfl

@[simp] theorem Regs.succeed_stepCtrl (r : Regs) (o : Outs) :
    (r.succeed o).stepCtrl = r.stepCtrl := rfl

@[simp] theorem Regs.succeed_stepCoef (r : Regs) (o : Outs) :
    (r.succeed o).stepCoef = r.stepCoef := rfl

@[simp] theorem Regs.fail_status (r : Regs) (e : ErrCode) (o : FailOuts) :
    (r.fail e o).status = r.status.fail e.code := rfl

@[simp] theorem Regs.fail_doneIe (r : Regs) (e : ErrCode) (o : FailOuts) :
    (r.fail e o).doneIe = r.doneIe := rfl

@[simp] theorem Regs.fail_errIe (r : Regs) (e : ErrCode) (o : FailOuts) :
    (r.fail e o).errIe = r.errIe := rfl

@[simp] theorem Regs.fail_cmd (r : Regs) (e : ErrCode) (o : FailOuts) :
    (r.fail e o).cmd = r.cmd := rfl

@[simp] theorem Regs.fail_srcAddr (r : Regs) (e : ErrCode) (o : FailOuts) :
    (r.fail e o).srcAddr = r.srcAddr := rfl

@[simp] theorem Regs.fail_srcLen (r : Regs) (e : ErrCode) (o : FailOuts) :
    (r.fail e o).srcLen = r.srcLen := rfl

@[simp] theorem Regs.fail_srcStride (r : Regs) (e : ErrCode) (o : FailOuts) :
    (r.fail e o).srcStride = r.srcStride := rfl

@[simp] theorem Regs.fail_dstAddr (r : Regs) (e : ErrCode) (o : FailOuts) :
    (r.fail e o).dstAddr = r.dstAddr := rfl

@[simp] theorem Regs.fail_dstCap (r : Regs) (e : ErrCode) (o : FailOuts) :
    (r.fail e o).dstCap = r.dstCap := rfl

@[simp] theorem Regs.fail_dstStride (r : Regs) (e : ErrCode) (o : FailOuts) :
    (r.fail e o).dstStride = r.dstStride := rfl

@[simp] theorem Regs.fail_geom (r : Regs) (e : ErrCode) (o : FailOuts) :
    (r.fail e o).geom = r.geom := rfl

@[simp] theorem Regs.fail_outLen (r : Regs) (e : ErrCode) (o : FailOuts) :
    (r.fail e o).outLen = 0 := rfl

@[simp] theorem Regs.fail_lzwCfg (r : Regs) (e : ErrCode) (o : FailOuts) :
    (r.fail e o).lzwCfg = r.lzwCfg := rfl

@[simp] theorem Regs.fail_lzwNext (r : Regs) (e : ErrCode) (o : FailOuts) :
    (r.fail e o).lzwNext = (if o.clearsLzw then 0 else r.lzwNext) := rfl

@[simp] theorem Regs.fail_lzwWidth (r : Regs) (e : ErrCode) (o : FailOuts) :
    (r.fail e o).lzwWidth = (if o.clearsLzw then 0 else r.lzwWidth) := rfl

@[simp] theorem Regs.fail_wtCfg (r : Regs) (e : ErrCode) (o : FailOuts) :
    (r.fail e o).wtCfg = r.wtCfg := rfl

@[simp] theorem Regs.fail_wtScale (r : Regs) (e : ErrCode) (o : FailOuts) :
    (r.fail e o).wtScale = r.wtScale := rfl

@[simp] theorem Regs.fail_qFactor (r : Regs) (e : ErrCode) (o : FailOuts) :
    (r.fail e o).qFactor = r.qFactor := rfl

@[simp] theorem Regs.fail_qAlpha (r : Regs) (e : ErrCode) (o : FailOuts) :
    (r.fail e o).qAlpha = r.qAlpha := rfl

@[simp] theorem Regs.fail_qBeta (r : Regs) (e : ErrCode) (o : FailOuts) :
    (r.fail e o).qBeta = r.qBeta := rfl

@[simp] theorem Regs.fail_levels (r : Regs) (e : ErrCode) (o : FailOuts) :
    (r.fail e o).levels = (if o.clearsLevels then 0 else r.levels) := rfl

@[simp] theorem Regs.fail_stepCtrl (r : Regs) (e : ErrCode) (o : FailOuts) :
    (r.fail e o).stepCtrl = r.stepCtrl := rfl

@[simp] theorem Regs.fail_stepCoef (r : Regs) (e : ErrCode) (o : FailOuts) :
    (r.fail e o).stepCoef = r.stepCoef := rfl

/-! ## The state -/

@[simp] theorem State.drawLatency_regs (s : State) :
    (s.drawLatency).regs = s.regs := by
  unfold State.drawLatency; split <;> rfl

@[simp] theorem State.drawLatency_run (s : State) :
    (s.drawLatency).run = s.run := by
  unfold State.drawLatency; split <;> rfl

@[simp] theorem State.drawLatency_result (s : State) :
    (s.drawLatency).result = s.result := by
  unfold State.drawLatency; split <;> rfl

@[simp] theorem State.drawLatency_raced (s : State) :
    (s.drawLatency).raced = s.raced := by
  unfold State.drawLatency; split <;> rfl

@[simp] theorem State.drawLatency_mem (s : State) :
    (s.drawLatency).mem = s.mem := by
  unfold State.drawLatency; split <;> rfl

@[simp] theorem State.drawLatency_memSize (s : State) :
    (s.drawLatency).memSize = s.memSize := by
  unfold State.drawLatency; split <;> rfl

@[simp] theorem State.drawLatency_mmioBase (s : State) :
    (s.drawLatency).mmioBase = s.mmioBase := by
  unfold State.drawLatency; split <;> rfl

@[simp] theorem State.drawLatency_hostQ (s : State) :
    (s.drawLatency).hostQ = s.hostQ := by
  unfold State.drawLatency; split <;> rfl

@[simp] theorem State.drawLatency_hostData (s : State) :
    (s.drawLatency).hostData = s.hostData := by
  unfold State.drawLatency; split <;> rfl

@[simp] theorem State.accept_regs (s : State) (w : Word) :
    (s.accept w).regs = { s.regs with cmd := w, status := s.regs.status.accept, outLen := 0 } := by
  simp [State.accept]

@[simp] theorem State.accept_run (s : State) (w : Word) :
    (s.accept w).run = some w := rfl

@[simp] theorem State.accept_result (s : State) (w : Word) :
    (s.accept w).result = s.result := by
  simp [State.accept]

@[simp] theorem State.accept_latencyLeft (s : State) (w : Word) :
    (s.accept w).latencyLeft = s.drawLatency.latencyLeft := rfl

@[simp] theorem State.accept_raced (s : State) (w : Word) :
    (s.accept w).raced = false := rfl

@[simp] theorem State.accept_mem (s : State) (w : Word) :
    (s.accept w).mem = s.mem := by
  simp [State.accept]

@[simp] theorem State.accept_memSize (s : State) (w : Word) :
    (s.accept w).memSize = s.memSize := by
  simp [State.accept]

@[simp] theorem State.accept_mmioBase (s : State) (w : Word) :
    (s.accept w).mmioBase = s.mmioBase := by
  simp [State.accept]

@[simp] theorem State.accept_latencies (s : State) (w : Word) :
    (s.accept w).latencies = s.drawLatency.latencies := rfl

@[simp] theorem State.accept_draws (s : State) (w : Word) :
    (s.accept w).draws = s.drawLatency.draws := rfl

@[simp] theorem State.accept_hostQ (s : State) (w : Word) :
    (s.accept w).hostQ = s.hostQ := by
  simp [State.accept]

@[simp] theorem State.accept_hostData (s : State) (w : Word) :
    (s.accept w).hostData = s.hostData := by
  simp [State.accept]

@[simp] theorem State.scramble_regs (s : State) (v : Interval) :
    (s.scramble v).regs = s.regs := by
  unfold State.scramble; split <;> rfl

@[simp] theorem State.scramble_run (s : State) (v : Interval) :
    (s.scramble v).run = s.run := by
  unfold State.scramble; split <;> rfl

@[simp] theorem State.scramble_result (s : State) (v : Interval) :
    (s.scramble v).result = s.result := by
  unfold State.scramble; split <;> rfl

@[simp] theorem State.scramble_latencyLeft (s : State) (v : Interval) :
    (s.scramble v).latencyLeft = s.latencyLeft := by
  unfold State.scramble; split <;> rfl

@[simp] theorem State.scramble_raced (s : State) (v : Interval) :
    (s.scramble v).raced = s.raced := by
  unfold State.scramble; split <;> rfl

@[simp] theorem State.scramble_memSize (s : State) (v : Interval) :
    (s.scramble v).memSize = s.memSize := by
  unfold State.scramble; split <;> rfl

@[simp] theorem State.scramble_mmioBase (s : State) (v : Interval) :
    (s.scramble v).mmioBase = s.mmioBase := by
  unfold State.scramble; split <;> rfl

@[simp] theorem State.scramble_latencies (s : State) (v : Interval) :
    (s.scramble v).latencies = s.latencies := by
  unfold State.scramble; split <;> rfl

@[simp] theorem State.scramble_hostQ (s : State) (v : Interval) :
    (s.scramble v).hostQ = s.hostQ := by
  unfold State.scramble; split <;> rfl

@[simp] theorem State.scramble_hostData (s : State) (v : Interval) :
    (s.scramble v).hostData = s.hostData := by
  unfold State.scramble; split <;> rfl

@[simp] theorem State.complete_ok_regs (s : State) (ws : List Host.Cell) (o : Outs) :
    (s.complete (.ok ws o)).regs = s.regs.succeed o := rfl

@[simp] theorem State.complete_ok_run (s : State) (ws : List Host.Cell) (o : Outs) :
    (s.complete (.ok ws o)).run = none := rfl

@[simp] theorem State.complete_ok_result (s : State) (ws : List Host.Cell) (o : Outs) :
    (s.complete (.ok ws o)).result = .ok ws o := rfl

@[simp] theorem State.complete_ok_latencyLeft (s : State) (ws : List Host.Cell) (o : Outs) :
    (s.complete (.ok ws o)).latencyLeft = 0 := rfl

@[simp] theorem State.complete_ok_raced (s : State) (ws : List Host.Cell) (o : Outs) :
    (s.complete (.ok ws o)).raced = false := rfl

@[simp] theorem State.complete_ok_mem (s : State) (ws : List Host.Cell) (o : Outs) :
    (s.complete (.ok ws o)).mem = s.mem.writeAll ws := rfl

@[simp] theorem State.complete_ok_memSize (s : State) (ws : List Host.Cell) (o : Outs) :
    (s.complete (.ok ws o)).memSize = s.memSize := rfl

@[simp] theorem State.complete_ok_mmioBase (s : State) (ws : List Host.Cell) (o : Outs) :
    (s.complete (.ok ws o)).mmioBase = s.mmioBase := rfl

@[simp] theorem State.complete_ok_latencies (s : State) (ws : List Host.Cell) (o : Outs) :
    (s.complete (.ok ws o)).latencies = s.latencies := rfl

@[simp] theorem State.complete_ok_draws (s : State) (ws : List Host.Cell) (o : Outs) :
    (s.complete (.ok ws o)).draws = s.draws := rfl

@[simp] theorem State.complete_ok_hostQ (s : State) (ws : List Host.Cell) (o : Outs) :
    (s.complete (.ok ws o)).hostQ = s.hostQ := rfl

@[simp] theorem State.complete_ok_hostData (s : State) (ws : List Host.Cell) (o : Outs) :
    (s.complete (.ok ws o)).hostData = s.hostData := rfl

@[simp] theorem State.complete_fail_regs (s : State) (e : ErrCode) (o : FailOuts) :
    (s.complete (.fail e o)).regs = s.regs.fail e o := by
  simp [State.complete]

@[simp] theorem State.complete_fail_run (s : State) (e : ErrCode) (o : FailOuts) :
    (s.complete (.fail e o)).run = none := rfl

@[simp] theorem State.complete_fail_result (s : State) (e : ErrCode) (o : FailOuts) :
    (s.complete (.fail e o)).result = .fail e o := rfl

@[simp] theorem State.complete_fail_latencyLeft (s : State) (e : ErrCode) (o : FailOuts) :
    (s.complete (.fail e o)).latencyLeft = 0 := rfl

@[simp] theorem State.complete_fail_raced (s : State) (e : ErrCode) (o : FailOuts) :
    (s.complete (.fail e o)).raced = false := rfl

@[simp] theorem State.complete_fail_mem (s : State) (e : ErrCode) (o : FailOuts) :
    (s.complete (.fail e o)).mem = (s.scramble o.scratch).mem := rfl

@[simp] theorem State.complete_fail_memSize (s : State) (e : ErrCode) (o : FailOuts) :
    (s.complete (.fail e o)).memSize = s.memSize := by
  simp [State.complete]

@[simp] theorem State.complete_fail_mmioBase (s : State) (e : ErrCode) (o : FailOuts) :
    (s.complete (.fail e o)).mmioBase = s.mmioBase := by
  simp [State.complete]

@[simp] theorem State.complete_fail_latencies (s : State) (e : ErrCode) (o : FailOuts) :
    (s.complete (.fail e o)).latencies = s.latencies := by
  simp [State.complete]

@[simp] theorem State.complete_fail_draws (s : State) (e : ErrCode) (o : FailOuts) :
    (s.complete (.fail e o)).draws = (s.scramble o.scratch).draws := rfl

@[simp] theorem State.complete_fail_hostQ (s : State) (e : ErrCode) (o : FailOuts) :
    (s.complete (.fail e o)).hostQ = s.hostQ := by
  simp [State.complete]

@[simp] theorem State.complete_fail_hostData (s : State) (e : ErrCode) (o : FailOuts) :
    (s.complete (.fail e o)).hostData = s.hostData := by
  simp [State.complete]

@[simp] theorem State.resetEngine_regs (s : State) :
    (s.resetEngine).regs = Regs.reset := rfl

@[simp] theorem State.resetEngine_run (s : State) :
    (s.resetEngine).run = none := rfl

@[simp] theorem State.resetEngine_result (s : State) :
    (s.resetEngine).result = .ok [] {} := rfl

@[simp] theorem State.resetEngine_latencyLeft (s : State) :
    (s.resetEngine).latencyLeft = 0 := rfl

@[simp] theorem State.resetEngine_raced (s : State) :
    (s.resetEngine).raced = false := rfl

@[simp] theorem State.resetEngine_mem (s : State) :
    (s.resetEngine).mem = (s.scramble s.runningWrites).mem := rfl

@[simp] theorem State.resetEngine_memSize (s : State) :
    (s.resetEngine).memSize = s.memSize := by
  simp [State.resetEngine]

@[simp] theorem State.resetEngine_mmioBase (s : State) :
    (s.resetEngine).mmioBase = s.mmioBase := by
  simp [State.resetEngine]

@[simp] theorem State.resetEngine_latencies (s : State) :
    (s.resetEngine).latencies = s.latencies := by
  simp [State.resetEngine]

@[simp] theorem State.resetEngine_draws (s : State) :
    (s.resetEngine).draws = (s.scramble s.runningWrites).draws := rfl

@[simp] theorem State.resetEngine_hostQ (s : State) :
    (s.resetEngine).hostQ = s.hostQ := by
  simp [State.resetEngine]

@[simp] theorem State.resetEngine_hostData (s : State) :
    (s.resetEngine).hostData = s.hostData := by
  simp [State.resetEngine]

@[simp] theorem State.complete_run (s : State) (res : CmdResult) : (s.complete res).run = none := by
  cases res <;> rfl

@[simp] theorem State.complete_result (s : State) (res : CmdResult) : (s.complete res).result = res := by
  cases res <;> rfl

@[simp] theorem State.complete_memSize (s : State) (res : CmdResult) : (s.complete res).memSize = s.memSize := by
  cases res <;> simp

@[simp] theorem State.complete_mmioBase (s : State) (res : CmdResult) : (s.complete res).mmioBase = s.mmioBase := by
  cases res <;> simp

@[simp] theorem State.complete_hostQ (s : State) (res : CmdResult) : (s.complete res).hostQ = s.hostQ := by
  cases res <;> simp

/-- The latency of an accepted command is at least 1 (40_control.md R144). -/
theorem State.one_le_drawLatency (s : State) : 1 ≤ s.drawLatency.latencyLeft := by
  unfold State.drawLatency
  split
  · exact Nat.le_add_left 1 _
  · exact Nat.le_max_left 1 _

end Sys2Proof.Machine
end

