-- ==== Sys2Proof/Laws/Ops.lean ====
section
/-! SUPPORT. What the shared operations do: the checks, the cells commands write, the fill with free values, the
completions, and the arithmetic primitives. -/

namespace Sys2Proof.Machine

/-! ## Checks -/

theorem firstError_eq_none {checks : List (Bool × ErrCode)} :
    firstError checks = none ↔ ∀ c ∈ checks, c.1 = false := by
  induction checks with
  | nil => simp [firstError]
  | cons c checks ih =>
    obtain ⟨b, e⟩ := c
    cases b <;> simp [firstError, ih]

theorem firstError_mem {checks : List (Bool × ErrCode)} {e : ErrCode} (h : firstError checks = some e) :
    (true, e) ∈ checks := by
  induction checks with
  | nil => simp [firstError] at h
  | cons c checks ih =>
    obtain ⟨b, e'⟩ := c
    cases b
    · exact List.mem_cons_of_mem _ (ih (by simpa [firstError] using h))
    · have : e' = e := by simpa [firstError] using h
      subst this
      exact List.mem_cons_self ..

/-- A command whose checks pass is its execution phase. -/
theorem checked_of_pass {r : Regs} {i : Instr} {checks : List (Bool × ErrCode)} {run : CmdResult}
    (h : ∀ c ∈ checks, c.1 = false) : checked r i checks run = run := by
  simp [checked, firstError_eq_none.2 h]

/-- A command one of whose checks fails ends with that error. -/
theorem checked_of_fail {r : Regs} {i : Instr} {checks : List (Bool × ErrCode)} {run : CmdResult} {e : ErrCode}
    (h : firstError checks = some e) : checked r i checks run = failWith r i e := by
  simp [checked, h]

/-- Everything `checked` can answer. -/
theorem checked_cases (r : Regs) (i : Instr) (checks : List (Bool × ErrCode)) (run : CmdResult) :
    (∃ e, firstError checks = some e ∧ checked r i checks run = failWith r i e) ∨
      ((∀ c ∈ checks, c.1 = false) ∧ checked r i checks run = run) := by
  cases h : firstError checks with
  | some e => exact .inl ⟨e, rfl, checked_of_fail h⟩
  | none => exact .inr ⟨firstError_eq_none.1 h, checked_of_pass (firstError_eq_none.1 h)⟩

/-! ## Cells -/

/-- The cells of consecutive bytes. -/
theorem mem_cellsAt {addr : Nat} {bytes : List Byte} {c : Host.Cell} :
    c ∈ cellsAt addr bytes ↔ ∃ i, ∃ h : i < bytes.length, c = (addr + i, bytes[i]) := by
  simp only [cellsAt, List.mem_mapIdx, eq_comm (b := c)]

/-- Where the cells of consecutive bytes lie. -/
theorem addr_of_mem_cellsAt {addr : Nat} {bytes : List Byte} {c : Host.Cell} (h : c ∈ cellsAt addr bytes) :
    addr ≤ c.1 ∧ c.1 < addr + bytes.length := by
  obtain ⟨i, hi, rfl⟩ := mem_cellsAt.1 h
  exact ⟨Nat.le_add_right .., Nat.add_lt_add_left hi _⟩

/-- A coefficient occupies the four bytes from its address on. -/
theorem addr_of_mem_coefCells {addr : Nat} {v : Int} {c : Host.Cell} (h : c ∈ coefCells addr v) :
    addr ≤ c.1 ∧ c.1 < addr + 4 := addr_of_mem_cellsAt h

/-- The cells of consecutive bytes lie at distinct addresses. -/
theorem nodup_cellsAt (addr : Nat) (bytes : List Byte) : ((cellsAt addr bytes).map (·.1)).Nodup := by
  rw [List.nodup_iff_pairwise_ne, List.pairwise_iff_getElem]
  intro i j hi hj hij
  simp only [cellsAt, List.getElem_map, List.getElem_mapIdx, ne_eq]
  omega

/-- Everything a word view's cells are. -/
theorem mem_gridCells {v : View} {g : List (List Int)} {c : Host.Cell} :
    c ∈ v.gridCells g ↔ ∃ r < v.height, ∃ k < v.width, c ∈ coefCells (v.wordAddr r k) ((g.getD r []).getD k 0) := by
  simp only [View.gridCells, List.mem_flatten, List.mem_map, List.mem_range, exists_exists_and_eq_and]

/-- Everything a vector view's cells are. -/
theorem mem_vectorCells {r : Regs} {xs : List Int} {c : Host.Cell} :
    c ∈ r.vectorCells xs ↔ ∃ i < r.width, c ∈ coefCells (r.vectorAddr i) (xs.getD i 0) := by
  simp only [Regs.vectorCells, List.mem_flatten, List.mem_map, List.mem_range, exists_exists_and_eq_and]

/-! ## Free values -/

/-- The bytes a fill touches exist and lie in the interval. -/
theorem addr_of_mem_freeCells {d n : Nat} {v : Interval} {c : Host.Cell} (h : c ∈ freeCells d n v) :
    v.lo ≤ c.1 ∧ c.1 < v.hi ∧ c.1 < n := by
  simp only [freeCells, List.mem_map, List.mem_range] at h
  obtain ⟨i, hi, rfl⟩ := h
  show v.lo ≤ v.lo + i ∧ v.lo + i < v.hi ∧ v.lo + i < n
  omega

/-- A fill leaves the bytes outside its interval alone. -/
theorem State.scramble_read_outside (s : State) (v : Interval) {a : Nat} (h : ¬(v.lo ≤ a ∧ a < v.hi)) :
    (s.scramble v).mem.read a = s.mem.read a := by
  unfold State.scramble
  split
  · rfl
  · refine Memory.read_writeAll_other _ _ fun c hc heq => ?_
    have := addr_of_mem_freeCells hc
    omega

/-- A fill keeps the canonical form. -/
theorem State.scramble_wf {s : State} (h : s.mem.wf) (v : Interval) : (s.scramble v).mem.wf := by
  unfold State.scramble
  split
  · exact h
  · exact Memory.wf_writeAll h _

/-- A fill stays within memory. -/
theorem State.scramble_bound {s : State} (h : ∀ c ∈ s.mem, c.1 < s.memSize) (v : Interval) :
    ∀ c ∈ (s.scramble v).mem, c.1 < s.memSize := by
  unfold State.scramble
  split
  · exact h
  · exact Memory.bound_writeAll h _ fun c hc => (addr_of_mem_freeCells hc).2.2

/-- The interval of no byte is left alone. -/
@[simp] theorem State.scramble_noBytes (s : State) : s.scramble noBytes = s := rfl

/-! ## Completion -/

/-- A completion leaves alone every byte outside the cells a success writes and the interval an error frees. -/
theorem State.complete_read_other (s : State) (res : CmdResult) {a : Nat}
    (h : match res with
      | .ok ws _ => ∀ c ∈ ws, c.1 ≠ a
      | .fail _ o => ¬(o.scratch.lo ≤ a ∧ a < o.scratch.hi)) :
    (s.complete res).mem.read a = s.mem.read a := by
  cases res with
  | ok ws o => exact Memory.read_writeAll_other _ _ h
  | fail e o => exact s.scramble_read_outside _ h

/-- A completion keeps the canonical form. -/
theorem State.complete_wf {s : State} (h : s.mem.wf) (res : CmdResult) : (s.complete res).mem.wf := by
  cases res with
  | ok ws o => exact Memory.wf_writeAll h _
  | fail e o => exact State.scramble_wf h _

/-- A completion leaves the engine not busy. -/
@[simp] theorem State.complete_busy (s : State) (res : CmdResult) : (s.complete res).regs.status.busy = false := by
  cases res <;> simp

/-! ## exec -/

/-- The outcome of a command (40_control.md R144 `Exec`). -/
def outcomeOf (i : Instr) (s : State) : CmdResult :=
  match i with
  | .nop => .ok [] { outLen := 0 }
  | .lzwEnc => outcomeLzwEnc s
  | .lzwDec => outcomeLzwDec s
  | .wt1Fwd => outcomeWt1Fwd s
  | .wt1Inv => outcomeWt1Inv s
  | .wt2Fwd => outcomeWt2Fwd s
  | .wt2Inv => outcomeWt2Inv s
  | .qFwd => outcomeQFwd s
  | .qInv => outcomeQInv s
  | .packWrap o => outcomePackWrap o s
  | .packSats o => outcomePackSats o s
  | .packSatu o => outcomePackSatu o s
  | .unpackU o => outcomeUnpackU o s
  | .unpackS o => outcomeUnpackS o s

/-- Every command's meaning is the completion of its outcome. -/
theorem exec_eq_complete (i : Instr) (s : State) : exec i s = .next (s.complete (outcomeOf i s)) := by
  cases i <;> rfl

/-- What a check-phase or execution error leaves: a failure of the command, its code, and free bytes only for an
execution error. -/
theorem failWith_eq (r : Regs) (i : Instr) (e : ErrCode) :
    ∃ o, failWith r i e = .fail e o ∧ o.scratch = if e.isExecution then writeInterval r i else noBytes :=
  ⟨_, rfl, rfl⟩

/-! ## Arithmetic (00_scope.md R9) -/

/-- `wrap32` gives a 32-bit value. -/
theorem wrap32_range (v : Int) : -(2 ^ 31) ≤ wrap32 v ∧ wrap32 v < 2 ^ 31 := by
  unfold wrap32
  omega

/-- `wrap32` leaves a 32-bit value alone. -/
theorem wrap32_of_range {v : Int} (h : -(2 ^ 31) ≤ v ∧ v < 2 ^ 31) : wrap32 v = v := by
  unfold wrap32
  omega

/-- `wrap32(v)` is congruent to `v`. -/
theorem wrap32_emod (v : Int) : wrap32 v % 2 ^ 32 = v % 2 ^ 32 := by
  unfold wrap32
  omega

/-- Values congruent modulo 2^32 wrap alike. -/
theorem wrap32_congr {u v : Int} (h : u % 2 ^ 32 = v % 2 ^ 32) : wrap32 u = wrap32 v := by
  unfold wrap32
  omega

/-- A step that wrapped is undone by its opposite (42_lifting.md R210). -/
theorem wrap32_sub_wrap32_add {x : Int} (h : -(2 ^ 31) ≤ x ∧ x < 2 ^ 31) (f : Int) :
    wrap32 (wrap32 (x + f) - f) = x := by
  unfold wrap32
  omega

theorem ovf32_eq_false {v : Int} : ovf32 v = false ↔ -(2 ^ 31) ≤ v ∧ v < 2 ^ 31 := by
  unfold ovf32
  constructor
  · intro h
    have : wrap32 v = v := by simpa using h
    exact this ▸ wrap32_range v
  · intro h
    simp [wrap32_of_range h]

/-! ## Coefficients in memory (20_memory.md R72) -/

/-- The number four bytes hold, least significant first, and back. -/
theorem bytes_of_word (n : Nat) (h : n < 2 ^ 32) :
    (BitVec.ofNat 8 n).toNat + 2 ^ 8 * (BitVec.ofNat 8 (n / 2 ^ 8)).toNat +
      2 ^ 16 * (BitVec.ofNat 8 (n / 2 ^ 16)).toNat + 2 ^ 24 * (BitVec.ofNat 8 (n / 2 ^ 24)).toNat = n := by
  simp only [BitVec.toNat_ofNat]
  omega

/-- An element reads as the value written to it (R72, R77): `m` holds the cells of `v` at `addr`. -/
theorem Memory.readCoef_of_cells {m : Memory} {addr : Nat} {v : Int} (hv : -(2 ^ 31) ≤ v ∧ v < 2 ^ 31)
    (h : ∀ c ∈ coefCells addr v, m.read c.1 = c.2) : m.readCoef addr = v := by
  have cell : ∀ (i : Nat) (b : Byte), (addr + i, b) ∈ coefCells addr v → m.read (addr + i) = b := fun i b hb => h _ hb
  have h0 := cell 0 _ (mem_cellsAt.2 ⟨0, by simp, rfl⟩)
  have h1 := cell 1 _ (mem_cellsAt.2 ⟨1, by simp, rfl⟩)
  have h2 := cell 2 _ (mem_cellsAt.2 ⟨2, by simp, rfl⟩)
  have h3 := cell 3 _ (mem_cellsAt.2 ⟨3, by simp, rfl⟩)
  simp only [Nat.add_zero] at h0
  unfold Memory.readCoef Memory.readWord
  rw [h0, h1, h2, h3]
  simp only [List.getElem_cons_zero, List.getElem_cons_succ]
  rw [bytes_of_word _ (by omega)]
  unfold sext
  split <;> omega

end Sys2Proof.Machine
end

