-- ==== Sys2Proof/Laws/PerInstr.lean ====
section
/-! SUPPORT. Facts about every command as syntax, one lemma per constructor. -/

namespace Sys2Proof.Laws.SelectsRow

/-- The word a command is written as selects a row of the opcode map, and that row builds the command for the `ORDER` the
word holds (30_encoding.md R101, R115). -/
def Statement (i : Instr) : Prop :=
  ∃ row ∈ opcodeMap, row.selects (encode i) = true ∧ row.build (orderOf (encode i)) = i

theorem nop : Statement .nop := ⟨_, .head _, by decide, rfl⟩

theorem lzwEnc : Statement .lzwEnc := ⟨_, .tail _ (.head _), by decide, rfl⟩

theorem lzwDec : Statement .lzwDec := ⟨_, .tail _ (.tail _ (.head _)), by decide, rfl⟩

theorem wt1Fwd : Statement .wt1Fwd := ⟨opcodeMap[3], List.getElem_mem _, by decide, rfl⟩

theorem wt1Inv : Statement .wt1Inv := ⟨opcodeMap[4], List.getElem_mem _, by decide, rfl⟩

theorem wt2Fwd : Statement .wt2Fwd := ⟨opcodeMap[5], List.getElem_mem _, by decide, rfl⟩

theorem wt2Inv : Statement .wt2Inv := ⟨opcodeMap[6], List.getElem_mem _, by decide, rfl⟩

theorem qFwd : Statement .qFwd := ⟨opcodeMap[7], List.getElem_mem _, by decide, rfl⟩

theorem qInv : Statement .qInv := ⟨opcodeMap[8], List.getElem_mem _, by decide, rfl⟩

theorem packWrap (order : Order) : Statement (.packWrap order) := by
  cases order <;> exact ⟨opcodeMap[9], List.getElem_mem _, by decide, by decide⟩

theorem packSats (order : Order) : Statement (.packSats order) := by
  cases order <;> exact ⟨opcodeMap[10], List.getElem_mem _, by decide, by decide⟩

theorem packSatu (order : Order) : Statement (.packSatu order) := by
  cases order <;> exact ⟨opcodeMap[11], List.getElem_mem _, by decide, by decide⟩

theorem unpackU (order : Order) : Statement (.unpackU order) := by
  cases order <;> exact ⟨opcodeMap[12], List.getElem_mem _, by decide, by decide⟩

theorem unpackS (order : Order) : Statement (.unpackS order) := by
  cases order <;> exact ⟨opcodeMap[13], List.getElem_mem _, by decide, by decide⟩

end Sys2Proof.Laws.SelectsRow
end

