-- ==== Sys2Proof/Laws/Step.lean ====
section
/-! SUPPORT. What a step can do, said once: the inversion of a host operation and of a step. -/

namespace Sys2Proof.Machine

/-- The outcome the start of a command puts into `S.result`: that of the decoded command on the accepted state. -/
theorem State.startCommand_eq (s : State) (w : Word) :
    s.startCommand w = .next { s.accept w with result := match decode w with
      | .ok i => outcomeOf i (s.accept w)
      | .error _ => illegalWord } := by
  unfold State.startCommand
  cases h : decode w with
  | error e => simp
  | ok i => simp [exec_eq_complete]

/-- Everything one operation of the host can do when it gives a next state. -/
inductive HostEffect (s : State) : State → Prop
  /-- a read, a poll or nothing: registers, memory and the command in flight are as before -/
  | observe (data : Word) (draws : Nat) (q : List HostOp) (hd : s.draws ≤ draws)
      (hq : q = s.hostQ ∨ (q = .poll :: s.hostQ ∧ s.regs.status.busy = true)) :
      HostEffect s { s with hostData := data, draws := draws, hostQ := q }
  /-- a write of a byte of data memory that exists -/
  | memWrite (addr : Nat) (b : Byte) (ha : addr < s.memSize) :
      HostEffect s { s with
        mem := s.mem.write addr b
        raced := s.raced || s.runningReads.contains addr || s.runningWrites.contains addr }
  /-- a configuration register written while the engine is idle -/
  | config (reg : Reg) (v : Word) (hb : s.regs.status.busy = false) :
      HostEffect s { s with regs := s.regs.storeConfig reg v }
  /-- flags cleared in `STATUS` -/
  | clear (v : Word) : HostEffect s { s with regs := { s.regs with status := s.regs.status.writeClear v } }
  /-- the interrupt enables written -/
  | enable (d e : Bool) : HostEffect s { s with regs := { s.regs with doneIe := d, errIe := e } }
  /-- a write ignored because the engine is busy -/
  | overrun (hb : s.regs.status.busy = true) :
      HostEffect s { s with regs := { s.regs with status := s.regs.status.setOverrun } }
  /-- a soft or hardware reset -/
  | reset : HostEffect s s.resetEngine
  /-- a command started -/
  | start (w : Word) (hb : s.regs.status.busy = false) :
      HostEffect s { s.accept w with result := match decode w with
        | .ok i => outcomeOf i (s.accept w)
        | .error _ => illegalWord }

/-- Nothing happened. -/
theorem HostEffect.refl (s : State) : HostEffect s s := .observe s.hostData s.draws s.hostQ le_rfl (.inl rfl)

theorem State.whenIdle_effect {s t : State} {act : Host.Outcome State Fault Refusal} (h : s.whenIdle act = .next t)
    (hact : s.regs.status.busy = false → act = .next t → HostEffect s t) : HostEffect s t := by
  unfold State.whenIdle at h
  split at h
  · next hb => cases h; exact .overrun hb
  · next hb => exact hact (by simpa using hb) h

theorem State.writeReg_effect {s t : State} {reg : Reg} {v : Word} (h : s.writeReg reg v = .next t) :
    HostEffect s t := by
  have config : ∀ {reg : Reg}, s.whenIdle (.next { s with regs := s.regs.storeConfig reg v }) = .next t →
      HostEffect s t := fun h => s.whenIdle_effect h fun hb he => by cases he; exact .config _ v hb
  cases reg with
  | ctrl =>
    change Host.Outcome.next (if v.getLsbD 0 then s.resetEngine else s) = .next t at h
    split at h
    · cases h; exact .reset
    · cases h; exact .refl s
  | status => cases h; exact .clear v
  | irqEn => cases h; exact .enable _ _
  | cmd => exact s.whenIdle_effect h fun hb he => by rw [s.startCommand_eq] at he; cases he; exact .start v hb
  | id | version | outLen | lzwNext | lzwWidth | levels => cases h; exact .refl s
  | srcAddr | srcLen | srcStride | dstAddr | dstCap | dstStride | geom | lzwCfg | wtCfg | wtScale | qFactor | qAlpha
  | qBeta | stepCtrl k | stepCoef k => exact config h

theorem decodedAccess_next {offset size : Nat} {act : Host.Outcome State Fault Refusal} {t : State}
    (h : decodedAccess offset size act = .next t) : act = .next t := by
  unfold decodedAccess at h
  split at h
  · cases h
  · split at h
    · cases h
    · exact h

theorem State.hostRegRead_effect {s t : State} {offset size : Nat} (h : s.hostRegRead offset size = .next t) :
    HostEffect s t := by
  cases decodedAccess_next h
  exact .observe _ _ _ le_rfl (.inl rfl)

theorem State.hostRegWrite_effect {s t : State} {offset size : Nat} {v : Word}
    (h : s.hostRegWrite offset size v = .next t) : HostEffect s t := by
  have h := decodedAccess_next h
  split at h
  · exact State.writeReg_effect h
  · cases h; exact .refl s

theorem State.atBlock_next {s t : State} {addr : Nat} {act : Nat → Host.Outcome State Fault Refusal}
    (h : s.atBlock addr act = .next t) : s.mmioBase ≤ addr ∧ act (addr - s.mmioBase) = .next t := by
  unfold State.atBlock at h
  split at h
  · cases h
  · exact ⟨by omega, h⟩

/-- An access at `MMIO_BASE + offset` is the access at that offset. -/
@[simp] theorem State.atBlock_base (s : State) (offset : Nat) (act : Nat → Host.Outcome State Fault Refusal) :
    s.atBlock (s.mmioBase + offset) act = act offset := by
  simp [State.atBlock]

/-- What one operation of the host does, when it gives a next state. -/
theorem State.hostOp_effect {s t : State} {op : HostOp} (h : s.hostOp op = .next t) : HostEffect s t := by
  cases op with
  | regRead offset size => exact State.hostRegRead_effect h
  | regWrite offset size v => exact State.hostRegWrite_effect h
  | busRead addr size =>
    exact State.hostRegRead_effect (State.atBlock_next (act := fun offset => s.hostRegRead offset size) h).2
  | busWrite addr size v =>
    exact State.hostRegWrite_effect (State.atBlock_next (act := fun offset => s.hostRegWrite offset size v) h).2
  | memRead addr =>
    change s.hostMemRead addr = .next t at h
    unfold State.hostMemRead at h
    split at h
    · cases h
    · split at h
      · cases h; exact .observe _ _ _ (Nat.le_succ _) (.inl rfl)
      · cases h; exact .observe _ _ _ le_rfl (.inl rfl)
  | memWrite addr b =>
    change s.hostMemWrite addr b = .next t at h
    unfold State.hostMemWrite at h
    split at h
    · cases h
    · next ha => cases h; exact .memWrite addr b (by omega)
  | poll =>
    cases h
    refine .observe _ _ _ le_rfl ?_
    split
    · next hb => exact .inr ⟨rfl, hb⟩
    · exact .inl rfl
  | idle => cases h; exact .refl s
  | hwReset => cases h; exact .reset

/-- An operation of the host changes no parameter. -/
theorem HostEffect.params {s t : State} (h : HostEffect s t) : t.memSize = s.memSize ∧ t.mmioBase = s.mmioBase := by
  cases h <;> simp

theorem State.writeReg_hostQ {s t : State} {reg : Reg} {v : Word} (h : s.writeReg reg v = .next t) :
    t.hostQ = s.hostQ := by
  have idle : ∀ {act : Host.Outcome State Fault Refusal}, s.whenIdle act = .next t →
      (act = .next t → t.hostQ = s.hostQ) → t.hostQ = s.hostQ := by
    intro act h hact
    unfold State.whenIdle at h
    split at h
    · cases h; rfl
    · exact hact h
  cases reg with
  | ctrl =>
    change Host.Outcome.next (if v.getLsbD 0 then s.resetEngine else s) = .next t at h
    split at h
    · cases h; simp
    · cases h; rfl
  | cmd => exact idle h fun he => by rw [s.startCommand_eq] at he; cases he; simp
  | status | irqEn | id | version | outLen | lzwNext | lzwWidth | levels => cases h; rfl
  | srcAddr | srcLen | srcStride | dstAddr | dstCap | dstStride | geom | lzwCfg | wtCfg | wtScale | qFactor | qAlpha
  | qBeta | stepCtrl k | stepCoef k => exact idle h fun he => by cases he; rfl

theorem State.hostRegWrite_hostQ {s t : State} {offset size : Nat} {v : Word}
    (h : s.hostRegWrite offset size v = .next t) : t.hostQ = s.hostQ := by
  have h := decodedAccess_next h
  split at h
  · exact State.writeReg_hostQ h
  · cases h; rfl

/-- Only polling puts anything on the queue. -/
theorem State.hostOp_hostQ {s t : State} {op : HostOp} (h : s.hostOp op = .next t) (hp : op ≠ .poll) :
    t.hostQ = s.hostQ := by
  cases op with
  | regRead offset size => cases decodedAccess_next h; rfl
  | regWrite offset size v => exact State.hostRegWrite_hostQ h
  | busRead addr size =>
    cases decodedAccess_next (State.atBlock_next (act := fun offset => s.hostRegRead offset size) h).2; rfl
  | busWrite addr size v =>
    exact State.hostRegWrite_hostQ (State.atBlock_next (act := fun offset => s.hostRegWrite offset size v) h).2
  | memRead addr =>
    change s.hostMemRead addr = .next t at h
    unfold State.hostMemRead at h
    split at h
    · cases h
    · split at h <;> cases h <;> rfl
  | memWrite addr b =>
    change s.hostMemWrite addr b = .next t at h
    unfold State.hostMemWrite at h
    split at h
    · cases h
    · cases h; rfl
  | poll => exact absurd rfl hp
  | idle => cases h; rfl
  | hwReset => cases h; simp

/-- Everything a step can do when it gives a next state: the engine completes, or the host does nothing, or the host's
next operation takes effect; `s'` is the state with a step of the latency passed. -/
theorem step_cases {s t : State} (h : step s = .next t) :
    ((∃ w, s.run = some w) ∧ s.latencyLeft ≤ 1 ∧ t = s.finish) ∨
      ∃ s', ((s.run = none ∧ s' = s) ∨ ((∃ w, s.run = some w) ∧ 1 < s.latencyLeft ∧ s' = s.tick)) ∧
        ((s.hostQ = [] ∧ t = s') ∨
          ∃ op rest, s.hostQ = op :: rest ∧ State.hostOp { s' with hostQ := rest } op = .next t) := by
  have host : ∀ {s' : State}, s'.hostQ = s.hostQ → s'.hostStep = .next t →
      (s.hostQ = [] ∧ t = s') ∨
        ∃ op rest, s.hostQ = op :: rest ∧ State.hostOp { s' with hostQ := rest } op = .next t := by
    intro s' hq hs
    unfold State.hostStep at hs
    split at hs
    · next he => cases hs; exact .inl ⟨hq ▸ he, rfl⟩
    · next op rest he => exact .inr ⟨op, rest, hq ▸ he, hs⟩
  unfold step State.advance at h
  split at h
  · next hr => exact .inr ⟨s, .inl ⟨hr, rfl⟩, host rfl h⟩
  · next w hr =>
    split at h
    · next hl => cases h; exact .inl ⟨⟨w, hr⟩, hl, rfl⟩
    · next hl => exact .inr ⟨s.tick, .inr ⟨⟨w, hr⟩, by omega, rfl⟩, host rfl h⟩

end Sys2Proof.Machine
end

