-- ==== Sys2Proof/Tests/Slice0.lean ====
section
/-! SUPPORT. Tests of one step each (expected values from spec/ by hand: 95_test_vectors.md and the rules' worked examples),
and for every obligation with hypotheses a witness that meets them. -/

namespace Sys2Proof.Tests

open Sys2Proof Sys2Proof.Machine

/-! ## Ill-formed command words (30_encoding.md R100, R102): one term for each check -/

theorem smoke_unknown_opcode : CmdFields.wellFormed ⟨0x03, 0, 0, 0, 0⟩ = false := by decide

theorem smoke_reserved_low : CmdFields.wellFormed ⟨0x00, 0, 1, 0, 0⟩ = false := by decide

theorem smoke_reserved_high : CmdFields.wellFormed ⟨0x30, 0, 0, 0, 0x40000⟩ = false := by decide

theorem smoke_mode_unused : CmdFields.wellFormed ⟨0x10, 1, 0, 0, 0⟩ = false := by decide

theorem smoke_order_unused : CmdFields.wellFormed ⟨0x20, 0, 0, 1, 0⟩ = false := by decide

theorem smoke_pack_mode : CmdFields.wellFormed ⟨0x30, 3, 0, 0, 0⟩ = false := by decide

theorem smoke_unpack_bit9 : CmdFields.wellFormed ⟨0x31, 2, 0, 0, 0⟩ = false := by decide

theorem smoke_field_width : CmdFields.wellFormed ⟨0x100, 0, 0, 0, 0⟩ = false := by decide

theorem smoke_legal : CmdFields.wellFormed ⟨0x31, 1, 0, 1, 0⟩ = true := by decide

/-! ## Decoding: bits 31:13 reserved, 12 ORDER, 11:10 reserved, 9:8 MODE, 7:0 OPCODE (R100, R101) -/

theorem test_decode_nop : decode 0b0000000000000000000_0_00_00_00000000 = .ok .nop := by decide

theorem test_decode_lzwEnc : decode 0b0000000000000000000_0_00_00_00000001 = .ok .lzwEnc := by decide

theorem test_decode_lzwDec : decode 0b0000000000000000000_0_00_00_00000010 = .ok .lzwDec := by decide

theorem test_decode_wt1Fwd : decode 0b0000000000000000000_0_00_00_00010000 = .ok .wt1Fwd := by decide

theorem test_decode_wt1Inv : decode 0b0000000000000000000_0_00_00_00010001 = .ok .wt1Inv := by decide

theorem test_decode_wt2Fwd : decode 0b0000000000000000000_0_00_00_00010010 = .ok .wt2Fwd := by decide

theorem test_decode_wt2Inv : decode 0b0000000000000000000_0_00_00_00010011 = .ok .wt2Inv := by decide

theorem test_decode_qFwd : decode 0b0000000000000000000_0_00_00_00100000 = .ok .qFwd := by decide

theorem test_decode_qInv : decode 0b0000000000000000000_0_00_00_00100001 = .ok .qInv := by decide

theorem test_decode_packWrap : decode 0b0000000000000000000_1_00_00_00110000 = .ok (.packWrap .band) := by decide

theorem test_decode_packSats : decode 0b0000000000000000000_1_00_01_00110000 = .ok (.packSats .band) := by decide

theorem test_decode_packSatu : decode 0b0000000000000000000_0_00_10_00110000 = .ok (.packSatu .raster) := by decide

theorem test_decode_unpackU : decode 0b0000000000000000000_0_00_00_00110001 = .ok (.unpackU .raster) := by decide

theorem test_decode_unpackS : decode 0b0000000000000000000_1_00_01_00110001 = .ok (.unpackS .band) := by decide

/-- `PACK` with `MODE = 3` and `UNPACK` with bit 9 set are illegal (R102). -/
theorem test_decode_refuses :
    decode 0x00000330 = .error .packMode ∧ decode 0x00000231 = .error .unpackBit9 ∧
      decode 0x00000400 = .error .reservedBits ∧ decode 0x00000110 = .error .modeUnused ∧
      decode 0x00001001 = .error .orderUnused ∧ decode 0x000000FF = .error .unknownOpcode := by decide

/-- `PACK.SATS ORDER=1` is `0x0000_1130` and `UNPACK.S ORDER=1` is `0x0000_1131` (R115). -/
theorem test_encode_order : encode (.packSats .band) = 0x00001130 ∧ encode (.unpackS .band) = 0x00001131 := by decide

theorem test_table_word : decodeTableWord 32 0x00001130 = some (.packSats .band) ∧ decodeTableWord 32 0x330 = none := by
  decide

/-! ## Helpers -/

/-- The next state of an outcome. -/
def nextOf (o : Host.Outcome State Fault Refusal) : Option State :=
  match o with
  | .next s => some s
  | .fault _ => none
  | .refused _ => none

/-- An idle engine with 256 bytes of memory, given registers and bytes. -/
def machine (r : Regs) (cells : List Host.Cell) : State :=
  { State.resetWith 256 0x40000000 with regs := r, mem := Memory.writeAll [] cells }

/-- The bytes of coefficients, one after another. -/
def coefBytes (addr : Nat) (xs : List Int) : List Host.Cell :=
  (xs.mapIdx fun i x => coefCells (addr + 4 * i) x).flatten

/-- What a command leaves: `n` bytes from `addr` on, `OUT_LEN` and `STATUS`. -/
def bytesAfter (i : Instr) (s : State) (addr n : Nat) : Option (List Byte × Word × Word) :=
  (nextOf (exec i s)).map fun t => (t.mem.readBytes addr n, t.regs.outLen, t.regs.status.read)

/-- What a command leaves: `n` coefficients from `addr` on, `OUT_LEN`, `LEVELS` and `STATUS`. -/
def coefsAfter (i : Instr) (s : State) (addr n : Nat) : Option (List Int × Nat × Nat × Nat) :=
  (nextOf (exec i s)).map fun t =>
    ((List.range n).map fun k => t.mem.readCoef (addr + 4 * k), t.regs.outLen.toNat, t.regs.levels.toNat,
      t.regs.status.read.toNat)

/-- `LZW_ENC` of `"A"` into 8 bytes, 12-bit dynamic width. -/
def lzwEncState : State :=
  machine { Regs.reset with lzwCfg := 0x10C, srcAddr := 0x10, srcLen := 1, dstAddr := 0x40, dstCap := 8 } [(0x10, 0x41)]

/-- `LZW_DEC` of `41 00 02` into at most one byte, `CHECK_LEN` on. -/
def lzwDecState : State :=
  machine { Regs.reset with lzwCfg := 0x50C, srcAddr := 0x10, srcLen := 3, dstAddr := 0x40, dstCap := 1 }
    [(0x10, 0x41), (0x12, 0x02)]

/-- A vector of two coefficients, `HAAR_INT`. -/
def wt1State (x y : Int) : State :=
  machine { Regs.reset with wtCfg := 1, srcAddr := 0x20, srcStride := 4, geom := 2 } (coefBytes 0x20 [x, y])

/-- A 2 x 2 view with one level, `HAAR_INT`, `Q_FACTOR = 2`, alpha 1, beta 0. -/
def viewState (xs : List Int) : State :=
  machine { Regs.reset with wtCfg := 0x101, srcAddr := 0x20, srcStride := 8, geom := 0x00020002, qFactor := 2,
                            qAlpha := 0x100 } (coefBytes 0x20 xs)

/-- The 1 x 3 view `[-1, 255, 256]` and room for three bytes (44_pack.md R263). -/
def packState : State :=
  machine { Regs.reset with srcAddr := 0x20, srcStride := 12, geom := 0x00010003, dstAddr := 0x40, dstStride := 3 }
    (coefBytes 0x20 [-1, 255, 256])

/-- The 2 x 2 view `[[-126, 0], [1, 0]]`, one level (44_pack.md R264). -/
def bandPackState : State :=
  machine { Regs.reset with wtCfg := 0x100, srcAddr := 0x20, srcStride := 8, geom := 0x00020002, dstAddr := 0x40 }
    (coefBytes 0x20 [-126, 0, 1, 0])

/-- The bytes `34 12 FF` and room for a 1 x 3 view (44_pack.md R266). -/
def unpackState : State :=
  machine { Regs.reset with srcAddr := 0x20, srcStride := 3, geom := 0x00010003, dstAddr := 0x40, dstStride := 12 }
    [(0x20, 0x34), (0x21, 0x12), (0x22, 0xFF)]

/-- The bytes `00 01 00 82` and room for a 2 x 2 view, one level (44_pack.md R267). -/
def bandUnpackState : State :=
  machine { Regs.reset with wtCfg := 0x100, srcAddr := 0x20, geom := 0x00020002, dstAddr := 0x40, dstStride := 8 }
    [(0x21, 0x01), (0x23, 0x82)]

/-! ## The commands, one step each (the worked examples of the command rules) -/

/-- 40_control.md R148: with `IRQ_EN = 1`, `NOP` leaves `STATUS = 2` and `irq = 1`. -/
theorem test_nop : (nextOf (exec .nop (machine { Regs.reset with doneIe := true } []))).map
    (fun t => (t.regs.status.read, t.regs.irq, t.regs.outLen)) = some (0x2, true, 0) := by decide +kernel

/-- 41_lzw.md R169. -/
theorem test_lzwEnc : bytesAfter .lzwEnc lzwEncState 0x40 3 = some ([0x41, 0x00, 0x02], 3, 0x2) := by decide +kernel

/-- 41_lzw.md R169: `LZW_NEXT = 258`, `LZW_WIDTH = 9`. -/
theorem test_lzwEnc_results : (nextOf (exec .lzwEnc lzwEncState)).map
    (fun t => (t.regs.lzwNext.toNat, t.regs.lzwWidth.toNat)) = some (258, 9) := by decide +kernel

/-- 41_lzw.md R173. -/
theorem test_lzwDec : bytesAfter .lzwDec lzwDecState 0x40 2 = some ([0x41, 0x00], 1, 0x2) := by decide +kernel

/-- 41_lzw.md R173: an empty input fails with `E_TRUNC`. -/
theorem test_lzwDec_trunc : (nextOf (exec .lzwDec { lzwDecState with regs := { lzwDecState.regs with srcLen := 0 } })).map
    (fun t => (t.regs.status.read, t.regs.outLen)) = some (0x804, 0) := by decide +kernel

/-- 42_lifting.md R211. -/
theorem test_wt1Fwd : coefsAfter .wt1Fwd (wt1State 10 20) 0x20 2 = some ([15, 10], 2, 0, 0x2) := by decide +kernel

/-- 42_lifting.md R210: `d = -2^31 - 1` wraps to `2^31 - 1` and sets `ARITH_OVF`. -/
theorem test_wt1Fwd_wraps : coefsAfter .wt1Fwd (wt1State 1 (-2147483648)) 0x20 2 =
    some ([1073741824, 2147483647], 2, 0, 0xA) := by decide +kernel

/-- 42_lifting.md R212. -/
theorem test_wt1Inv : coefsAfter .wt1Inv (wt1State 15 10) 0x20 2 = some ([10, 20], 2, 0, 0x2) := by decide +kernel

/-- 95_test_vectors.md 5.14: the Haar list as a custom one with `KA = 2`, `KD = 3`. -/
theorem test_wt1Inv_scales : coefsAfter .wt1Inv
    (machine { Regs.reset with
      wtCfg := 0x20003, wtScale := 0x30002, srcAddr := 0x20, srcStride := 4, geom := 2
      stepCtrl := #v[0x2, 0x103, 0, 0, 0, 0, 0, 0], stepCoef := #v[1, 1, 0, 0, 0, 0, 0, 0] } (coefBytes 0x20 [31, 31]))
    0x20 2 = some ([10, 20], 2, 0, 0x2) := by decide +kernel

/-- 42_lifting.md R222. -/
theorem test_wt2Fwd : coefsAfter .wt2Fwd (viewState [1, 2, 3, 4]) 0x20 4 = some ([2, 1, 2, 0], 4, 1, 0x2) := by
  decide +kernel

/-- 42_lifting.md R223. -/
theorem test_wt2Inv : coefsAfter .wt2Inv (viewState [2, 1, 2, 0]) 0x20 4 = some ([1, 2, 3, 4], 4, 1, 0x2) := by
  decide +kernel

/-- 43_quant.md R242. -/
theorem test_qFwd : coefsAfter .qFwd (viewState [2, 1, 2, 0]) 0x20 4 = some ([-126, 0, 1, 0], 4, 1, 0x2) := by
  decide +kernel

/-- 43_quant.md R243. -/
theorem test_qInv : coefsAfter .qInv (viewState [-126, 0, 1, 0]) 0x20 4 = some ([2, 0, 2, 0], 4, 1, 0x2) := by
  decide +kernel

/-- 44_pack.md R263. -/
theorem test_packWrap : bytesAfter (.packWrap .raster) packState 0x40 3 = some ([0xFF, 0xFF, 0x00], 3, 0x12) := by
  decide +kernel

/-- 44_pack.md R264. -/
theorem test_packSats : bytesAfter (.packSats .raster) packState 0x40 3 = some ([0xFF, 0x7F, 0x7F], 3, 0x12) := by
  decide +kernel

/-- 44_pack.md R264, band order. -/
theorem test_packSats_band :
    bytesAfter (.packSats .band) bandPackState 0x40 4 = some ([0x00, 0x01, 0x00, 0x82], 4, 0x2) := by decide +kernel

/-- 44_pack.md R265. -/
theorem test_packSatu : bytesAfter (.packSatu .raster) packState 0x40 3 = some ([0x00, 0xFF, 0xFF], 3, 0x12) := by
  decide +kernel

/-- 44_pack.md R266. -/
theorem test_unpackU : coefsAfter (.unpackU .raster) unpackState 0x40 3 = some ([52, 18, 255], 3, 0, 0x2) := by
  decide +kernel

/-- 44_pack.md R267. -/
theorem test_unpackS : coefsAfter (.unpackS .raster) unpackState 0x40 3 = some ([52, 18, -1], 3, 0, 0x2) := by
  decide +kernel

/-- 44_pack.md R267, band order. -/
theorem test_unpackS_band :
    coefsAfter (.unpackS .band) bandUnpackState 0x40 4 = some ([-126, 0, 1, 0], 4, 1, 0x2) := by decide +kernel

/-- 70_reset_and_hazards.md R340: a command issued before configuration fails with `E_CFG`. -/
theorem test_unconfigured : (nextOf (exec .lzwEnc (machine Regs.reset []))).map (fun t => t.regs.status.read) =
    some 0x204 := by decide +kernel

/-- 30_encoding.md R109, the third worked example. -/
theorem test_descriptor : decodeStep 0xFFFF0002 0x000000FF = ⟨.predict, [-1], -1, 0⟩ := by decide

/-- 43_quant.md R240: from `Q_FACTOR = 10`, alpha 1.5, beta 1: `ceil(10/1.5) - 1 = 6`, then 3, then 2 (clamped). -/
theorem test_factors :
    Regs.factors { Regs.reset with qFactor := 10, qAlpha := 0x180, qBeta := 1 } 4 = [10, 6, 3, 2] := by decide

/-! ## One step of the machine -/

/-- The word of every row, fetched after reset, gives a next state. -/
theorem test_step_runs_every_row : ∀ w ∈ [0x0, 0x1, 0x2, 0x10, 0x11, 0x12, 0x13, 0x20, 0x21, 0x30, 0x130, 0x230, 0x31, 0x131],
    (nextOf (step (State.reset.withFetchWord 32 w))).map (fun t => (t.regs.cmd.toNat, t.regs.status.busy)) =
      some (w, true) := by
  intro w hw
  fin_cases hw <;> rfl

/-- A busy engine, two steps from its completion. -/
def busyState : State :=
  { State.resetWith 256 0x40000000 with
    regs := { Regs.reset with cmd := 0x10, status := ⟨true, false, false, false, false, false, 0⟩ }
    run := some 0x10
    latencyLeft := 2 }

/-- 40_control.md R149: a busy engine ignores a second command and sets `OVERRUN`. -/
theorem test_overrun : (nextOf (busyState.hostOp (.regWrite 0x014 4 0))).map
    (fun t => (t.regs.status.read, t.regs.cmd)) = some (0x21, 0x10) := by decide

/-- 10_state.md R22: the engine does not decode offset `0x0C0`. -/
theorem test_undecoded : nextOf (busyState.hostOp (.regRead 0x0C0 4)) = none := by decide


/-! ## Witnesses: registers -/

theorem witness_ConfigWriteReadsBack :
    Reg.ofOffset 0x038 = some .lzwCfg ∧ regMask .lzwCfg = some 0x71F ∧ Reg.ofOffset 0x0BC = some (.stepCoef 7) ∧
      regMask (.stepCoef 7) = some 0xFFFFFFFF ∧ State.reset.regs.status.busy = false ∧
      Reg.ofOffset 0x000 = some .id ∧ Reg.ofOffset 0x058 = some .levels := by
  refine ⟨by decide, by decide, by decide, by decide, rfl, by decide, by decide⟩

/-- The offsets on either side of the unmapped ones, and the last of the block. -/
theorem witness_ReadsShowTheFields : Reg.ofOffset 0x058 = some .levels ∧ Reg.ofOffset 0x05C = none ∧
    Reg.ofOffset 0x07C = none ∧ Reg.ofOffset 0x080 = some (.stepCtrl 0) ∧ Reg.ofOffset 0x0BC = some (.stepCoef 7) ∧
    Reg.ofOffset 0x0BD = none ∧ Reg.ofOffset 0x0C0 = none := by decide

/-- One offset for each clause, the first or last of its range. -/
theorem witness_BusyEngineIgnoresWrites : busyState.regs.status.busy = true ∧
    Reg.ofOffset 0x014 = some .cmd ∧ Reg.ofOffset 0x018 = some .srcAddr ∧ (regMask .srcAddr).isSome = true ∧
    Reg.ofOffset 0x0BC = some (.stepCoef 7) ∧ (regMask (.stepCoef 7)).isSome = true ∧
    Reg.ofOffset 0x010 = some .irqEn ∧ Reg.ofOffset 0x00C = some .status ∧ Reg.ofOffset 0x008 = some .ctrl ∧
    Reg.ofOffset 0x000 = some .id ∧ Reg.ofOffset 0x058 = some .levels ∧ Reg.ofOffset 0x05C = none ∧
    Reg.ofOffset 0x07C = none := by decide

/-- The clauses meet at `0x0BC`, `0x0BD` and `0x0C0`; the unmapped offsets start at `0x05C` and end at `0x07C`. -/
theorem witness_RegisterReadsAndRefusedAccesses :
    (0x0BC < 0x0C0 ∧ 0x0BC % 4 = 0) ∧ (0x0BD < 0x0C0 ∧ 0x0BD % 4 ≠ 0) ∧ 0x0C0 ≤ 0x0C0 ∧
    nextOf (busyState.hostOp (.regRead 0x0BC 4)) = some { busyState with hostData := 0 } ∧
    nextOf (busyState.hostOp (.regRead 0x05C 4)) = some { busyState with hostData := 0 } ∧
    nextOf (busyState.hostOp (.regRead 0x07C 4)) = some { busyState with hostData := 0 } ∧
    nextOf (busyState.hostOp (.regRead 0x0BD 4)) = none ∧ nextOf (busyState.hostOp (.regRead 0x0BC 2)) = none ∧
    nextOf (busyState.hostOp (.regRead 0x0C0 4)) = none ∧
    nextOf (busyState.hostOp (.busRead 0x400000BC 4)) = some { busyState with hostData := 0 } ∧
    (0x3FFFFFFF < busyState.mmioBase ∧ nextOf (busyState.hostOp (.busRead 0x3FFFFFFF 4)) = none) := by decide

/-- Both values of `SRST`, and a byte outside the interval of an idle engine's command. -/
theorem witness_SoftResetAbandonsTheCommand : (1 : Word).getLsbD 0 = true ∧ (0 : Word).getLsbD 0 = false ∧
    State.reset.run = none := ⟨by decide, by decide, rfl⟩

/-- A command on a one-element vector at address 0 is in flight: its footprint is `[0, 4)`. -/
def racingState : State :=
  { busyState with regs := { busyState.regs with geom := 1 } }

/-- An idle engine, and one whose command reads and writes `[0, 4)`: 3 is inside, 4 is not. -/
theorem witness_ResetGivesEveryRegisterItsValue : (machine Regs.reset []).run = none ∧ racingState.run = some 0x10 ∧
    decode 0x10 = .ok .wt1Fwd ∧ (writeInterval racingState.regs .wt1Fwd).contains 3 = true ∧
    (writeInterval racingState.regs .wt1Fwd).contains 4 = false := by decide

/-- The last byte that exists and the first that does not; and the first byte past the footprint of a running command. -/
theorem witness_HostMemoryReadAfterWrite : (machine Regs.reset []).mem.wf ∧ 255 < (machine Regs.reset []).memSize ∧
    (machine Regs.reset []).memSize ≤ 256 ∧ (machine Regs.reset []).run = none ∧
    racingState.mem.wf ∧ 4 < racingState.memSize ∧ (readInterval racingState.regs .wt1Fwd).contains 4 = false ∧
    (nextOf (racingState.hostOp (.memWrite 4 7))).map (fun t => (t.raced, t.mem.read 4)) = some (false, 7) ∧
    (nextOf (racingState.hostOp (.memWrite 3 7))).map (fun t => t.raced) = some true := by decide

/-! ## Witnesses: the invariant, and what steps do -/

theorem reset_stepCtrl : ∀ k : Fin 8, Regs.reset.stepCtrl[k] &&& stepCtrlMask = Regs.reset.stepCtrl[k] := by decide

/-- A state that meets the invariant when its parts do: an idle engine with no outcome. -/
theorem inv_idle (s : State) (hsize : 1 ≤ s.memSize ∧ s.memSize ≤ 2 ^ 32) (hmem : s.mem = []) (hrun : s.run = none)
    (hraced : s.raced = false ∧ s.latencyLeft = 0) (hres : s.result = .ok [] {})
    (hcfg : s.regs.lzwCfg = 0 ∧ s.regs.wtCfg = 0 ∧ s.regs.qFactor = 0 ∧ s.regs.qAlpha = 0 ∧ s.regs.qBeta = 0 ∧
      s.regs.stepCtrl = Regs.reset.stepCtrl)
    (hst : s.regs.status.busy = false ∧ ¬(s.regs.status.done = true ∧ s.regs.status.err = true) ∧
      s.regs.status.errCode.toNat ≤ 10) : s.Inv where
  memSizePos := hsize.1
  memSizeLe := hsize.2
  memWf := by rw [hmem]; decide
  memBound := by simp [hmem]
  lzwCfgReserved := by simp [hcfg]
  wtCfgReserved := by simp [hcfg]
  qFactorReserved := by simp [hcfg]
  qAlphaReserved := by simp [hcfg]
  qBetaReserved := by simp [hcfg]
  stepCtrlReserved := by
    intro k
    simpa only [hcfg.2.2.2.2.2] using reset_stepCtrl k
  doneErr := hst.2.1
  errCodeRange := hst.2.2
  busyRun := by simp [hst.1, hrun]
  busyStatus := by simp [hst.1]
  runCmd := by simp [hrun]
  idle := fun _ => hraced
  resultBound := by simp +contextual [hres]

theorem inv_busyState : busyState.Inv where
  memSizePos := by decide
  memSizeLe := by decide
  memWf := by decide
  memBound := by decide
  lzwCfgReserved := by decide
  wtCfgReserved := by decide
  qFactorReserved := by decide
  qAlphaReserved := by decide
  qBetaReserved := by decide
  stepCtrlReserved := by decide
  doneErr := by decide
  errCodeRange := by decide
  busyRun := by decide
  busyStatus := by decide
  runCmd := by intro w h; cases h; decide
  idle := by intro h; cases h
  resultBound := by intro w o h; cases h; decide

/-- An idle engine with `DONE`, both interrupt enables, every sticky flag, and one operation to come. -/
def doneState (op : HostOp) : State :=
  { State.resetWith 256 0x40000000 with
    regs := { Regs.reset with doneIe := true, errIe := true, status := ⟨false, true, false, true, true, true, 0⟩ }
    hostQ := [op] }

theorem inv_doneState (op : HostOp) : (doneState op).Inv :=
  inv_idle _ (by simp [doneState, State.resetWith]) rfl rfl ⟨rfl, rfl⟩ rfl ⟨rfl, rfl, rfl, rfl, rfl, rfl⟩
    (by simp [doneState])

/-- An idle step and a busy step of states that meet the invariant. -/
theorem witness_EveryStepKeepsInvariant : (doneState .idle).Inv ∧ (nextOf (step (doneState .idle))).isSome = true ∧
    busyState.Inv ∧ (nextOf (step busyState)).isSome = true :=
  ⟨inv_doneState _, by decide, inv_busyState, by decide⟩

/-- `irq` falls when the host clears `DONE` (by name or by address), writes its enable to 0, starts the next command or
resets the engine. -/
theorem witness_IrqIsALevelTheHostLowers : ∀ op ∈ [HostOp.regWrite 0x00C 4 2, .busWrite 0x4000000C 4 2, .regWrite 0x010 4 2,
    .regWrite 0x014 4 0, .regWrite 0x008 4 1, .hwReset], (doneState op).Inv ∧ (doneState op).regs.irq = true ∧
      (nextOf (step (doneState op))).map (fun t => t.regs.irq) = some false := by
  intro op h
  refine ⟨inv_doneState op, rfl, ?_⟩
  fin_cases h <;> rfl

/-- The host clears every flag; a completion sets `ARITH_OVF`; a host write while busy sets `OVERRUN`; an acceptance
clears `DONE`. -/
theorem witness_StickyFlagsStayUntilCleared :
    ((doneState (.regWrite 0x00C 4 0x3E)).Inv ∧
      (nextOf (step (doneState (.regWrite 0x00C 4 0x3E)))).map (fun t => t.regs.status.read) = some 0) ∧
    ((doneState (.regWrite 0x014 4 0)).Inv ∧
      (nextOf (step (doneState (.regWrite 0x014 4 0)))).map (fun t => t.regs.status.done) = some false) ∧
    (busyState.regs.status.overrun = false ∧
      (nextOf (step { busyState with hostQ := [.regWrite 0x014 4 0] })).map (fun t => t.regs.status.overrun) = some true) ∧
    (busyState.regs.status.arithOvf = false ∧
      (nextOf (step { busyState with latencyLeft := 1, result := .ok [] { arithOvf := true } })).map
        (fun t => t.regs.status.arithOvf) = some true) :=
  ⟨⟨inv_doneState _, by decide⟩, ⟨inv_doneState _, rfl⟩, by decide, by decide⟩

/-- `BUSY` rises with the host's write, and falls with a completion or a reset. -/
theorem witness_BusyChangesOnlyByCommands :
    ((doneState (.regWrite 0x014 4 0)).Inv ∧
      (nextOf (step (doneState (.regWrite 0x014 4 0)))).map (fun t => t.regs.status.busy) = some true) ∧
    (busyState.regs.status.busy = true ∧
      (nextOf (step { busyState with latencyLeft := 1 })).map (fun t => t.regs.status.busy) = some false) ∧
    ((nextOf (step { busyState with hostQ := [.hwReset] })).map (fun t => t.regs.status.busy) = some false) :=
  ⟨⟨inv_doneState _, rfl⟩, by decide, by decide⟩

/-- A busy step in which the command stays in flight, and one in which the host resets the engine. -/
theorem witness_ConfigurationIsFrozenWhileBusy : busyState.Inv ∧ busyState.regs.status.busy = true ∧
    (nextOf (step busyState)).map (fun t => t.regs.status.busy) = some true ∧
    (nextOf (step { busyState with hostQ := [.regWrite 0x008 4 1] })).map (fun t => t.regs) = some Regs.reset :=
  ⟨inv_busyState, by decide, by decide, by decide⟩

theorem inv_racingState : racingState.Inv :=
  { inv_busyState with
    runCmd := by intro w h; cases h; decide
    idle := by intro h; cases h }

/-- The first and last byte of the footprint; and a raced command about to complete. -/
theorem witness_RacedCommandIsFreeOnlyInside : racingState.Inv ∧ racingState.run = some 0x10 ∧
    decode 0x10 = .ok .wt1Fwd ∧ (readInterval racingState.regs .wt1Fwd).contains 0 = true ∧
    (writeInterval racingState.regs .wt1Fwd).contains 3 = true ∧
    (writeInterval racingState.regs .wt1Fwd).contains 4 = false ∧ 3 < racingState.memSize ∧
    ({ racingState with raced := true, latencyLeft := 1 } : State).Inv :=
  ⟨inv_racingState, rfl, by decide, by decide, by decide, by decide, by decide,
    { inv_racingState with
      runCmd := by intro w h; cases h; decide
      idle := by intro h; cases h }⟩

/-- An idle engine whose host writes a legal, or an illegal, word. -/
theorem witness_StepRunsTheDecodedCommand : (doneState (.regWrite 0x014 4 0x12)).run = none ∧
    (doneState (.regWrite 0x014 4 0x12)).regs.status.busy = false ∧
    (doneState (.regWrite 0x014 4 0x12)).hostQ = [.regWrite 0x014 4 0x12] ∧
    WritesReg (doneState (.regWrite 0x014 4 0x12)) (.regWrite 0x014 4 0x12) 0x014 0x12 ∧
    WritesReg (doneState (.busWrite 0x40000014 4 0x12)) (.busWrite 0x40000014 4 0x12) 0x014 0x12 ∧
    decode 0x12 = .ok .wt2Fwd := ⟨rfl, rfl, rfl, .inl rfl, .inr rfl, by decide⟩

/-- An idle and a busy engine, with an operation to come and without. -/
theorem witness_StepRunsTheDecodedCommand_head : (doneState (.memWrite 5 7)).run = none ∧
    (doneState (.memWrite 5 7)).hostQ = [.memWrite 5 7] ∧ busyState.run.isSome = true ∧ 1 < busyState.latencyLeft ∧
    busyState.hostQ = [] ∧
    (nextOf (step { busyState with hostQ := [.memWrite 5 7] })).map (fun t => (t.mem, t.latencyLeft)) =
      some ([(5, 7)], 1) := by decide

theorem witness_CmdWriteIsAccepted : (doneState .idle).regs.status.busy = false ∧ decode 0x12 = .ok .wt2Fwd ∧
    decode 0x3 = .error .unknownOpcode := by decide

/-- Both outcomes waiting for delivery. -/
theorem witness_CompletionDeliversTheOutcome :
    ({ busyState with latencyLeft := 1 } : State).run = some 0x10 ∧
    ({ busyState with latencyLeft := 1 } : State).raced = false ∧
    ({ busyState with latencyLeft := 1 } : State).result = .ok [] {} ∧
    ({ busyState with latencyLeft := 1, result := .fail .cfg {} } : State).result = .fail .cfg {} := by decide

theorem witness_CommandRunsToItsCompletion : (doneState (.regWrite 0x014 4 0x12)).run = none ∧
    (doneState (.regWrite 0x014 4 0x12)).hostQ = [.regWrite 0x014 4 0x12] ∧
    WritesReg (doneState (.regWrite 0x014 4 0x12)) (.regWrite 0x014 4 0x12) 0x014 0x12 ∧ decode 0x12 = .ok .wt2Fwd :=
  ⟨rfl, rfl, .inl rfl, by decide⟩

theorem witness_IllegalWordCompletesWithBadCmd : (doneState (.regWrite 0x014 4 0x3)).run = none ∧
    (doneState (.regWrite 0x014 4 0x3)).regs.status.busy = false ∧
    (doneState (.regWrite 0x014 4 0x3)).hostQ = [.regWrite 0x014 4 0x3] ∧
    WritesReg (doneState (.regWrite 0x014 4 0x3)) (.regWrite 0x014 4 0x3) 0x014 0x3 ∧
    decode 0x3 = .error .unknownOpcode := ⟨rfl, rfl, rfl, .inl rfl, by decide⟩

/-! ## Witnesses: checks -/

/-- Intervals one after the other share no byte. -/
theorem not_aliasBad (i : Instr) (s : State)
    (h : readBase i s.regs + readLength i s.regs ≤ writeBase i s.regs ∨
      writeBase i s.regs + writeLength i s.regs ≤ readBase i s.regs) : ¬AliasBad i s := by
  cases i <;> first
    | exact fun hf => hf
    | (rintro ⟨a, ha, hb⟩; omega)

theorem checks_lzwEnc : ChecksPass .lzwEnc lzwEncState := by
  refine ⟨?_, ?_, ?_, ?_, not_aliasBad _ _ (by decide)⟩ <;> simp only [CfgBad, GeomBad, AlignBad, BusBad, RangeBad] <;>
    decide

theorem checks_lzwDec : ChecksPass .lzwDec lzwDecState := by
  refine ⟨?_, ?_, ?_, ?_, not_aliasBad _ _ (by decide)⟩ <;> simp only [CfgBad, GeomBad, AlignBad, BusBad, RangeBad] <;>
    decide


theorem checks_wt1 (i : Instr) (h : i = .wt1Fwd ∨ i = .wt1Inv) : ChecksPass i (wt1State 15 10) := by
  obtain rfl | rfl := h <;> refine ⟨?_, ?_, ?_, ?_, fun hf => hf⟩ <;>
    simp only [CfgBad, GeomBad, AlignBad, BusBad, RangeBad, CustomListOk] <;> decide +kernel

theorem checks_view (i : Instr) (h : i = .wt2Fwd ∨ i = .wt2Inv ∨ i = .qFwd ∨ i = .qInv) :
    ChecksPass i (viewState [2, 1, 2, 0]) := by
  obtain rfl | rfl | rfl | rfl := h <;> refine ⟨?_, ?_, ?_, ?_, fun hf => hf⟩ <;>
    simp only [CfgBad, GeomBad, ViewGeomBad, AlignBad, BusBad, RangeBad, CustomListOk] <;> decide +kernel

theorem checks_pack (i : Instr) (h : i = .packWrap .raster ∨ i = .packSats .raster ∨ i = .packSatu .raster) :
    ChecksPass i packState := by
  obtain rfl | rfl | rfl := h <;> refine ⟨fun hf => hf, ?_, ?_, ?_, not_aliasBad _ _ (by decide)⟩ <;>
    simp only [GeomBad, ViewGeomBad, AlignBad, BusBad, RangeBad] <;> decide +kernel

theorem checks_bandPack (i : Instr) (h : i = .packWrap .band ∨ i = .packSats .band ∨ i = .packSatu .band) :
    ChecksPass i bandPackState := by
  obtain rfl | rfl | rfl := h <;> refine ⟨fun hf => hf, ?_, ?_, ?_, not_aliasBad _ _ (by decide)⟩ <;>
    simp only [GeomBad, ViewGeomBad, AlignBad, BusBad, RangeBad] <;> decide +kernel

theorem checks_unpack (i : Instr) (h : i = .unpackU .raster ∨ i = .unpackS .raster) : ChecksPass i unpackState := by
  obtain rfl | rfl := h <;> refine ⟨fun hf => hf, ?_, ?_, ?_, not_aliasBad _ _ (by decide)⟩ <;>
    simp only [GeomBad, ViewGeomBad, AlignBad, BusBad, RangeBad] <;> decide +kernel

theorem checks_bandUnpack (i : Instr) (h : i = .unpackU .band ∨ i = .unpackS .band) :
    ChecksPass i bandUnpackState := by
  obtain rfl | rfl := h <;> refine ⟨fun hf => hf, ?_, ?_, ?_, not_aliasBad _ _ (by decide)⟩ <;>
    simp only [GeomBad, ViewGeomBad, AlignBad, BusBad, RangeBad] <;> decide +kernel

/-- Every state of these is canonical memory. -/
theorem wf_states : lzwEncState.mem.wf ∧ lzwDecState.mem.wf ∧ (wt1State 15 10).mem.wf ∧
    (viewState [2, 1, 2, 0]).mem.wf ∧ packState.mem.wf ∧ bandPackState.mem.wf ∧ unpackState.mem.wf ∧
    bandUnpackState.mem.wf := by decide +kernel

/-- Each check-phase error of an LZW or transform command, one state for each code. -/
theorem witness_FirstFailingCheckIsReported :
    FirstCheckError .lzwEnc (machine Regs.reset []) .cfg ∧
    FirstCheckError .wt1Fwd (machine Regs.reset []) .geom ∧
    FirstCheckError .wt1Fwd (machine { Regs.reset with geom := 1, srcAddr := 2 } []) .align ∧
    FirstCheckError .wt1Fwd (machine { Regs.reset with geom := 1, srcAddr := 256 } []) .bus ∧
    FirstCheckError .lzwEnc (machine { Regs.reset with lzwCfg := 9, srcLen := 1, dstCap := 1 } []) .aliasing := by
  refine ⟨.inl ⟨rfl, ?_⟩, .inr (.inl ⟨rfl, ?_, ?_⟩), .inr (.inr (.inl ⟨rfl, ?_, ?_, ?_⟩)),
    .inr (.inr (.inr (.inl ⟨rfl, ?_, ?_, ?_, ?_⟩))),
    .inr (.inr (.inr (.inr ⟨rfl, ?_, ?_, ?_, ?_, 0, ?_⟩)))⟩ <;>
    simp only [CfgBad, GeomBad, AlignBad, BusBad, RangeBad, CustomListOk] <;> decide +kernel

/-- A view with elements, the first and last byte of its intervals. -/
theorem witness_FrameOfEveryCommand : 1 ≤ packState.regs.width ∧ 1 ≤ packState.regs.height ∧
    (writeInterval packState.regs (.packWrap .raster)).contains 0x40 = true ∧
    (writeInterval packState.regs (.packWrap .raster)).contains 0x42 = true ∧
    (writeInterval packState.regs (.packWrap .raster)).contains 0x43 = false := by decide

/-- Two states that differ only outside what `LZW_ENC` reads. -/
theorem witness_OutcomeDependsOnReadIntervalOnly :
    let s' := { lzwEncState with mem := lzwEncState.mem.write 0x11 7 }
    SameConfig lzwEncState.regs s'.regs ∧ s'.memSize = lzwEncState.memSize ∧
      ∀ a, (readInterval lzwEncState.regs .lzwEnc).contains a = true → s'.mem.read a = lzwEncState.mem.read a := by
  refine ⟨by simp [SameConfig], rfl, fun a h => ?_⟩
  have ha : a = 0x10 := by
    have h' : (decide (0x10 ≤ a) && decide (a < 0x11)) = true := h
    simp only [Bool.and_eq_true, decide_eq_true_eq] at h'
    omega
  subst ha
  decide

/-! ## Witnesses: the commands -/

theorem witness_LzwEncWritesTheCodeStream : ChecksPass .lzwEnc lzwEncState ∧ lzwEncState.mem.wf ∧
    (Lzw.encodeBytes lzwEncState.regs.lzwOptions (lzwEncState.mem.readBytes 0x10 1)).length ≤ 8 :=
  ⟨checks_lzwEnc, wf_states.1, by decide +kernel⟩

/-- The output of three bytes exceeds a capacity of two. -/
theorem witness_LzwEncOverflowFails :
    let s := { lzwEncState with regs := { lzwEncState.regs with dstCap := 2 } }
    ChecksPass .lzwEnc s ∧
      2 < (Lzw.encodeBytes s.regs.lzwOptions (s.mem.readBytes s.regs.srcAddr.toNat s.regs.srcLen.toNat)).length := by
  refine ⟨⟨?_, ?_, ?_, ?_, not_aliasBad _ _ (by decide)⟩, by decide +kernel⟩ <;>
    simp only [CfgBad, GeomBad, AlignBad, BusBad, RangeBad] <;> decide

/-- The decoder ends with one byte, which `CHECK_LEN` accepts for `DST_CAP = 1` and not for 2; it ends with an error when
the capacity is 0. -/
theorem witness_LzwDecWritesTheDecodedBytes : ChecksPass .lzwDec lzwDecState ∧ lzwDecState.mem.wf ∧
    lzwDecState.regs.checkLen = true ∧
    (Lzw.decodeState lzwDecState.regs.lzwOptions 1 [0x41, 0x00, 0x02]).toOption.map (·.out.length) = some 1 ∧
    (Lzw.decodeState lzwDecState.regs.lzwOptions 2 [0x41, 0x00, 0x02]).toOption.map (·.out.length) = some 1 ∧
    (Lzw.decodeState lzwDecState.regs.lzwOptions 0 [0x41, 0x00, 0x02]).toOption.map (·.out.length) = none :=
  ⟨checks_lzwDec, wf_states.2.1, by decide, by decide +kernel, by decide +kernel, by decide +kernel⟩

/-- A full table, the code point that fills it, and one before that. -/
theorem witness_ReserveTakesOneCodePoint :
    let cfg : Lzw.Options := ⟨9, true, true⟩
    (512 = 2 ^ cfg.maxWidth) ∧ (511 ≠ 2 ^ cfg.maxWidth ∧ 511 + 1 = 2 ^ cfg.maxWidth ∧ cfg.flush = true) ∧
      (510 ≠ 2 ^ cfg.maxWidth ∧ 510 + 1 ≠ 2 ^ cfg.maxWidth) := by decide

/-- The least and the greatest `MAX_WIDTH`. -/
theorem witness_lzw_options : Lzw.Options.Ok ⟨9, false, true⟩ ∧ Lzw.Options.Ok ⟨16, true, false⟩ := by
  constructor <;> constructor <;> decide

theorem witness_EncoderTableInvariant : Lzw.Options.Ok ⟨9, false, true⟩ := witness_lzw_options.1

/-- After `AA` the entry `AA` is 257 and the match is `A`: a further `A` extends it, and `B` does not. -/
theorem witness_EncoderFollowsTheGreedyRule :
    let cfg : Lzw.Options := ⟨12, true, true⟩
    let st := [0x41, 0x41].foldl (Lzw.EncState.feed cfg) (Lzw.EncState.init cfg)
    Lzw.Options.Ok cfg ∧ st.table.lookup 257 = some [0x41, 0x41] ∧ st.table.next = 258 ∧
      (st.feed cfg 0x41).cur = some 257 ∧ (st.feed cfg 0x42).emitted = [(65, 9), (65, 9)] ∧
      (st.finish cfg).emitted = [(256, 9), (65, 9), (65, 9)] := by
  refine ⟨⟨by decide, by decide⟩, ?_⟩
  decide +kernel

/-- The pending code point, its sequence being the previous one and its first byte; the table is not full. -/
theorem witness_DecoderErrorsInOrder_pending :
    let cfg : Lzw.Options := ⟨12, true, true⟩
    let st : Lzw.DecState := ⟨⟨[], 258, 9⟩, Lzw.codeBits 257 9, [0x41], some [0x41], true⟩
    st.sequenceOf 257 = some [0x41, 0x41] ∧
      st.turn cfg 3 = .more ⟨⟨[(257, [0x41, 0x41])], 259, 9⟩, [], [0x41, 0x41, 0x41], some [0x41, 0x41], true⟩ := by
  decide +kernel

/-- Too few bits; the end code; a code too large; a code that fits and one that does not. -/
theorem witness_DecoderErrorsInOrder :
    let cfg : Lzw.Options := ⟨12, true, true⟩
    let stream := fun c : Nat => Lzw.DecState.init cfg (Lzw.codeBits c 9)
    (Lzw.DecState.init cfg []).bits.length < 9 ∧
      (stream 256).turn cfg 1 = .stop (Lzw.DecState.init cfg []) ∧ (stream 257).turn cfg 1 = .error .badCode ∧
      (stream 65).sequenceOf 65 = some [0x41] ∧ (stream 65).turn cfg 0 = .error .dstOvf := by decide +kernel

/-- A decoder that has read one code. -/
theorem witness_DecoderNeverReadsOutsideDictionary :
    ∃ st, Lzw.DecReached ⟨12, true, true⟩ 1 (Lzw.codeBits 65 9) st ∧ st.out = [0x41] ∧ st.pending = true :=
  ⟨_, .more .start (by rfl), by decide +kernel, by decide +kernel⟩

theorem witness_DecoderBoundIsNeverReached : Lzw.Options.Ok ⟨16, true, false⟩ := witness_lzw_options.2

theorem witness_LzwRoundTrip : Lzw.Options.Ok ⟨16, true, false⟩ ∧ ([0x41, 0x41] : List Byte).length ≤ 2 :=
  ⟨witness_lzw_options.2, by decide⟩

/-- The three kinds that transform. -/
theorem witness_Wt1TransformsTheVector : (wt1State 15 10).mem.wf ∧ (wt1State 15 10).regs.kind = 1 ∧
    ChecksPass .wt1Fwd (wt1State 15 10) ∧ ChecksPass .wt1Inv (wt1State 15 10) :=
  ⟨wf_states.2.2.1, by decide, checks_wt1 _ (.inl rfl), checks_wt1 _ (.inr rfl)⟩

/-- A vector with the custom step list of 42_lifting.md R208. -/
def customState : State :=
  machine { Regs.reset with
    wtCfg := 0x20003, wtScale := 0x10001, srcAddr := 0x20, srcStride := 4, geom := 2
    stepCtrl := #v[0x2, 0x103, 0, 0, 0, 0, 0, 0], stepCoef := #v[1, 1, 0, 0, 0, 0, 0, 0] } (coefBytes 0x20 [10, 20])

theorem checks_custom : ChecksPass .wt1Fwd customState ∧ customState.regs.kind = 3 ∧
    customState.regs.customLifting = haarInt := by
  refine ⟨⟨?_, ?_, ?_, ?_, fun hf => hf⟩, by decide, by decide⟩ <;>
    simp only [CfgBad, GeomBad, AlignBad, BusBad, RangeBad, CustomListOk] <;> decide +kernel

/-- `BIOR22_INT`, and the custom list in two dimensions. -/
theorem checks_other_kinds :
    ChecksPass .wt1Inv { wt1State 15 10 with regs := { (wt1State 15 10).regs with wtCfg := 2 } } ∧
    ChecksPass .wt2Fwd { viewState [] with regs := { (viewState []).regs with wtCfg := 0x102 } } ∧
    ChecksPass .wt2Inv { viewState [] with regs := { (viewState []).regs with
      wtCfg := 0x20103, wtScale := 0x10001, stepCtrl := #v[0x2, 0x103, 0, 0, 0, 0, 0, 0] } } := by
  refine ⟨⟨?_, ?_, ?_, ?_, fun hf => hf⟩, ⟨?_, ?_, ?_, ?_, fun hf => hf⟩, ⟨?_, ?_, ?_, ?_, fun hf => hf⟩⟩ <;>
    simp only [CfgBad, GeomBad, ViewGeomBad, AlignBad, BusBad, RangeBad, CustomListOk] <;> decide +kernel

theorem witness_Wt2TransformsTheView : (viewState [2, 1, 2, 0]).mem.wf ∧ (viewState [2, 1, 2, 0]).regs.kind = 1 ∧
    ChecksPass .wt2Fwd (viewState [2, 1, 2, 0]) ∧ ChecksPass .wt2Inv (viewState [2, 1, 2, 0]) :=
  ⟨wf_states.2.2.2.1, by decide, checks_view _ (.inl rfl), checks_view _ (.inr (.inl rfl))⟩

theorem witness_KindNoneChangesNoMemory :
    let s := machine { Regs.reset with srcAddr := 0x20, srcStride := 8, geom := 0x00020002 } []
    s.regs.kind = 0 ∧ ChecksPass .wt1Fwd s ∧ ChecksPass .wt1Inv s ∧ ChecksPass .wt2Fwd s ∧ ChecksPass .wt2Inv s := by
  refine ⟨by decide, ⟨?_, ?_, ?_, ?_, fun hf => hf⟩, ⟨?_, ?_, ?_, ?_, fun hf => hf⟩, ⟨?_, ?_, ?_, ?_, fun hf => hf⟩,
    ⟨?_, ?_, ?_, ?_, fun hf => hf⟩⟩ <;>
    simp only [CfgBad, GeomBad, ViewGeomBad, AlignBad, BusBad, RangeBad, CustomListOk] <;> decide +kernel

/-- Sequences of one and of two samples, and a custom list. -/
theorem witness_TransformRunsStepsInOrderAndScales : ([7] : List Int).length < 2 ∧ 2 ≤ ([10, 20] : List Int).length ∧
    customState.regs.nsteps = 2 ∧ customState.regs.nsteps ≤ 8 := by decide

theorem witness_LiftingStepActsOnOneBand : ((1 : Int) = 1 ∨ (1 : Int) = -1) ∧
    (⟨.predict, [1], 0, 0⟩ : LiftStep).tag = .predict ∧ (⟨.update, [1], 0, 1⟩ : LiftStep).tag = .update := by decide

theorem witness_HaarForwardFormula : 2 ≤ ([10, 20] : List Int).length ∧ ∀ v ∈ ([10, 20] : List Int), Coef32 v := by
  decide

theorem witness_Bior22ForwardFormula : 2 ≤ ([10, 20, -2147483648] : List Int).length ∧
    ∀ v ∈ ([10, 20, -2147483648] : List Int), Coef32 v := by decide

/-- Scales 2 and 3, no product wrapping; and the presets. -/
theorem witness_OneDimensionalRoundTrip :
    let T : Lifting := ⟨haarInt.steps, 2, 3⟩
    let lifted := (Bands.liftAll 1 T.steps ⟨evens [10, 20], odds [10, 20]⟩).1
    1 ≤ T.ka ∧ 1 ≤ T.kd ∧ (∀ v ∈ ([10, 20] : List Int), Coef32 v) ∧ (∀ v ∈ lifted.approx, Coef32 (v * T.ka)) ∧
      (∀ v ∈ lifted.detail, Coef32 (v * T.kd)) ∧ haarInt.ka = 1 ∧ haarInt.kd = 1 := by decide

theorem witness_TwoDimensionalRoundTrip : (viewState [2, 1, 2, 0]).mem.wf ∧
    ChecksPass .wt2Fwd (viewState [2, 1, 2, 0]) ∧ (viewState [2, 1, 2, 0]).regs.kind ≠ 3 :=
  ⟨wf_states.2.2.2.1, checks_view _ (.inl rfl), by decide⟩

theorem witness_PassActsOnEachColumnAndRow : IsGrid 2 2 [[1, 2], [3, 4]] ∧ 1 ≤ 2 ∧
    ∀ x : List Int, ((fun x : List Int => (x.reverse, x.length == 1)) x).1.length = x.length := by
  refine ⟨⟨rfl, by decide⟩, by decide, by simp⟩

/-- A view of one element, and the largest. -/
theorem witness_LevelsHalveRoundingUp : levelSizes 3 1 1 = [] ∧ (levelSizes 31 65535 65535).length = 16 := by decide

theorem witness_OrdersListEveryPositionOnce : bandPositions 1 2 2 = [(1, 1), (1, 0), (0, 1), (0, 0)] := by decide

/-- The least and greatest fields. -/
theorem witness_StepDescriptorDecodes : (-(2 ^ 15) ≤ (-32768 : Int) ∧ (32767 : Int) < 2 ^ 15) ∧ 15 < 16 ∧ 4 ≤ 4 ∧ 1 < 2 ∧
    ∀ j : Nat, -128 ≤ (fun j : Nat => if j = 0 then (-128 : Int) else 127) j ∧
      (fun j : Nat => if j = 0 then (-128 : Int) else 127) j < 128 := by
  refine ⟨by decide, by decide, by decide, by decide, fun j => ?_⟩
  by_cases h : j = 0 <;> simp [h]

theorem witness_StepValueIsTheFloor : let st : LiftStep := ⟨.update, [1, 1], 2, 2⟩
    ([5, -7] : List Int).length = st.taps.length ∧ st.taps.length ≤ 4 ∧ (∀ c ∈ st.taps, -128 ≤ c ∧ c < 128) ∧
      (∀ t ∈ ([5, -7] : List Int), Coef32 t) ∧ -(2 ^ 15) ≤ st.round ∧ st.round < 2 ^ 15 := by decide

theorem witness_FactorsFollowTheRecurrence : (viewState []).regs.alphaRaw ≠ 0 := by decide

theorem witness_QFwdDividesTheBands : (viewState [2, 1, 2, 0]).mem.wf ∧ ChecksPass .qFwd (viewState [2, 1, 2, 0]) :=
  ⟨wf_states.2.2.2.1, checks_view _ (.inr (.inr (.inl rfl)))⟩

theorem witness_QInvMultipliesTheBands : (viewState [2, 1, 2, 0]).mem.wf ∧ ChecksPass .qInv (viewState [2, 1, 2, 0]) :=
  ⟨wf_states.2.2.2.1, checks_view _ (.inr (.inr (.inr rfl)))⟩

theorem witness_QuantizerRoundTripBound : (viewState [2, 1, 2, 0]).mem.wf ∧
    ChecksPass .qFwd (viewState [2, 1, 2, 0]) := witness_QFwdDividesTheBands

/-- Every mode in both orders. -/
theorem witness_PackNarrowsEveryElement : packState.mem.wf ∧ bandPackState.mem.wf ∧
    ChecksPass (.packWrap .raster) packState ∧ ChecksPass (.packSats .raster) packState ∧
    ChecksPass (.packSatu .raster) packState ∧ ChecksPass (.packWrap .band) bandPackState ∧
    ChecksPass (.packSats .band) bandPackState ∧ ChecksPass (.packSatu .band) bandPackState :=
  ⟨wf_states.2.2.2.2.1, wf_states.2.2.2.2.2.1, checks_pack _ (.inl rfl), checks_pack _ (.inr (.inl rfl)),
    checks_pack _ (.inr (.inr rfl)), checks_bandPack _ (.inl rfl), checks_bandPack _ (.inr (.inl rfl)),
    checks_bandPack _ (.inr (.inr rfl))⟩

/-- Both widenings in both orders. -/
theorem witness_UnpackWidensEveryByte : unpackState.mem.wf ∧ bandUnpackState.mem.wf ∧
    ChecksPass (.unpackU .raster) unpackState ∧ ChecksPass (.unpackS .raster) unpackState ∧
    ChecksPass (.unpackU .band) bandUnpackState ∧ ChecksPass (.unpackS .band) bandUnpackState :=
  ⟨wf_states.2.2.2.2.2.2.1, wf_states.2.2.2.2.2.2.2, checks_unpack _ (.inl rfl), checks_unpack _ (.inr rfl),
    checks_bandUnpack _ (.inl rfl), checks_bandUnpack _ (.inr rfl)⟩

/-- What `PACK.SATS` of the band-order view leaves, its bytes then unpacked to `0x60`. -/
def repackedState : State :=
  let t := (nextOf (exec (.packSats .band) bandPackState)).getD bandPackState
  { t with regs := { t.regs with
    srcAddr := t.regs.dstAddr, srcStride := t.regs.dstStride, dstAddr := 0x60, dstStride := 8 } }

/-- The second command's checks pass on what the first leaves, and the two restore the view. -/
theorem witness_PackUnpackRoundTrip : ChecksPass (.packSats .band) bandPackState ∧ bandPackState.mem.wf ∧
    ChecksPass (.unpackS .band) repackedState ∧
    coefsAfter (.unpackS .band) repackedState 0x60 4 = some ([-126, 0, 1, 0], 4, 1, 0x2) := by
  refine ⟨checks_bandPack _ (.inr (.inl rfl)), wf_states.2.2.2.2.2.1,
    ⟨fun hf => hf, ?_, ?_, ?_, not_aliasBad _ _ (by decide +kernel)⟩, by decide +kernel⟩ <;>
    simp only [GeomBad, ViewGeomBad, AlignBad, BusBad, RangeBad] <;> decide +kernel

end Sys2Proof.Tests
end

section
/-! Host register accesses the engine decodes, and the write of `STATUS` (10_state.md R22, R23, R28). -/

namespace Sys2Proof.Machine

/-- An aligned 32-bit access inside the block is decoded (R22, R23). -/
theorem decodedAccess_of_decoded {offset : Nat} (hin : offset < 0x0C0) (halign : offset % 4 = 0)
    (act : Host.Outcome State Fault Refusal) : decodedAccess offset 4 act = act := by
  have hblock : ¬0x0C0 ≤ offset := by omega
  have hshape : ¬(4 ≠ 4 ∨ offset % 4 ≠ 0) := by omega
  rw [decodedAccess, if_neg hblock, if_neg hshape]

/-- A decoded write at a mapped offset is the write of the register there. -/
theorem State.hostRegWrite_of_mapped {offset : Nat} {reg : Reg} (hin : offset < 0x0C0) (halign : offset % 4 = 0)
    (hreg : Reg.ofOffset offset = some reg) (s : State) (v : Word) :
    s.hostRegWrite offset 4 v = s.writeReg reg v := by
  rw [State.hostRegWrite, decodedAccess_of_decoded hin halign, hreg]

theorem Reg.ofOffset_status : Reg.ofOffset 0x00C = some .status := by decide

/-- The write of `STATUS` is honoured whether or not the engine is busy (R28, R149). -/
@[simp] theorem State.writeReg_status (s : State) (v : Word) :
    s.writeReg .status v = .next { s with regs := { s.regs with status := s.regs.status.writeClear v } } := rfl

/-- Settles O4: offset `0x00C` is decoded and holds `STATUS`, and its write replaces `STATUS` by `writeClear`, which is R28's
update of the five bits. -/
theorem statusWriteClearsOnlyItsBits : Obligations.StatusWriteClearsOnlyItsBits := by
  intro s v
  calc s.hostOp (.regWrite 0x00C 4 v)
      = s.writeReg .status v :=
        State.hostRegWrite_of_mapped (by decide) (by decide) Reg.ofOffset_status s v
    _ = .next { s with regs := { s.regs with status := s.regs.status.writeClear v } } := s.writeReg_status v

end Sys2Proof.Machine
end

section
/-! Regions, band order and raster order (30_encoding.md R113, R114; 42_lifting.md R220, R221). -/

namespace Sys2Proof.Machine

/-- `ps` lists every position of a `w x h` view exactly once (R113). -/
structure ListsOnce (ps : List (Nat × Nat)) (w h : Nat) : Prop where
  nodup : ps.Nodup
  mem_iff : ∀ r c, (r, c) ∈ ps ↔ r < h ∧ c < w

/-- Two such lists are rearrangements of each other. -/
theorem ListsOnce.perm {ps qs : List (Nat × Nat)} {w h : Nat} (hps : ListsOnce ps w h) (hqs : ListsOnce qs w h) :
    ps.Perm qs :=
  (List.perm_ext_iff_of_nodup hps.nodup hqs.nodup).mpr fun ⟨r, c⟩ => (hps.mem_iff r c).trans (hqs.mem_iff r c).symm

/-! ## The positions of a region -/

/-- Rows of `b` entries end to end: entry `k` is that of row `k / b`, column `k % b`. -/
theorem flatten_rows_eq_map_range {α : Type} (f : Nat → Nat → α) (a b : Nat) :
    ((List.range a).map fun i => (List.range b).map (f i)).flatten =
      (List.range (a * b)).map fun k => f (k / b) (k % b) := by
  induction a with
  | zero => simp
  | succ a ih =>
    have hrow : (List.range b).map (f a) = (List.range b).map fun j => f ((a * b + j) / b) ((a * b + j) % b) := by
      refine List.map_congr_left fun j hj => ?_
      have hj : j < b := List.mem_range.mp hj
      rw [Nat.mul_comm a b, Nat.mul_add_div (by omega), Nat.mul_add_mod, Nat.div_eq_of_lt hj, Nat.mod_eq_of_lt hj,
        Nat.add_zero]
    rw [List.range_succ, List.map_append, List.flatten_append, ih, Nat.succ_mul, List.range_add, List.map_append,
      List.map_map, List.map_singleton, List.flatten_singleton, hrow]
    rfl

/-- `rowmajor(region)` by index (R113). -/
theorem Region.positions_eq_map_range (g : Region) :
    g.positions = (List.range ((g.r1 - g.r0) * (g.c1 - g.c0))).map fun k =>
      (g.r0 + k / (g.c1 - g.c0), g.c0 + k % (g.c1 - g.c0)) :=
  flatten_rows_eq_map_range (fun i j => (g.r0 + i, g.c0 + j)) _ _

@[simp] theorem Region.length_positions (g : Region) : g.positions.length = (g.r1 - g.r0) * (g.c1 - g.c0) := by
  rw [g.positions_eq_map_range, List.length_map, List.length_range]

/-- Quotient and remainder determine the index. -/
theorem Region.nodup_positions (g : Region) : g.positions.Nodup := by
  rw [g.positions_eq_map_range]
  refine List.nodup_range.map fun k l hkl => ?_
  obtain ⟨hquot, hrem⟩ := Prod.mk.inj hkl
  rw [← Nat.div_add_mod k (g.c1 - g.c0), Nat.add_left_cancel hquot, Nat.add_left_cancel hrem, Nat.div_add_mod]

@[simp] theorem Region.mem_positions {g : Region} {r c : Nat} :
    (r, c) ∈ g.positions ↔ (g.r0 ≤ r ∧ r < g.r1) ∧ g.c0 ≤ c ∧ c < g.c1 := by
  have hoffset : ∀ lo hi n : Nat, (∃ i < hi - lo, lo + i = n) ↔ lo ≤ n ∧ n < hi := fun lo hi n =>
    ⟨fun ⟨i, hi, hn⟩ => by omega, fun hn => ⟨n - lo, by omega, by omega⟩⟩
  rw [← hoffset, ← hoffset]
  simp only [Region.positions, List.mem_flatten, List.mem_map, List.mem_range, exists_exists_and_eq_and, Prod.mk.injEq]
  constructor
  · rintro ⟨i, hi, j, hj, hr, hc⟩
    exact ⟨⟨i, hi, hr⟩, j, hj, hc⟩
  · rintro ⟨⟨i, hi, hr⟩, j, hj, hc⟩
    exact ⟨i, hi, j, hj, hr, hc⟩

/-! ## Raster order -/

theorem listsOnce_rasterPositions (w h : Nat) : ListsOnce (rasterPositions w h) w h where
  nodup := Region.nodup_positions _
  mem_iff r c := by
    have hregion : (r, c) ∈ rasterPositions w h ↔ (0 ≤ r ∧ r < h) ∧ 0 ≤ c ∧ c < w := Region.mem_positions
    rw [hregion]
    omega

theorem length_rasterPositions (w h : Nat) : (rasterPositions w h).length = w * h :=
  (Region.length_positions _).trans (Nat.mul_comm h w)

/-! ## The detail bands of one level -/

theorem halfUp_le (n : Nat) : halfUp n ≤ n := by
  change (n + 1) / 2 ≤ n
  omega

theorem mem_diagonal {w h r c : Nat} :
    (r, c) ∈ (diagonalRegion (w, h)).positions ↔ (halfUp h ≤ r ∧ r < h) ∧ halfUp w ≤ c ∧ c < w :=
  Region.mem_positions

theorem mem_horizontal {w h r c : Nat} :
    (r, c) ∈ (horizontalRegion (w, h)).positions ↔ (halfUp h ≤ r ∧ r < h) ∧ 0 ≤ c ∧ c < halfUp w :=
  Region.mem_positions

theorem mem_vertical {w h r c : Nat} :
    (r, c) ∈ (verticalRegion (w, h)).positions ↔ (0 ≤ r ∧ r < halfUp h) ∧ halfUp w ≤ c ∧ c < w :=
  Region.mem_positions

theorem detailPositions_eq (wh : Nat × Nat) : detailPositions wh =
    (diagonalRegion wh).positions ++ (horizontalRegion wh).positions ++ (verticalRegion wh).positions := rfl

/-- The detail bands hold what is outside the level's approximation block. -/
theorem mem_detailPositions {w h r c : Nat} :
    (r, c) ∈ detailPositions (w, h) ↔ (r < h ∧ c < w) ∧ ¬(r < halfUp h ∧ c < halfUp w) := by
  have hw := halfUp_le w
  have hh := halfUp_le h
  rw [detailPositions_eq, List.mem_append, List.mem_append, mem_diagonal, mem_horizontal, mem_vertical]
  omega

/-- The three detail bands are disjoint. -/
theorem nodup_detailPositions (w h : Nat) : (detailPositions (w, h)).Nodup := by
  rw [detailPositions_eq]
  refine ((Region.nodup_positions _).append (Region.nodup_positions _) ?_).append (Region.nodup_positions _) ?_
  · rintro ⟨r, c⟩ hdiagonal hhorizontal
    rw [mem_diagonal] at hdiagonal
    rw [mem_horizontal] at hhorizontal
    omega
  · rintro ⟨r, c⟩ hleft hvertical
    rw [List.mem_append, mem_diagonal, mem_horizontal] at hleft
    rw [mem_vertical] at hvertical
    omega

/-- The detail bands followed by a list of the approximation block list the level's block. -/
theorem ListsOnce.detailPositions_append {ps : List (Nat × Nat)} {w h : Nat}
    (hps : ListsOnce ps (halfUp w) (halfUp h)) : ListsOnce (detailPositions (w, h) ++ ps) w h where
  nodup := by
    refine (nodup_detailPositions w h).append hps.nodup ?_
    rintro ⟨r, c⟩ hdetail happrox
    exact (mem_detailPositions.mp hdetail).2 ((hps.mem_iff r c).mp happrox)
  mem_iff r c := by
    have hw := halfUp_le w
    have hh := halfUp_le h
    rw [List.mem_append, mem_detailPositions, hps.mem_iff]
    omega

/-! ## Band order -/

theorem bandPositions_zero (w h : Nat) : bandPositions 0 w h = rasterPositions w h := rfl

/-- A view of one element has no level. -/
theorem bandPositions_one_one (iter : Nat) : bandPositions iter 1 1 = rasterPositions 1 1 := by
  cases iter <;> rfl

/-- The outermost level's detail bands, then the band order of its approximation block (R113). -/
theorem bandPositions_succ (iter : Nat) {w h : Nat} (hwh : ¬(w = 1 ∧ h = 1)) :
    bandPositions (iter + 1) w h = detailPositions (w, h) ++ bandPositions iter (halfUp w) (halfUp h) := by
  rw [bandPositions, levelSizes, finalBlock, if_neg hwh, if_neg hwh, List.map_cons, List.flatten_cons,
    List.append_assoc, bandPositions]

theorem listsOnce_bandPositions (iter w h : Nat) : ListsOnce (bandPositions iter w h) w h := by
  induction iter generalizing w h with
  | zero => exact listsOnce_rasterPositions w h
  | succ iter ih =>
    by_cases hone : w = 1 ∧ h = 1
    · obtain ⟨rfl, rfl⟩ := hone
      rw [bandPositions_one_one]
      exact listsOnce_rasterPositions 1 1
    · rw [bandPositions_succ iter hone]
      exact (ih (halfUp w) (halfUp h)).detailPositions_append

/-- Settles O51: band order unfolds level by level, and as a permutation of raster order it lists each of the `W*H`
positions once. -/
theorem ordersListEveryPositionOnce : Obligations.OrdersListEveryPositionOnce := by
  intro iter w h _ _ rowMajor aw ah
  have hrows : ∀ g : Region, g.positions = rowMajor g.r0 g.r1 g.c0 g.c1 := Region.positions_eq_map_range
  have hraster : ∀ u v : Nat, rasterPositions u v = rowMajor 0 v 0 u := fun u v => hrows (finalRegion (u, v))
  have hband := listsOnce_bandPositions iter w h
  refine ⟨?_, ?_, ?_, hband.nodup, ?_, hband.mem_iff, hraster w h⟩
  · rw [bandPositions_zero, hraster]
  · rintro rfl rfl
    rw [bandPositions_one_one, hraster]
  · intro hwh
    rw [bandPositions_succ iter (by omega), detailPositions_eq, hrows, hrows, hrows]
    rfl
  · rw [(hband.perm (listsOnce_rasterPositions w h)).length_eq, length_rasterPositions]

end Sys2Proof.Machine
end

section
/-! The bit fields of a word built from an integer, and custom step descriptors (30_encoding.md R109). -/

namespace Sys2Proof

/-- The bits `[hi:lo]` of the two's-complement word of `v`: the wrap at 32 bits reaches none of them. -/
theorem bitsOf_ofInt (v : Int) {hi lo : Nat} (hle : lo ≤ hi) (hhi : hi < 32) :
    (bitsOf (BitVec.ofInt 32 v) hi lo : Int) = v / 2 ^ lo % 2 ^ (hi + 1 - lo) := by
  have hword : ((BitVec.ofInt 32 v).toNat : Int) = v % 2 ^ 32 := by
    rw [BitVec.toNat_ofInt]
    exact Int.toNat_of_nonneg (Int.emod_nonneg v (by decide))
  have hwrap : v = v % 2 ^ 32 + 2 ^ lo * (2 ^ (hi + 1 - lo) * (2 ^ (31 - hi) * (v / 2 ^ 32))) := by
    have hpow : (2 : Int) ^ lo * 2 ^ (hi + 1 - lo) * 2 ^ (31 - hi) = 2 ^ 32 := by
      rw [← pow_add, ← pow_add]
      congr 1
      omega
    rw [← mul_assoc, ← mul_assoc, hpow, Int.emod_add_mul_ediv]
  calc (bitsOf (BitVec.ofInt 32 v) hi lo : Int)
      = v % 2 ^ 32 / 2 ^ lo % 2 ^ (hi + 1 - lo) := by
        rw [← hword, bitsOf, Int.natCast_emod, Int.natCast_ediv, Nat.cast_pow, Nat.cast_pow, Nat.cast_ofNat]
    _ = v / 2 ^ lo % 2 ^ (hi + 1 - lo) := by
        conv_rhs => rw [hwrap, Int.add_mul_ediv_left _ _ (pow_ne_zero lo two_ne_zero), Int.add_mul_emod_self_left]

end Sys2Proof

namespace Sys2Proof.Machine

/-- `sext_n` undoes the reduction modulo `2^n` of a number that `n` bits hold (00_scope.md R8). -/
theorem sext_of_eq_emod {n m : Nat} {v : Int} (hn : 0 < n) (hm : (m : Int) = v % 2 ^ n) (hlo : -(2 ^ (n - 1)) ≤ v)
    (hhi : v < 2 ^ (n - 1)) : sext n m = v := by
  have hpow : (2 : Int) ^ n = 2 * 2 ^ (n - 1) := by rw [← pow_succ', Nat.sub_add_cancel hn]
  have hhalf : m < 2 ^ (n - 1) ↔ (m : Int) < 2 ^ (n - 1) := by
    rw [← Int.ofNat_lt, Nat.cast_pow, Nat.cast_ofNat]
  rw [sext, ite_cond_congr (propext hhalf), hm]
  by_cases hneg : v < 0
  · have hmod : v % 2 ^ n = v + 2 ^ n := by
      rw [← Int.add_emod_right, Int.emod_eq_of_lt (by omega) (by omega)]
    rw [if_neg (by omega)]
    omega
  · rw [Int.emod_eq_of_lt (by omega) (by omega), if_pos hhi]

/-- Settles O52: each field is read back from its own bits of the integer it was packed into, and `sext` restores the
signed ones. -/
theorem stepDescriptorDecodes : Obligations.StepDescriptorDecodes := by
  intro r s P tag c hrlo hrhi hs hP htagLt hc ctrl coef
  have hfield : ∀ hi lo f : Nat, lo ≤ hi → hi < 32 →
      (r * 2 ^ 16 + s * 2 ^ 8 + P * 2 + tag) / 2 ^ lo % 2 ^ (hi + 1 - lo) = f → bitsOf ctrl hi lo = f := by
    intro hi lo f hle hhi hf
    exact Int.natCast_inj.mp ((bitsOf_ofInt _ hle hhi).trans hf)
  have htag : bitsOf ctrl 0 0 = tag := hfield 0 0 tag (by decide) (by decide) (by rw [pow_zero, Int.ediv_one]; omega)
  have hntaps : bitsOf ctrl 3 1 = P := hfield 3 1 P (by decide) (by decide) (by omega)
  have hshift : bitsOf ctrl 11 8 = s := hfield 11 8 s (by decide) (by decide) (by omega)
  have hround : sext 16 (bitsOf ctrl 31 16) = r := by
    refine sext_of_eq_emod (by decide) ?_ hrlo hrhi
    rw [bitsOf_ofInt _ (by decide) (by decide)]
    omega
  have hcoef : ∀ j < 4, stepCoefAt coef j = c j := by
    intro j hj
    have hcases : j = 0 ∨ j = 1 ∨ j = 2 ∨ j = 3 := by omega
    refine sext_of_eq_emod (by decide) ?_ (hc j).1 (hc j).2
    rw [bitsOf_ofInt _ (by omega) (by omega)]
    rcases hcases with rfl | rfl | rfl | rfl <;> omega
  have htaps : (List.range P).map (stepCoefAt coef) = (List.range P).map c :=
    List.map_congr_left fun j hj => hcoef j ((List.mem_range.mp hj).trans_le hP)
  refine ⟨?_, hcoef⟩
  rw [decodeStep, stepTag, stepNTaps, htag, hntaps, hshift, hround, htaps]

end Sys2Proof.Machine
end

section
/-! Host register writes while the engine is busy (40_control.md R149). -/

namespace Sys2Proof.Machine

/-- The registers a host write leaves alone (10_state.md R21, R147). -/
def readOnlyRegs : List Reg := [.id, .version, .outLen, .lzwNext, .lzwWidth, .levels]

/-- A decoded write at an unmapped offset is ignored (R22). -/
theorem State.hostRegWrite_of_unmapped {offset : Nat} (hin : offset < 0x0C0) (halign : offset % 4 = 0)
    (hreg : Reg.ofOffset offset = none) (s : State) (v : Word) : s.hostRegWrite offset 4 v = .next s := by
  rw [State.hostRegWrite, decodedAccess_of_decoded hin halign, hreg]

/-- The write of `IRQ_EN` is honoured whether or not the engine is busy. -/
@[simp] theorem State.writeReg_irqEn (s : State) (v : Word) :
    s.writeReg .irqEn v = .next { s with regs := { s.regs with doneIe := v.getLsbD 0, errIe := v.getLsbD 1 } } := rfl

/-- The write of `CTRL` is honoured whether or not the engine is busy (R341). -/
@[simp] theorem State.writeReg_ctrl (s : State) (v : Word) :
    s.writeReg .ctrl v = .next (if v.getLsbD 0 then s.resetEngine else s) := rfl

theorem State.writeReg_of_readOnly {reg : Reg} (hro : reg ∈ readOnlyRegs) (s : State) (v : Word) :
    s.writeReg reg v = .next s := by
  simp only [readOnlyRegs, List.mem_cons, List.not_mem_nil, or_false] at hro
  rcases hro with rfl | rfl | rfl | rfl | rfl | rfl <;> rfl

/-- A busy engine drops the action and records the overrun. -/
theorem State.whenIdle_of_busy {s : State} (hbusy : s.regs.status.busy = true)
    (act : Host.Outcome State Fault Refusal) :
    s.whenIdle act = .next { s with regs := { s.regs with status := s.regs.status.setOverrun } } :=
  if_pos hbusy

/-- Every register with a mask other than `IRQ_EN` is a configuration register, written only while the engine is idle. -/
theorem State.writeReg_of_config {reg : Reg} (hirq : reg ≠ .irqEn) (hmask : (regMask reg).isSome) (s : State)
    (v : Word) : s.writeReg reg v = s.whenIdle (.next { s with regs := s.regs.storeConfig reg v }) := by
  cases reg with
  | irqEn => exact absurd rfl hirq
  | id | version | ctrl | status | cmd | outLen | lzwNext | lzwWidth | levels => cases hmask
  | srcAddr | srcLen | srcStride | dstAddr | dstCap | dstStride | geom | lzwCfg | wtCfg | wtScale | qFactor | qAlpha
  | qBeta | stepCtrl k | stepCoef k => rfl

/-- A busy engine ignores a write of `CMD` or a configuration register and sets `OVERRUN`. -/
theorem State.writeReg_ignored_of_busy {s : State} {reg : Reg} (hbusy : s.regs.status.busy = true)
    (hreg : reg = .cmd ∨ (reg ≠ .irqEn ∧ (regMask reg).isSome)) (v : Word) :
    s.writeReg reg v = .next { s with regs := { s.regs with status := s.regs.status.setOverrun } } := by
  obtain rfl | ⟨hirq, hmask⟩ := hreg
  · exact State.whenIdle_of_busy hbusy (s.startCommand v)
  · rw [State.writeReg_of_config hirq hmask, State.whenIdle_of_busy hbusy]

/-- Settles O6: the offset is decoded, so each clause is the write of the register there, and only the registers that
`whenIdle` guards see that the engine is busy. -/
theorem busyEngineIgnoresWrites : Obligations.BusyEngineIgnoresWrites := by
  intro s offset v hin halign hbusy
  have hwrite : ∀ {reg : Reg}, Reg.ofOffset offset = some reg →
      s.hostOp (.regWrite offset 4 v) = s.writeReg reg v :=
    fun hreg => State.hostRegWrite_of_mapped hin halign hreg s v
  refine ⟨?ignored, ?irqEn, ?status, ?ctrl, ?dropped⟩
  case ignored =>
    intro reg hreg hguarded
    exact (hwrite hreg).trans (State.writeReg_ignored_of_busy hbusy hguarded v)
  case irqEn =>
    intro hreg
    exact (hwrite hreg).trans (s.writeReg_irqEn v)
  case status =>
    intro hreg
    exact ⟨_, (hwrite hreg).trans (s.writeReg_status v), rfl, hbusy, rfl, rfl, rfl, rfl, rfl, rfl⟩
  case ctrl =>
    intro hreg
    refine ⟨_, (hwrite hreg).trans (s.writeReg_ctrl v), fun hsrst => ?_, fun hsrst => ?_⟩
    · rw [if_pos hsrst]
      exact ⟨s.resetEngine_regs, s.resetEngine_run⟩
    · rw [hsrst, if_neg Bool.false_ne_true]
  case dropped =>
    rintro (hnone | hro)
    · exact State.hostRegWrite_of_unmapped hin halign hnone s v
    · obtain ⟨reg, hmem, hreg⟩ : ∃ reg ∈ readOnlyRegs, some reg = Reg.ofOffset offset := List.mem_map.mp hro
      exact (hwrite hreg.symm).trans (State.writeReg_of_readOnly hmem s v)

end Sys2Proof.Machine
end

section
/-! What completions leave, in the words of the obligations (40_control.md R145, 60_exceptions.md R304, R306), and the
checks on byte ranges (20_memory.md R76, R80). -/

namespace Sys2Proof.Machine

/-- A success leaves the registers of R145 and an idle engine. -/
theorem State.completedWith_ok (s : State) (ws : List Host.Cell) (o : Outs) :
    CompletedWith s (s.complete (.ok ws o)) (s.regs.succeed o) :=
  ⟨rfl, rfl, rfl, rfl, rfl, rfl, rfl, rfl, rfl⟩

/-- The registers an error completion leaves are those of R306. -/
theorem State.complete_failWith_regs (s : State) (i : Instr) (e : ErrCode) :
    (s.complete (failWith s.regs i e)).regs = regsAfterError i e s.regs := by
  refine (s.complete_fail_regs e _).trans ?_
  cases i <;> rfl

/-- An error leaves the registers of R306 and an idle engine. -/
theorem State.completedWith_failWith (s : State) (i : Instr) (e : ErrCode) :
    CompletedWith s (s.complete (failWith s.regs i e)) (regsAfterError i e s.regs) :=
  ⟨s.complete_failWith_regs i e, rfl, rfl, rfl, State.complete_fail_memSize .., State.complete_fail_mmioBase ..,
    State.complete_fail_latencies .., State.complete_fail_hostQ .., State.complete_fail_hostData ..⟩

/-- An error frees at most the bytes of the write interval (R304). -/
theorem State.sameOutside_failWith (s : State) {i : Instr} {base len : Nat}
    (hwrite : writeInterval s.regs i = byteRange base len) (e : ErrCode) :
    SameOutside s (s.complete (failWith s.regs i e)) base len := by
  obtain ⟨o, hfail, hscratch⟩ := failWith_eq s.regs i e
  intro a ha
  rw [hfail, State.complete_fail_mem, hscratch]
  refine s.scramble_read_outside _ ?_
  split
  · rwa [hwrite]
  · exact fun h => Nat.not_lt_zero a h.2

/-- A success that writes consecutive bytes leaves them in memory. -/
theorem State.read_complete_cellsAt {s : State} (hwf : s.mem.wf) (addr : Nat) (bytes : List Byte) (o : Outs) {j : Nat}
    (hj : j < bytes.length) : (s.complete (.ok (cellsAt addr bytes) o)).mem.read (addr + j) = bytes.getD j 0 := by
  have hcell : (addr + j, bytes[j]) ∈ cellsAt addr bytes := mem_cellsAt.mpr ⟨j, hj, rfl⟩
  rw [State.complete_ok_mem, Memory.read_writeAll_mem hwf (nodup_cellsAt addr bytes) hcell,
    List.getD_eq_getElem _ _ hj]

/-- A success that writes consecutive bytes changes no other. -/
theorem State.sameOutside_cellsAt (s : State) (addr : Nat) (bytes : List Byte) (o : Outs) :
    SameOutside s (s.complete (.ok (cellsAt addr bytes) o)) addr bytes.length := by
  intro a ha
  refine s.complete_read_other (.ok _ _) fun c hc heq => ha ?_
  exact heq ▸ addr_of_mem_cellsAt hc

/-- R76 on a range of bytes. -/
theorem inMemory_byteRange {base len memSize : Nat} :
    (byteRange base len).inMemory memSize = true ↔ ¬RangeBad base len memSize := by
  simp only [Interval.inMemory, RangeBad, Bool.or_eq_true, decide_eq_true_eq, beq_iff_eq]
  simp only [byteRange]
  omega

/-- R80 on two ranges of bytes: the larger base is a shared byte when there is one. -/
theorem overlaps_byteRange {a n b m : Nat} : (byteRange a n).overlaps (byteRange b m) = true ↔
    ∃ x, (a ≤ x ∧ x < a + n) ∧ (b ≤ x ∧ x < b + m) := by
  simp only [Interval.overlaps, Interval.isEmpty, Bool.and_eq_true, Bool.not_eq_true', decide_eq_false_iff_not,
    decide_eq_true_eq]
  simp only [byteRange]
  constructor
  · intro h
    exact ⟨max a b, by omega⟩
  · rintro ⟨x, hx⟩
    omega

/-- The checks of a command whose intervals are ranges of bytes see no byte outside memory. -/
theorem badFootprint_of_byteRange {s : State} {i : Instr}
    (hread : readInterval s.regs i = byteRange (readBase i s.regs) (readLength i s.regs))
    (hwrite : writeInterval s.regs i = byteRange (writeBase i s.regs) (writeLength i s.regs)) (hbus : ¬BusBad i s) :
    badFootprint s.regs s.memSize i = false := by
  obtain ⟨hr, hw⟩ := not_or.mp hbus
  rw [badFootprint, hread, hwrite, inMemory_byteRange.mpr hr, inMemory_byteRange.mpr hw]
  rfl

end Sys2Proof.Machine
end

section
/-! `LZW_ENC` and `LZW_DEC` as commands (41_lzw.md R169, R171 to R173, R175, R177). -/

namespace Sys2Proof.Machine

/-- An LZW command whose checks pass, in the sense of the rules, passes those of the model (R160, R169, R173). -/
theorem lzwChecks_pass {i : Instr} {s : State} (hlzw : i = .lzwEnc ∨ i = .lzwDec) (h : ChecksPass i s) :
    ∀ c ∈ lzwChecks s i, c.1 = false := by
  obtain ⟨hcfg, -, -, hbus, halias⟩ := h
  have hwidth : badMaxWidth s.regs = false := by
    have hrange : ¬(s.regs.maxWidth < 9 ∨ 16 < s.regs.maxWidth) := by
      obtain rfl | rfl := hlzw <;> exact hcfg
    simpa [badMaxWidth] using hrange
  have hfootprint : badFootprint s.regs s.memSize i = false := by
    obtain rfl | rfl := hlzw <;> exact badFootprint_of_byteRange rfl rfl hbus
  have haliasing : badAliasing s.regs i = false := by
    refine Bool.eq_false_iff.mpr fun hoverlap => halias ?_
    obtain rfl | rfl := hlzw <;> exact overlaps_byteRange.mp hoverlap
  simp [lzwChecks, hwidth, hfootprint, haliasing]

/-- `LZW_ENC` with its checks passed is its execution phase. -/
theorem exec_lzwEnc_of_pass {s : State} (h : ChecksPass .lzwEnc s) :
    exec .lzwEnc s = .next (s.complete (runLzwEnc s)) :=
  congrArg (Host.Outcome.next <| s.complete ·) (checked_of_pass (lzwChecks_pass (.inl rfl) h))

/-- `LZW_DEC` with its checks passed is its execution phase. -/
theorem exec_lzwDec_of_pass {s : State} (h : ChecksPass .lzwDec s) :
    exec .lzwDec s = .next (s.complete (runLzwDec s)) :=
  congrArg (Host.Outcome.next <| s.complete ·) (checked_of_pass (lzwChecks_pass (.inr rfl) h))

/-- An output within `DST_CAP` is written (R171). -/
theorem runLzwEnc_of_le {s : State}
    (h : (Lzw.encodeBytes s.regs.lzwOptions (lzwInput s)).length ≤ s.regs.dstCap.toNat) :
    runLzwEnc s = lzwOk s (Lzw.encodeBytes s.regs.lzwOptions (lzwInput s))
      (Lzw.encodeState s.regs.lzwOptions (lzwInput s)).table :=
  if_neg (Nat.not_lt.mpr h)

/-- What `LZW_DEC` makes of the decoder's error (R175). -/
theorem runLzwDec_of_error {s : State} {e : ErrCode}
    (h : Lzw.decodeState s.regs.lzwOptions s.regs.dstCap.toNat (lzwInput s) = .error e) :
    runLzwDec s = failWith s.regs .lzwDec e := by
  rw [runLzwDec, h]

/-- What `LZW_DEC` makes of a decoded output: `CHECK_LEN` objects to a length other than `DST_CAP` (R173). -/
theorem runLzwDec_of_ok {s : State} {st : Lzw.DecState}
    (h : Lzw.decodeState s.regs.lzwOptions s.regs.dstCap.toNat (lzwInput s) = .ok st) :
    runLzwDec s = if s.regs.checkLen = true ∧ st.out.length ≠ s.regs.dstCap.toNat then failWith s.regs .lzwDec .len
      else lzwOk s st.out st.table := by
  simp [runLzwDec, h]

/-- The completion of a successful LZW command (R172, R177): its output stands at `DST_ADDR`, every other byte is as
before, and the result registers describe the output and the table. -/
theorem State.complete_lzwOk {s : State} (hwf : s.mem.wf) (out : List Byte) (t : Lzw.Table) :
    (∀ j < out.length, (s.complete (lzwOk s out t)).mem.read (s.regs.dstAddr.toNat + j) = out.getD j 0) ∧
    SameOutside s (s.complete (lzwOk s out t)) s.regs.dstAddr.toNat out.length ∧
    CompletedWith s (s.complete (lzwOk s out t)) { s.regs with
      outLen := BitVec.ofNat 32 out.length
      lzwNext := BitVec.ofNat 17 t.next
      lzwWidth := BitVec.ofNat 5 t.width
      status := statusAfterOk s.regs.status false false } :=
  ⟨fun _ hj => State.read_complete_cellsAt hwf _ out _ hj, s.sameOutside_cellsAt _ out _, s.completedWith_ok _ _⟩

/-- Settles O28: the checks pass and the output fits, so the execution phase is the success of R172. -/
theorem lzwEncWritesTheCodeStream : Obligations.LzwEncWritesTheCodeStream := by
  intro s hpass input fin out hwf hfits
  have hexec : exec .lzwEnc s = .next (s.complete (lzwOk s out fin.table)) := by
    rw [exec_lzwEnc_of_pass hpass, runLzwEnc_of_le hfits]
    rfl
  exact ⟨_, hexec, State.complete_lzwOk hwf out fin.table⟩

/-- Settles O30: the checks pass, so the execution phase is decided by the decoder's answer and by `CHECK_LEN`. -/
theorem lzwDecWritesTheDecodedBytes : Obligations.LzwDecWritesTheDecodedBytes := by
  intro s hpass hwf dst cap input
  have hexec := exec_lzwDec_of_pass hpass
  have hfail : ∀ e, runLzwDec s = failWith s.regs .lzwDec e → ∃ t, exec .lzwDec s = .next t ∧
      SameOutside s t dst cap ∧ CompletedWith s t (regsAfterError .lzwDec e s.regs) := fun e hrun =>
    ⟨_, hrun ▸ hexec, s.sameOutside_failWith rfl e, s.completedWith_failWith .lzwDec e⟩
  refine ⟨fun st hst => ⟨fun hlen => ?accepted, fun hcheck hlen => ?objected⟩, fun e herr => ?failed⟩
  case accepted =>
    have hrun := (runLzwDec_of_ok hst).trans (if_neg fun h => h.2 (hlen h.1))
    exact ⟨_, hrun ▸ hexec, State.complete_lzwOk hwf st.out st.table⟩
  case objected => exact hfail .len ((runLzwDec_of_ok hst).trans (if_pos ⟨hcheck, hlen⟩))
  case failed => exact hfail e (runLzwDec_of_error herr)

end Sys2Proof.Machine
end

section
/-! The table of the LZW coder: `grow()` and `reserve(e)` (41_lzw.md R162 to R165). -/

namespace Sys2Proof.Machine.Lzw

theorem Table.full_iff {cfg : Options} {t : Table} : t.full cfg = true ↔ t.next = 2 ^ cfg.maxWidth := by
  simp [Table.full]

/-- The width `grow()` leaves (R164). -/
def Table.grownWidth (cfg : Options) (t : Table) : Nat :=
  if cfg.dynamic = true ∧ t.width < cfg.maxWidth ∧ t.next = 2 ^ t.width then t.width + 1 else t.width

/-- `grow()` changes the width alone. -/
theorem Table.grow_eq (cfg : Options) (t : Table) : t.grow cfg = { t with width := t.grownWidth cfg } := by
  simp only [Table.grow, Table.grownWidth, Bool.and_eq_true, decide_eq_true_eq, beq_iff_eq, and_assoc]
  split <;> rfl

/-- The table after its next code point is taken, before any flush (R165). -/
def Table.taken (cfg : Options) (e : Option (List Byte)) (t : Table) : Table where
  entries := match e with
    | some w => (t.next, w) :: t.entries
    | none => t.entries
  next := t.next + 1
  width := Table.grownWidth cfg { t with next := t.next + 1 }

theorem Table.reserve_of_full {cfg : Options} {t : Table} (h : t.next = 2 ^ cfg.maxWidth) (e : Option (List Byte)) :
    t.reserve cfg e = (t, false) :=
  if_pos (Table.full_iff.mpr h)

/-- `reserve(e)` on a table with a free code point: it is taken, and a table that this fills is flushed when `FLUSH` is
on (R165). -/
theorem Table.reserve_of_not_full {cfg : Options} {t : Table} (h : t.next ≠ 2 ^ cfg.maxWidth)
    (e : Option (List Byte)) : t.reserve cfg e =
      if t.next + 1 = 2 ^ cfg.maxWidth ∧ cfg.flush = true then (Table.init cfg, true)
      else (t.taken cfg e, false) := by
  have hgrow : Table.grow cfg ⟨(t.taken cfg e).entries, t.next + 1, t.width⟩ = t.taken cfg e := Table.grow_eq ..
  have hreserve : t.reserve cfg e =
      if ((t.taken cfg e).full cfg && cfg.flush) = true then (Table.init cfg, true) else (t.taken cfg e, false) := by
    rw [← hgrow]
    refine (if_neg (mt Table.full_iff.mp h)).trans ?_
    cases e <;> rfl
  simp only [hreserve, Bool.and_eq_true, Table.full_iff]
  rfl

/-- Settles O31: R165's three cases, by whether the table is full before and after. -/
theorem reserveTakesOneCodePoint : Obligations.ReserveTakesOneCodePoint := by
  intro cfg e t
  refine ⟨fun hfull => Table.reserve_of_full hfull e, fun hfree hfills hflush => ?flushed, fun hfree hkept => ?kept⟩
  case flushed => exact (Table.reserve_of_not_full hfree e).trans (if_pos ⟨hfills, hflush⟩)
  case kept =>
    have hnoFlush : ¬(t.next + 1 = 2 ^ cfg.maxWidth ∧ cfg.flush = true) := by
      rintro ⟨hfills, hflush⟩
      obtain hne | hoff := hkept
      · exact hne hfills
      · exact Bool.false_ne_true (hoff.symm.trans hflush)
    exact (Table.reserve_of_not_full hfree e).trans (if_neg hnoFlush)

end Sys2Proof.Machine.Lzw
end

section
/-! Bit order of the code stream (30_encoding.md R110; 41_lzw.md R166, R167). -/

namespace Sys2Proof.Machine.Lzw

theorem ofBits_testBit (bits : List Bool) (i : Nat) : (ofBits bits).testBit i = bits.getD i false := by
  induction bits generalizing i with
  | nil => simp [ofBits]
  | cons b bs ih =>
    have hcons : ofBits (b :: bs) = Nat.bit b (ofBits bs) := by
      rw [Nat.bit_val, ofBits, Nat.add_comm]
    cases i with
    | zero => rw [hcons, Nat.testBit_bit_zero, List.getD_cons_zero]
    | succ i => rw [hcons, Nat.testBit_bit_succ, ih, List.getD_cons_succ]

/-- A byte holds eight bits, the first the least significant (R110). -/
theorem getLsbD_ofBits (bits : List Bool) {i : Nat} (hi : i < 8) :
    (BitVec.ofNat 8 (ofBits bits)).getLsbD i = bits.getD i false := by
  rw [BitVec.getLsbD_ofNat, ofBits_testBit, decide_eq_true hi, Bool.true_and]

/-- Eight bits pack into one byte, before the bytes of the bits after them. -/
theorem packBytes_append {byte : List Bool} (h : byte.length = 8) (rest : List Bool) :
    packBytes (byte ++ rest) = BitVec.ofNat 8 (ofBits byte) :: packBytes rest := by
  match byte, h with
  | [_, _, _, _, _, _, _, _], _ => rfl

theorem packBytes_length {n : Nat} {bits : List Bool} (h : bits.length = 8 * n) : (packBytes bits).length = n := by
  induction n generalizing bits with
  | zero =>
    obtain rfl : bits = [] := List.length_eq_zero_iff.mp h
    rfl
  | succ n ih =>
    have hbyte : (bits.take 8).length = 8 := List.length_take_of_le (by omega)
    have hrest : (bits.drop 8).length = 8 * n := by rw [List.length_drop]; omega
    rw [← List.take_append_drop 8 bits, packBytes_append hbyte, List.length_cons, ih hrest]

/-- Stream bit `i` is bit `i mod 8` of byte `i div 8` (R110). -/
theorem packBytes_getLsbD {n : Nat} {bits : List Bool} (h : bits.length = 8 * n) {i : Nat} (hi : i < 8 * n) :
    ((packBytes bits).getD (i / 8) 0).getLsbD (i % 8) = bits.getD i false := by
  induction n generalizing bits i with
  | zero => omega
  | succ n ih =>
    have hbyte : (bits.take 8).length = 8 := List.length_take_of_le (by omega)
    have hrest : (bits.drop 8).length = 8 * n := by rw [List.length_drop]; omega
    rw [← List.take_append_drop 8 bits, packBytes_append hbyte]
    obtain hfirst | hlater := Nat.lt_or_ge i 8
    · rw [Nat.div_eq_of_lt hfirst, Nat.mod_eq_of_lt hfirst, List.getD_cons_zero, getLsbD_ofBits _ hfirst,
        List.getD_append _ _ _ _ (by omega)]
    · obtain ⟨j, rfl⟩ := Nat.exists_eq_add_of_le' hlater
      rw [Nat.add_div_right j (by decide), Nat.add_mod_right, List.getD_cons_succ, ih hrest (by omega),
        List.getD_append_right _ _ _ _ (by omega), hbyte, Nat.add_sub_cancel]

/-- Padding fills the last byte (R167). -/
theorem padBits_length (bits : List Bool) : (padBits bits).length = 8 * ((bits.length + 7) / 8) := by
  rw [padBits, List.length_append, List.length_replicate]
  omega

/-- Padding adds 0 bits, what a bit beyond the stream reads as. -/
theorem padBits_getD (bits : List Bool) (i : Nat) : (padBits bits).getD i false = bits.getD i false := by
  obtain hin | hbeyond := Nat.lt_or_ge i bits.length
  · exact List.getD_append _ _ _ _ hin
  · rw [padBits, List.getD_append_right _ _ _ _ hbeyond, List.getD_eq_default _ _ hbeyond,
      List.getD_eq_getElem?_getD, List.getElem?_getD_replicate_default_eq]

/-- Settles O37: the bits of the codes, padded, are a whole number of bytes. -/
theorem codeStreamBitOrder : Obligations.CodeStreamBitOrder := by
  intro codes bits
  have hlength : (packCodes codes).length = (bits.length + 7) / 8 := packBytes_length (padBits_length bits)
  refine ⟨hlength, fun i hi => ?_⟩
  exact (packBytes_getLsbD (padBits_length bits) (hlength ▸ hi)).trans (padBits_getD bits i)

end Sys2Proof.Machine.Lzw
end

section
/-! The transform commands: their check phase and `KIND = NONE` (20_memory.md R74, R76, R79; 42_lifting.md R211, R212,
R222, R223, R225). -/

namespace Sys2Proof.Machine

/-! ## The check phase -/

/-- The end of `n` items of `k` bytes, `t` bytes apart, from `b` on (R76, R78). -/
theorem toNat_interval_end {n : Nat} (hn : n ≠ 0) (b t k : Nat) :
    ((b : Int) + ((n : Int) - 1) * t + k).toNat = b + ((n - 1) * t + k) := by
  obtain ⟨m, rfl⟩ := Nat.exists_eq_succ_of_ne_zero hn
  have hitems : ((m + 1 : Nat) : Int) - 1 = m := by omega
  rw [hitems, Nat.succ_sub_one, ← Nat.add_assoc]
  exact Int.toNat_natCast (b + m * t + k)

/-- The vector view is a range of bytes (R78). -/
theorem Regs.vectorInterval_eq_byteRange {r : Regs} (hwidth : r.width ≠ 0) :
    r.vectorInterval = byteRange r.srcAddr.toNat ((r.width - 1) * r.srcStride.toNat + 4) :=
  congrArg (Interval.mk _) (toNat_interval_end hwidth _ _ 4)

/-- A word view is a range of bytes (R76). -/
theorem View.wordInterval_eq_byteRange {v : View} (hheight : v.height ≠ 0) :
    v.wordInterval = byteRange v.base ((v.height - 1) * v.stride + 4 * v.width) := by
  rw [View.wordInterval, byteRange, ← toNat_interval_end hheight, Nat.cast_mul, Nat.cast_ofNat]

/-- R79 on a word view. -/
theorem badWordGeom_eq_false {v : View} :
    badWordGeom v = false ↔ ¬ViewGeomBad v.width v.height v.stride (4 * v.width) := by
  simp [badWordGeom, ViewGeomBad, and_assoc]

/-- R74 on a word view. -/
theorem badWordAlign_eq_false {v : View} :
    badWordAlign v = false ↔ ¬(v.base % 4 ≠ 0 ∨ (2 ≤ v.height ∧ v.stride % 4 ≠ 0)) := by
  simp [badWordAlign]

/-- A 1D command whose kind is legal and whose checks pass, in the sense of the rules, passes those of the model. -/
theorem wt1Checks_pass {i : Instr} {s : State} (hi : i = .wt1Fwd ∨ i = .wt1Inv) (hkind : badKind s.regs = false)
    (h : ChecksPass i s) : ∀ c ∈ wt1Checks s i, c.1 = false := by
  obtain ⟨-, hgeomBad, halignBad, hbus, -⟩ := h
  have hgeom : ¬(s.regs.width = 0 ∨ (2 ≤ s.regs.width ∧ s.regs.srcStride.toNat < 4)) := by
    obtain rfl | rfl := hi <;> exact hgeomBad
  have halign : ¬(s.regs.srcAddr.toNat % 4 ≠ 0 ∨ (2 ≤ s.regs.width ∧ s.regs.srcStride.toNat % 4 ≠ 0)) := by
    obtain rfl | rfl := hi <;> exact halignBad
  have hfootprint : badFootprint s.regs s.memSize i = false := by
    have hrange := Regs.vectorInterval_eq_byteRange (not_or.mp hgeom).1
    obtain rfl | rfl := hi <;> exact badFootprint_of_byteRange hrange hrange hbus
  have hmodelGeom : badVectorGeom s.regs = false := by simpa [badVectorGeom] using hgeom
  have hmodelAlign : badVectorAlign s.regs = false := by simpa [badVectorAlign] using halign
  simp [wt1Checks, hkind, hmodelGeom, hmodelAlign, hfootprint]

/-- A 2D command whose kind is legal and whose checks pass, in the sense of the rules, passes those of the model. -/
theorem wt2Checks_pass {i : Instr} {s : State} (hi : i = .wt2Fwd ∨ i = .wt2Inv) (hkind : badKind s.regs = false)
    (h : ChecksPass i s) : ∀ c ∈ wt2Checks s i, c.1 = false := by
  obtain ⟨-, hgeomBad, halignBad, hbus, -⟩ := h
  have hgeom : ¬ViewGeomBad s.regs.width s.regs.height s.regs.srcStride.toNat (4 * s.regs.width) := by
    obtain rfl | rfl := hi <;> exact hgeomBad
  have halign : ¬(s.regs.srcAddr.toNat % 4 ≠ 0 ∨ (2 ≤ s.regs.height ∧ s.regs.srcStride.toNat % 4 ≠ 0)) := by
    obtain rfl | rfl := hi <;> exact halignBad
  have hfootprint : badFootprint s.regs s.memSize i = false := by
    have hheight : s.regs.srcView.height ≠ 0 := fun hzero => hgeom (.inr (.inl hzero))
    have hrange := View.wordInterval_eq_byteRange hheight
    obtain rfl | rfl := hi <;> exact badFootprint_of_byteRange hrange hrange hbus
  have hmodelGeom : badWordGeom s.regs.srcView = false := badWordGeom_eq_false.mpr hgeom
  have hmodelAlign : badWordAlign s.regs.srcView = false := badWordAlign_eq_false.mpr halign
  simp [wt2Checks, hkind, hmodelGeom, hmodelAlign, hfootprint]

/-! ## A command that passes its checks is its execution phase -/

theorem exec_wt1Fwd_of_pass {s : State} (hkind : badKind s.regs = false) (h : ChecksPass .wt1Fwd s) :
    exec .wt1Fwd s = .next (s.complete (runWt1 Lifting.forward s)) :=
  congrArg (Host.Outcome.next <| s.complete ·) (checked_of_pass (wt1Checks_pass (.inl rfl) hkind h))

theorem exec_wt1Inv_of_pass {s : State} (hkind : badKind s.regs = false) (h : ChecksPass .wt1Inv s) :
    exec .wt1Inv s = .next (s.complete (runWt1 Lifting.inverse s)) :=
  congrArg (Host.Outcome.next <| s.complete ·) (checked_of_pass (wt1Checks_pass (.inr rfl) hkind h))

theorem exec_wt2Fwd_of_pass {s : State} (hkind : badKind s.regs = false) (h : ChecksPass .wt2Fwd s) :
    exec .wt2Fwd s = .next (s.complete (runWt2 forward2d s)) :=
  congrArg (Host.Outcome.next <| s.complete ·) (checked_of_pass (wt2Checks_pass (.inl rfl) hkind h))

theorem exec_wt2Inv_of_pass {s : State} (hkind : badKind s.regs = false) (h : ChecksPass .wt2Inv s) :
    exec .wt2Inv s = .next (s.complete (runWt2 inverse2d s)) :=
  congrArg (Host.Outcome.next <| s.complete ·) (checked_of_pass (wt2Checks_pass (.inr rfl) hkind h))

/-! ## `KIND = NONE` -/

/-- `KIND = NONE` is a legal kind (R202). -/
theorem badKind_of_kind_zero {r : Regs} (hkind : r.kind = 0) : badKind r = false := by simp [badKind, hkind]

/-- `KIND = NONE` selects no transform (R201). -/
theorem Regs.lifting_of_kind_zero {r : Regs} (hkind : r.kind = 0) : r.lifting = none := by
  simp [Regs.lifting, hkind]

/-- Without a transform a 1D command writes nothing (R225). -/
theorem runWt1_of_lifting_none {s : State} (hnone : s.regs.lifting = none)
    (f : Lifting → List Int → List Int × Bool) : runWt1 f s = .ok [] { outLen := s.regs.width } := by
  rw [runWt1, hnone]

/-- Without a transform a 2D command writes nothing and has no levels (R225). -/
theorem runWt2_of_lifting_none {s : State} (hnone : s.regs.lifting = none)
    (f : Lifting → List (Nat × Nat) → Grid → Grid × Bool) :
    runWt2 f s = .ok [] { outLen := s.regs.width * s.regs.height, levels := some 0 } := by
  rw [runWt2, hnone]
  rfl

/-- Settles O41: no transform is selected, so each command that passes its checks succeeds without a write. -/
theorem kindNoneChangesNoMemory : Obligations.KindNoneChangesNoMemory := by
  intro s hkind
  have hgood := badKind_of_kind_zero hkind
  have hrun1 := runWt1_of_lifting_none (Regs.lifting_of_kind_zero hkind)
  have hrun2 := runWt2_of_lifting_none (Regs.lifting_of_kind_zero hkind)
  refine ⟨fun i hi hpass => ?oneDimensional, fun i hi hpass => ?twoDimensional⟩
  case oneDimensional =>
    have hexec : exec i s = .next (s.complete (.ok [] { outLen := s.regs.width })) := by
      obtain rfl | rfl := hi
      · rw [exec_wt1Fwd_of_pass hgood hpass, hrun1]
      · rw [exec_wt1Inv_of_pass hgood hpass, hrun1]
    exact ⟨_, hexec, rfl, s.completedWith_ok _ _⟩
  case twoDimensional =>
    have hexec : exec i s =
        .next (s.complete (.ok [] { outLen := s.regs.width * s.regs.height, levels := some 0 })) := by
      obtain rfl | rfl := hi
      · rw [exec_wt2Fwd_of_pass hgood hpass, hrun2]
      · rw [exec_wt2Inv_of_pass hgood hpass, hrun2]
    exact ⟨_, hexec, rfl, s.completedWith_ok _ _⟩

end Sys2Proof.Machine
end

section
/-! The value of a lifting step (00_scope.md R9, 42_lifting.md R204). -/

namespace Sys2Proof.Machine

/-- `wrap32` is the two's-complement number in the low 32 bits (R9). -/
theorem wrap32_eq_toInt (v : Int) : wrap32 v = (BitVec.ofInt 32 v).toInt := by
  rw [BitVec.toInt_ofInt, Int.bmod_def, wrap32]
  omega

theorem ovf32_eq_true {v : Int} : ovf32 v = true ↔ ¬Coef32 v := by
  rw [← Bool.not_eq_false, not_congr ovf32_eq_false]

/-- `x >> s` is the greatest integer not above `x / 2^s` (R9). -/
theorem shiftRight_bounds (x : Int) (s : Nat) :
    shiftRight x s * 2 ^ s ≤ x ∧ x < (shiftRight x s + 1) * 2 ^ s := by
  have hpos : (0 : Int) < 2 ^ s := pow_pos two_pos s
  exact ⟨Int.ediv_mul_le x hpos.ne', Int.lt_ediv_add_one_mul_self x hpos⟩

/-- The weighted sum by index, when there is a tap for each weight. -/
theorem weightedSum_eq_sum_range {cs ts : List Int} (hlen : ts.length = cs.length) :
    weightedSum cs ts = ((List.range cs.length).map fun j => cs.getD j 0 * ts.getD j 0).sum := by
  refine congrArg List.sum (List.ext_getElem (by simp [hlen]) fun j hj _ => ?_)
  have hjc : j < cs.length := by rw [List.length_zipWith] at hj; omega
  have hjt : j < ts.length := hlen ▸ hjc
  simp [hjc, hjt]

/-- Weights and taps bounded in magnitude bound each product, and so the sum. -/
theorem abs_weightedSum_le {cs ts : List Int} {C T : Int} (hC : 0 ≤ C) (hT : 0 ≤ T) (hcs : ∀ c ∈ cs, |c| ≤ C)
    (hts : ∀ t ∈ ts, |t| ≤ T) : |weightedSum cs ts| ≤ cs.length * (C * T) := by
  induction cs generalizing ts with
  | nil => simp [weightedSum]
  | cons c cs ih =>
    cases ts with
    | nil =>
      have hbound : 0 ≤ ((c :: cs).length : Int) * (C * T) := by positivity
      simpa [weightedSum] using hbound
    | cons t ts =>
      obtain ⟨hc, hcs⟩ := List.forall_mem_cons.mp hcs
      obtain ⟨ht, hts⟩ := List.forall_mem_cons.mp hts
      have hproduct : |c * t| ≤ C * T := abs_mul c t ▸ mul_le_mul hc ht (abs_nonneg t) hC
      calc |weightedSum (c :: cs) (t :: ts)|
          = |c * t + weightedSum cs ts| := by simp [weightedSum]
        _ ≤ |c * t| + |weightedSum cs ts| := abs_add_le _ _
        _ ≤ C * T + cs.length * (C * T) := add_le_add hproduct (ih hcs hts)
        _ = (c :: cs).length * (C * T) := by push_cast [List.length_cons]; ring

/-- Settles O53: the value is the wrapped shift of the weighted sum, and four products of an 8-bit weight and a 32-bit
tap with a 16-bit offset bound that sum. -/
theorem stepValueIsTheFloor : Obligations.StepValueIsTheFloor := by
  intro st ts hlen sum
  have hsum : st.round + weightedSum st.taps ts = sum :=
    congrArg (st.round + ·) (weightedSum_eq_sum_range hlen)
  have hvalue : st.value ts = wrapFlag (shiftRight sum st.shift) := by rw [LiftStep.value, hsum]
  obtain ⟨hbelow, habove⟩ := shiftRight_bounds sum st.shift
  refine ⟨_, _, hbelow, habove, hvalue, ovf32_eq_true, wrap32_eq_toInt _, fun hfour hweights htaps hlo hhi => ?_⟩
  have hround : |st.round| ≤ 2 ^ 15 := abs_le.mpr ⟨hlo, hhi.le⟩
  have hproducts : |weightedSum st.taps ts| ≤ st.taps.length * (128 * 2 ^ 31) :=
    abs_weightedSum_le (by decide) (by decide) (fun c hc => abs_le.mpr ⟨(hweights c hc).1, (hweights c hc).2.le⟩)
      fun t ht => abs_le.mpr ⟨(htaps t ht).1, (htaps t ht).2.le⟩
  rw [← hsum]
  have htriangle := abs_add_le st.round (weightedSum st.taps ts)
  omega

end Sys2Proof.Machine
end

section
/-! Word views in memory: what a command that writes a whole view leaves (20_memory.md R72, R77). -/

namespace Sys2Proof.Machine

/-- A byte among those written reads as written when no other write to its address differs. -/
theorem Memory.read_writeAll_of_agree {m : Memory} (hm : m.wf) {cells : List Host.Cell} {c : Host.Cell}
    (hc : c ∈ cells) (hagree : ∀ d ∈ cells, d.1 = c.1 → d.2 = c.2) : (m.writeAll cells).read c.1 = c.2 := by
  induction cells generalizing m with
  | nil => cases hc
  | cons d cells ih =>
    obtain ⟨hhead, htail⟩ := List.forall_mem_cons.mp hagree
    change ((m.write d.1 d.2).writeAll cells).read c.1 = c.2
    by_cases hlater : c ∈ cells
    · exact ih (wf_write hm d.1 d.2) hlater htail
    · obtain rfl : c = d := (List.mem_cons.mp hc).resolve_right hlater
      have hlast : ∀ e ∈ cells, e.1 ≠ c.1 := fun e he heq => hlater (Prod.ext heq (htail e he heq) ▸ he)
      rw [read_writeAll_other _ _ hlast, read_write_same hm]

/-- An element holds a 32-bit value (R72). -/
theorem Memory.coef32_readCoef (m : Memory) (addr : Nat) : Coef32 (m.readCoef addr) := by
  have hword : m.readWord addr < 2 ^ 32 := by
    have hbyte : ∀ a, (m.read a).toNat < 2 ^ 8 := fun a => (m.read a).isLt
    have h0 := hbyte addr
    have h1 := hbyte (addr + 1)
    have h2 := hbyte (addr + 2)
    have h3 := hbyte (addr + 3)
    rw [readWord]
    omega
  rw [readCoef, sext]
  split <;> omega

/-- An element takes its value modulo `2^32` (R72). -/
theorem coefCells_wrap32 (addr : Nat) (v : Int) : coefCells addr (wrap32 v) = coefCells addr v := by
  rw [coefCells, wrap32_emod, coefCells]

/-- The elements of a view whose rows do not overlap do not overlap (R79). -/
theorem View.wordAddr_inj {v : View} (hgeom : badWordGeom v = false) {r r' c c' a : Nat} (hr : r < v.height)
    (hr' : r' < v.height) (hc : c < v.width) (hc' : c' < v.width) (ha : v.wordAddr r c ≤ a ∧ a < v.wordAddr r c + 4)
    (ha' : v.wordAddr r' c' ≤ a ∧ a < v.wordAddr r' c' + 4) : r = r' ∧ c = c' := by
  have hrows : ∀ {i j}, i < j → j < v.height → i * v.stride + 4 * v.width ≤ j * v.stride := by
    intro i j hij hj
    have hstride : ¬v.stride < 4 * v.width := fun h => badWordGeom_eq_false.mp hgeom (.inr (.inr ⟨by omega, h⟩))
    calc i * v.stride + 4 * v.width
        ≤ i * v.stride + v.stride := by omega
      _ = (i + 1) * v.stride := (Nat.succ_mul i v.stride).symm
      _ ≤ j * v.stride := Nat.mul_le_mul_right _ hij
  simp only [View.wordAddr] at ha ha'
  obtain hlt | rfl | hgt := Nat.lt_trichotomy r r'
  · have := hrows hlt hr'
    omega
  · omega
  · have := hrows hgt hr
    omega

/-- After a whole view is written, element `(r, c)` reads as its value wrapped to 32 bits (R77). -/
theorem View.readCoef_writeAll_gridCells {m : Memory} (hm : m.wf) {v : View} (hgeom : badWordGeom v = false) (g : Grid)
    {r c : Nat} (hr : r < v.height) (hc : c < v.width) :
    (m.writeAll (v.gridCells g)).readCoef (v.wordAddr r c) = wrap32 (elemAt g r c) := by
  refine Memory.readCoef_of_cells (wrap32_range _) fun cell hcell => ?_
  rw [coefCells_wrap32] at hcell
  refine Memory.read_writeAll_of_agree hm (mem_gridCells.mpr ⟨r, hr, c, hc, hcell⟩) fun d hd heq => ?_
  obtain ⟨r', hr', c', hc', hd⟩ := mem_gridCells.mp hd
  obtain ⟨rfl, rfl⟩ := v.wordAddr_inj hgeom hr hr' hc hc' (addr_of_mem_coefCells hcell)
    (heq ▸ addr_of_mem_coefCells hd)
  obtain ⟨i, hi, rfl⟩ := mem_cellsAt.mp hcell
  obtain ⟨j, hj, rfl⟩ := mem_cellsAt.mp hd
  obtain rfl : j = i := Nat.add_left_cancel heq
  rfl

/-- Writing a whole view leaves every byte outside its elements alone (R77). -/
theorem View.read_writeAll_gridCells_outside (m : Memory) (v : View) (g : Grid) {a : Nat}
    (ha : ∀ r < v.height, ∀ c < v.width, ¬(v.wordAddr r c ≤ a ∧ a < v.wordAddr r c + 4)) :
    (m.writeAll (v.gridCells g)).read a = m.read a := by
  refine Memory.read_writeAll_other _ _ fun cell hcell heq => ?_
  obtain ⟨r, hr, c, hc, hcell⟩ := mem_gridCells.mp hcell
  exact ha r hr c hc (heq ▸ addr_of_mem_coefCells hcell)

theorem View.isGrid_readGrid (v : View) (m : Memory) : IsGrid v.width v.height (v.readGrid m) :=
  ⟨by simp [View.readGrid], by simp [View.readGrid]⟩

theorem View.elemAt_readGrid (v : View) (m : Memory) {r c : Nat} (hr : r < v.height) (hc : c < v.width) :
    elemAt (v.readGrid m) r c = m.readCoef (v.wordAddr r c) := by
  simp [elemAt, View.readGrid, hr, hc]

end Sys2Proof.Machine
end

section
/-! The factor sequence of the quantizer (43_quant.md R240). -/

namespace Sys2Proof.Machine

/-- `clampF` is the clamp to `2 .. 65535` (R240). -/
theorem clampFactor_eq (x : Int) : (clampFactor x : Int) = min 65535 (max 2 x) := by
  rw [clampFactor, clamp]
  omega

theorem clampFactor_range (x : Int) : 2 ≤ clampFactor x ∧ clampFactor x ≤ 65535 := by
  have hclamp := clampFactor_eq x
  omega

/-- The ceiling of `p / q` is the least integer whose multiple reaches `p` (R240). -/
theorem ceilDiv_bounds (p : Nat) {q : Nat} (hq : q ≠ 0) :
    (p : Int) ≤ ceilDiv p q * q ∧ ((ceilDiv p q : Int) - 1) * q < p := by
  have hdivision : ((p + q - 1) / q) * q + (p + q - 1) % q = p + q - 1 := Nat.div_add_mod' _ _
  have hremainder := Nat.mod_lt (p + q - 1) (Nat.pos_of_ne_zero hq)
  rw [sub_mul, one_mul, ← Nat.cast_mul, ceilDiv]
  omega

@[simp] theorem length_factorsFrom (alphaRaw : Nat) (beta : Int) (n f : Nat) :
    (factorsFrom alphaRaw beta n f).length = n := by
  induction n generalizing f with
  | zero => rfl
  | succ n ih => rw [factorsFrom, List.length_cons, ih]

theorem factorsFrom_getD_zero (alphaRaw : Nat) (beta : Int) {n : Nat} (hn : 0 < n) (f : Nat) :
    (factorsFrom alphaRaw beta n f).getD 0 0 = f := by
  obtain ⟨m, rfl⟩ := Nat.exists_eq_succ_of_ne_zero hn.ne'
  rfl

/-- Each factor follows from the one before it (R240). -/
theorem factorsFrom_getD_succ (alphaRaw : Nat) (beta : Int) {n l : Nat} (hl : l + 1 < n) (f : Nat) :
    (factorsFrom alphaRaw beta n f).getD (l + 1) 0 =
      nextFactor alphaRaw beta ((factorsFrom alphaRaw beta n f).getD l 0) := by
  induction l generalizing n f with
  | zero =>
    obtain ⟨m, rfl⟩ := Nat.exists_eq_add_of_le' hl
    rfl
  | succ l ih =>
    obtain ⟨m, rfl⟩ := Nat.exists_eq_succ_of_ne_zero (Nat.ne_zero_of_lt hl)
    exact ih (Nat.succ_lt_succ_iff.mp hl) (nextFactor alphaRaw beta f)

/-- Every factor after the first is clamped, so a first factor within `2 .. 65535` keeps all of them there. -/
theorem factorsFrom_range (alphaRaw : Nat) (beta : Int) (n : Nat) {f : Nat} (hf : 2 ≤ f ∧ f ≤ 65535) :
    ∀ g ∈ factorsFrom alphaRaw beta n f, 2 ≤ g ∧ g ≤ 65535 := by
  induction n generalizing f with
  | zero => simp [factorsFrom]
  | succ n ih => exact List.forall_mem_cons.mpr ⟨hf, ih (clampFactor_range _)⟩

@[simp] theorem Regs.length_factors (r : Regs) (n : Nat) : (r.factors n).length = n := length_factorsFrom ..

theorem Regs.factors_range (r : Regs) (n : Nat) : ∀ f ∈ r.factors n, 2 ≤ f ∧ f ≤ 65535 :=
  factorsFrom_range _ _ n (clampFactor_range _)

/-- The factor of a level of the view is a positive divisor. -/
theorem Regs.factors_getD_pos (r : Regs) {n l : Nat} (hl : l < n) : 0 < (r.factors n).getD l 0 := by
  have hl : l < (r.factors n).length := by rwa [r.length_factors]
  rw [List.getD_eq_getElem _ _ hl]
  exact Nat.lt_of_lt_of_le Nat.two_pos (r.factors_range n _ (List.getElem_mem hl)).1

/-- Settles O54: the clamp and the ceiling are those of R240, and `factorsFrom` applies them level by level. -/
theorem factorsFollowTheRecurrence : Obligations.FactorsFollowTheRecurrence := by
  intro r n halpha fs
  refine ⟨r.length_factors n, fun hn => ?first, fun l hl => ?next, r.factors_range n⟩
  case first =>
    rw [show fs.getD 0 0 = clampFactor r.factor0 from factorsFrom_getD_zero _ _ hn _]
    exact clampFactor_eq _
  case next =>
    obtain ⟨hreaches, hleast⟩ := ceilDiv_bounds (fs.getD l 0 * 256) halpha
    rw [Nat.cast_mul, Nat.cast_ofNat] at hreaches hleast
    refine ⟨_, hreaches, hleast, ?_⟩
    rw [show fs.getD (l + 1) 0 = nextFactor r.alphaRaw r.beta (fs.getD l 0) from factorsFrom_getD_succ _ _ hl _]
    exact clampFactor_eq _

end Sys2Proof.Machine
end

section
/-! Wrapping and truncating division (00_scope.md R9): what the quantizer loses (43_quant.md R244). -/

namespace Sys2Proof.Machine

/-- A wrapped value does not wrap again (00_scope.md R9). -/
theorem wrap32_wrap32 (v : Int) : wrap32 (wrap32 v) = wrap32 v := wrap32_of_range (wrap32_range v)

/-- The quotient lies between 0 and the dividend (00_scope.md R9). -/
theorem tdiv_between (x : Int) (d : Nat) : (0 ≤ x.tdiv d ∧ x.tdiv d ≤ x) ∨ (x ≤ x.tdiv d ∧ x.tdiv d ≤ 0) := by
  obtain ⟨n, rfl | rfl⟩ := x.eq_nat_or_neg
  · rw [← Int.ofNat_tdiv]
    exact .inl ⟨Int.natCast_nonneg _, Int.ofNat_le.mpr (Nat.div_le_self n d)⟩
  · rw [Int.neg_tdiv, ← Int.ofNat_tdiv]
    exact .inr ⟨neg_le_neg (Int.ofNat_le.mpr (Nat.div_le_self n d)), neg_nonpos.mpr (Int.natCast_nonneg _)⟩

/-- So does the multiple of the divisor that the quotient stands for. -/
theorem tdiv_mul_between (x : Int) (d : Nat) :
    (0 ≤ x.tdiv d * d ∧ x.tdiv d * d ≤ x) ∨ (x ≤ x.tdiv d * d ∧ x.tdiv d * d ≤ 0) := by
  obtain ⟨n, rfl | rfl⟩ := x.eq_nat_or_neg
  · rw [← Int.ofNat_tdiv, ← Nat.cast_mul]
    exact .inl ⟨Int.natCast_nonneg _, Int.ofNat_le.mpr (Nat.div_mul_le_self n d)⟩
  · rw [Int.neg_tdiv, ← Int.ofNat_tdiv, neg_mul, ← Nat.cast_mul]
    exact .inr ⟨neg_le_neg (Int.ofNat_le.mpr (Nat.div_mul_le_self n d)), neg_nonpos.mpr (Int.natCast_nonneg _)⟩

/-- A division never wraps (R242). -/
theorem wrap32_tdiv {x : Int} (hx : Coef32 x) (d : Nat) : wrap32 (x.tdiv d) = x.tdiv d := by
  have hbetween := tdiv_between x d
  exact wrap32_of_range (by omega)

/-- Neither does the multiplication that follows it, which loses less than the divisor (R244). -/
theorem wrap32_tdiv_mul {x : Int} (hx : Coef32 x) {d : Nat} (hd : 0 < d) :
    |x - wrap32 (x.tdiv d * d)| < d ∧ |wrap32 (x.tdiv d * d)| ≤ |x| ∧ (wrap32 (x.tdiv d * d) = x ↔ (d : Int) ∣ x) := by
  have hbetween := tdiv_mul_between x d
  rw [wrap32_of_range (by omega : Coef32 (x.tdiv d * d))]
  refine ⟨?_, ?_, ⟨fun heq => heq ▸ dvd_mul_left _ _, Int.tdiv_mul_cancel⟩⟩
  · have hremainder : x - x.tdiv d * d = x.tmod d := by rw [Int.tmod_def, mul_comm]
    rw [hremainder, Int.abs_eq_natAbs, Int.natAbs_tmod]
    exact_mod_cast Nat.mod_lt x.natAbs hd
  · rw [abs_le]
    obtain hx | hx := abs_cases x <;> omega

end Sys2Proof.Machine
end

section
/-! Flagged functions on regions of a grid (43_quant.md R242, R243). -/

namespace Sys2Proof.Machine

theorem Region.contains_iff {g : Region} {r c : Nat} : g.contains r c = true ↔ (r, c) ∈ g.positions := by
  simp [Region.contains, and_assoc]

/-- Element `(r, c)` of a grid is entry `c` of its row `r`. -/
theorem IsGrid.elemAt_eq {W H : Nat} {x : Grid} (hx : IsGrid W H x) {r c : Nat} (hr : r < H) (hc : c < W) :
    ∃ (hrow : r < x.length) (hcol : c < x[r].length), elemAt x r c = x[r][c] := by
  obtain ⟨hlen, hrows⟩ := hx
  have hrow : r < x.length := hlen ▸ hr
  have hcol : c < x[r].length := hrows _ (List.getElem_mem hrow) ▸ hc
  exact ⟨hrow, hcol, by simp [elemAt, hrow, hcol]⟩

/-- Some result is marked exactly when some entry gives a marked one. -/
theorem any_mapIdx {α β : Type} {xs : List α} {g : Nat → α → β} {p : β → Bool} :
    (xs.mapIdx g).any p = true ↔ ∃ i, ∃ hi : i < xs.length, p (g i xs[i]) = true := by
  simp only [List.any_eq_true, List.mem_mapIdx]
  constructor
  · rintro ⟨_, ⟨i, hi, rfl⟩, hp⟩
    exact ⟨i, hi, hp⟩
  · rintro ⟨i, hi, hp⟩
    exact ⟨_, ⟨i, hi, rfl⟩, hp⟩

theorem isGrid_mapGrid {W H : Nat} {x : Grid} (hx : IsGrid W H x) (f : Nat → Nat → Int → Int × Bool) :
    IsGrid W H (mapGrid f x).1 := by
  obtain ⟨hlen, hrows⟩ := hx
  refine ⟨by simp [mapGrid, hlen], fun row hrow => ?_⟩
  obtain ⟨out, hout, rfl⟩ := List.mem_map.mp hrow
  obtain ⟨r, hr, rfl⟩ := List.mem_mapIdx.mp hout
  simpa [collect] using hrows _ (List.getElem_mem hr)

theorem elemAt_mapGrid {W H : Nat} {x : Grid} (hx : IsGrid W H x) (f : Nat → Nat → Int → Int × Bool) {r c : Nat}
    (hr : r < H) (hc : c < W) : elemAt (mapGrid f x).1 r c = (f r c (elemAt x r c)).1 := by
  obtain ⟨hrow, hcol, hx⟩ := hx.elemAt_eq hr hc
  rw [hx]
  simp [elemAt, mapGrid, collect, hrow, hcol]

theorem mapGrid_flag {W H : Nat} {x : Grid} (hx : IsGrid W H x) (f : Nat → Nat → Int → Int × Bool) :
    (mapGrid f x).2 = true ↔ ∃ r c, r < H ∧ c < W ∧ (f r c (elemAt x r c)).2 = true := by
  simp only [mapGrid, collect, any_mapIdx]
  constructor
  · rintro ⟨r, hrow, c, hcol, hf⟩
    have hr : r < H := hx.1 ▸ hrow
    have hc : c < W := hx.2 _ (List.getElem_mem hrow) ▸ hcol
    obtain ⟨_, _, hel⟩ := hx.elemAt_eq hr hc
    exact ⟨r, c, hr, hc, hel ▸ hf⟩
  · rintro ⟨r, c, hr, hc, hf⟩
    obtain ⟨hrow, hcol, hel⟩ := hx.elemAt_eq hr hc
    exact ⟨r, hrow, c, hcol, hel ▸ hf⟩

end Sys2Proof.Machine
end

section
/-! The quantizer as passes over disjoint bands (42_lifting.md R220, R221; 43_quant.md R242, R243). -/

namespace Sys2Proof.Machine

/-! ## A pass over one region -/

/-- A flagged function for the elements of a region. -/
abbrev BandPass := Region × (Int → Int × Bool)

/-- One pass, its flag added to those before it. -/
def BandPass.apply (acc : Grid × Bool) (p : BandPass) : Grid × Bool :=
  ((mapRegion p.1 p.2 acc.1).1, acc.2 || (mapRegion p.1 p.2 acc.1).2)

theorem BandPass.isGrid_apply {W H : Nat} {acc : Grid × Bool} (hacc : IsGrid W H acc.1) (p : BandPass) :
    IsGrid W H (BandPass.apply acc p).1 := isGrid_mapGrid hacc _

theorem BandPass.elemAt_apply_inside {W H : Nat} {acc : Grid × Bool} (hacc : IsGrid W H acc.1) {p : BandPass}
    {r c : Nat} (hr : r < H) (hc : c < W) (hin : (r, c) ∈ p.1.positions) :
    elemAt (BandPass.apply acc p).1 r c = (p.2 (elemAt acc.1 r c)).1 := by
  rw [BandPass.apply, mapRegion, elemAt_mapGrid hacc _ hr hc, if_pos (Region.contains_iff.mpr hin)]

theorem BandPass.elemAt_apply_outside {W H : Nat} {acc : Grid × Bool} (hacc : IsGrid W H acc.1) {p : BandPass}
    {r c : Nat} (hr : r < H) (hc : c < W) (hout : (r, c) ∉ p.1.positions) :
    elemAt (BandPass.apply acc p).1 r c = elemAt acc.1 r c := by
  rw [BandPass.apply, mapRegion, elemAt_mapGrid hacc _ hr hc, if_neg (mt Region.contains_iff.mp hout)]

theorem BandPass.apply_flag {W H : Nat} {acc : Grid × Bool} (hacc : IsGrid W H acc.1) {p : BandPass}
    (hp : ∀ r c, (r, c) ∈ p.1.positions → r < H ∧ c < W) : (BandPass.apply acc p).2 = true ↔
      acc.2 = true ∨ ∃ r c, (r, c) ∈ p.1.positions ∧ (p.2 (elemAt acc.1 r c)).2 = true := by
  rw [BandPass.apply, Bool.or_eq_true, mapRegion, mapGrid_flag hacc]
  refine or_congr_right (exists₂_congr fun r c => ⟨?_, ?_⟩)
  · rintro ⟨-, -, hflag⟩
    split at hflag
    · next hin => exact ⟨Region.contains_iff.mp hin, hflag⟩
    · cases hflag
  · rintro ⟨hin, hflag⟩
    exact ⟨(hp r c hin).1, (hp r c hin).2, by rwa [if_pos (Region.contains_iff.mpr hin)]⟩

/-! ## Passes over disjoint regions: every element is touched at most once -/

/-- The passes stay inside a `W x H` grid and no two of them touch the same element. -/
structure DisjointPasses (W H : Nat) (ps : List BandPass) : Prop where
  inside : ∀ p ∈ ps, ∀ r c, (r, c) ∈ p.1.positions → r < H ∧ c < W
  disjoint : ps.Pairwise fun p p' => p.1.positions.Disjoint p'.1.positions

theorem DisjointPasses.tail {W H : Nat} {p : BandPass} {ps : List BandPass} (h : DisjointPasses W H (p :: ps)) :
    DisjointPasses W H ps :=
  ⟨(List.forall_mem_cons.mp h.inside).2, h.disjoint.of_cons⟩

/-- An element of a later pass is not touched by the first one. -/
theorem DisjointPasses.notMem_head {W H : Nat} {p q : BandPass} {ps : List BandPass}
    (h : DisjointPasses W H (p :: ps)) (hq : q ∈ ps) {rc : Nat × Nat} (hrc : rc ∈ q.1.positions) :
    rc ∉ p.1.positions := fun hp => List.rel_of_pairwise_cons h.disjoint hq hp hrc

/-- An element outside every pass keeps its value. -/
theorem elemAt_passes_outside {W H : Nat} {ps : List BandPass} {acc : Grid × Bool} (hacc : IsGrid W H acc.1)
    {r c : Nat} (hr : r < H) (hc : c < W) (hout : ∀ p ∈ ps, (r, c) ∉ p.1.positions) :
    elemAt (ps.foldl BandPass.apply acc).1 r c = elemAt acc.1 r c := by
  induction ps generalizing acc with
  | nil => rfl
  | cons p ps ih =>
    obtain ⟨hp, hps⟩ := List.forall_mem_cons.mp hout
    exact (ih (p.isGrid_apply hacc) hps).trans (p.elemAt_apply_outside hacc hr hc hp)

/-- An element of a pass gets the value of that pass. -/
theorem DisjointPasses.elemAt_of_mem {W H : Nat} {ps : List BandPass} (hps : DisjointPasses W H ps)
    {acc : Grid × Bool} (hacc : IsGrid W H acc.1) {p : BandPass} (hp : p ∈ ps) {r c : Nat}
    (hin : (r, c) ∈ p.1.positions) :
    elemAt (ps.foldl BandPass.apply acc).1 r c = (p.2 (elemAt acc.1 r c)).1 := by
  obtain ⟨hr, hc⟩ := hps.inside p hp r c hin
  induction ps generalizing acc with
  | nil => cases hp
  | cons q ps ih =>
    have hnext := q.isGrid_apply hacc
    rw [List.foldl_cons]
    obtain rfl | hp := List.mem_cons.mp hp
    · rw [elemAt_passes_outside hnext hr hc fun q hq hin' => hps.notMem_head hq hin' hin]
      exact p.elemAt_apply_inside hacc hr hc hin
    · rw [ih hps.tail hnext hp, q.elemAt_apply_outside hacc hr hc (hps.notMem_head hp hin)]

/-- The flag collects those of the elements' own values before any pass. -/
theorem DisjointPasses.flag_iff {W H : Nat} {ps : List BandPass} (hps : DisjointPasses W H ps) {acc : Grid × Bool}
    (hacc : IsGrid W H acc.1) : (ps.foldl BandPass.apply acc).2 = true ↔
      acc.2 = true ∨ ∃ p ∈ ps, ∃ r c, (r, c) ∈ p.1.positions ∧ (p.2 (elemAt acc.1 r c)).2 = true := by
  induction ps generalizing acc with
  | nil => simp
  | cons q ps ih =>
    have hlater : ∀ p ∈ ps, ∀ r c, (r, c) ∈ p.1.positions →
        elemAt (BandPass.apply acc q).1 r c = elemAt acc.1 r c := fun p hp r c hin => by
      obtain ⟨hr, hc⟩ := hps.tail.inside p hp r c hin
      exact q.elemAt_apply_outside hacc hr hc (hps.notMem_head hp hin)
    rw [List.foldl_cons, ih hps.tail (q.isGrid_apply hacc), q.apply_flag hacc (hps.inside q (List.mem_cons_self ..)),
      List.exists_mem_cons_iff, or_assoc]
    refine or_congr_right (or_congr_right (exists_congr fun p => and_congr_right fun hp => ?_))
    exact exists₂_congr fun r c => and_congr_right fun hin => by rw [hlater p hp r c hin]

/-! ## The passes of the quantizer -/

/-- The passes of one level with factor `f` (R242, R243). -/
def QuantOp.levelPasses (q : QuantOp) (lf : (Nat × Nat) × Nat) : List BandPass :=
  [(diagonalRegion lf.1, q.detail (2 * lf.2)), (horizontalRegion lf.1, q.detail lf.2),
    (verticalRegion lf.1, q.detail lf.2)]

/-- The passes of all levels, then that of the final approximation (R242, R243). -/
def QuantOp.passes (q : QuantOp) (ls : List (Nat × Nat)) (fs : List Nat) (final : Nat × Nat) : List BandPass :=
  (ls.zip fs).flatMap q.levelPasses ++ [(finalRegion final, q.final)]

theorem foldl_levelPasses (q : QuantOp) (acc : Grid × Bool) (lf : (Nat × Nat) × Nat) :
    (q.levelPasses lf).foldl BandPass.apply acc = ((quantLevel q acc.1 lf).1, acc.2 || (quantLevel q acc.1 lf).2) := by
  simp [QuantOp.levelPasses, BandPass.apply, quantLevel, Bool.or_assoc]

/-- The quantizer runs its passes in order. -/
theorem quantGrid_eq_passes (q : QuantOp) (ls : List (Nat × Nat)) (fs : List Nat) (final : Nat × Nat) (x : Grid) :
    quantGrid q ls fs final x = (q.passes ls fs final).foldl BandPass.apply (x, false) := by
  rw [QuantOp.passes, List.foldl_append, List.foldl_flatMap]
  simp only [foldl_levelPasses]
  rfl

/-- The regions of the passes, one after another, are the positions in band order (R221, 30_encoding.md R113). -/
theorem flatMap_passes_positions (q : QuantOp) (iter w h : Nat) {fs : List Nat}
    (hfs : fs.length = (levelSizes iter w h).length) :
    (q.passes (levelSizes iter w h) fs (finalBlock iter w h)).flatMap (·.1.positions) = bandPositions iter w h := by
  have hlevel : ∀ lf, (q.levelPasses lf).flatMap (·.1.positions) = detailPositions lf.1 := fun lf => by
    simp [QuantOp.levelPasses, detailPositions_eq]
  have hsizes : ((levelSizes iter w h).zip fs).map Prod.fst = levelSizes iter w h := List.map_fst_zip hfs.ge
  rw [QuantOp.passes, List.flatMap_append, List.flatMap_assoc, List.flatMap_singleton, bandPositions]
  simp only [hlevel]
  rw [← List.flatMap_map Prod.fst detailPositions, hsizes, List.flatMap_def]

/-- The bands of a view and its final approximation do not overlap (R221). -/
theorem disjointPasses_passes (q : QuantOp) (iter w h : Nat) {fs : List Nat}
    (hfs : fs.length = (levelSizes iter w h).length) :
    DisjointPasses w h (q.passes (levelSizes iter w h) fs (finalBlock iter w h)) := by
  have hband := listsOnce_bandPositions iter w h
  have hpositions := flatMap_passes_positions q iter w h hfs
  constructor
  · intro p hp r c hin
    exact (hband.mem_iff r c).mp (hpositions ▸ List.mem_flatMap.mpr ⟨p, hp, hin⟩)
  · have hnodup := hpositions ▸ hband.nodup
    rw [List.nodup_flatMap] at hnodup
    exact hnodup.2

end Sys2Proof.Machine
end

section
/-! `Q_FWD` and `Q_INV` as commands (43_quant.md R241 to R243). -/

namespace Sys2Proof.Machine

/-- A quantizer command whose checks pass, in the sense of the rules, passes those of the model (R241). -/
theorem quantChecks_pass {i : Instr} {s : State} (hi : i = .qFwd ∨ i = .qInv) (h : ChecksPass i s) :
    ∀ c ∈ quantChecks s i, c.1 = false := by
  obtain ⟨hcfg, hgeomBad, halignBad, hbus, -⟩ := h
  have halpha : s.regs.alphaRaw ≠ 0 := by obtain rfl | rfl := hi <;> exact hcfg
  have hgeom : ¬ViewGeomBad s.regs.width s.regs.height s.regs.srcStride.toNat (4 * s.regs.width) := by
    obtain rfl | rfl := hi <;> exact hgeomBad
  have halign : ¬(s.regs.srcAddr.toNat % 4 ≠ 0 ∨ (2 ≤ s.regs.height ∧ s.regs.srcStride.toNat % 4 ≠ 0)) := by
    obtain rfl | rfl := hi <;> exact halignBad
  have hrange := View.wordInterval_eq_byteRange (v := s.regs.srcView) fun hzero => hgeom (.inr (.inl hzero))
  have hfootprint : badFootprint s.regs s.memSize i = false := by
    obtain rfl | rfl := hi <;> exact badFootprint_of_byteRange hrange hrange hbus
  have hmodelGeom : badWordGeom s.regs.srcView = false := badWordGeom_eq_false.mpr hgeom
  have hmodelAlign : badWordAlign s.regs.srcView = false := badWordAlign_eq_false.mpr halign
  simp [quantChecks, halpha, hmodelGeom, hmodelAlign, hfootprint]

/-- A command that passes its checks has a view whose rows do not overlap (R79). -/
theorem badWordGeom_of_quantPass {i : Instr} {s : State} (hi : i = .qFwd ∨ i = .qInv) (h : ChecksPass i s) :
    badWordGeom s.regs.srcView = false :=
  quantChecks_pass hi h (badWordGeom s.regs.srcView, .geom) (.tail _ (.head _))

theorem exec_qFwd_of_pass {s : State} (h : ChecksPass .qFwd s) :
    exec .qFwd s = .next (s.complete (runQuant quantForward s)) :=
  congrArg (Host.Outcome.next <| s.complete ·) (checked_of_pass (quantChecks_pass (.inl rfl) h))

theorem exec_qInv_of_pass {s : State} (h : ChecksPass .qInv s) :
    exec .qInv s = .next (s.complete (runQuant quantInverse s)) :=
  congrArg (Host.Outcome.next <| s.complete ·) (checked_of_pass (quantChecks_pass (.inr rfl) h))

/-! ## The passes a command runs -/

/-- The levels of the view (R220). -/
def Regs.levelList (r : Regs) : List (Nat × Nat) := levelSizes r.iter r.width r.height

/-- The passes of a quantizer command over the view (R242, R243). -/
def Regs.quantPasses (r : Regs) (q : QuantOp) : List BandPass :=
  q.passes r.levelList (r.factors r.levelList.length) (finalBlock r.iter r.width r.height)

theorem Regs.disjointPasses_quantPasses (r : Regs) (q : QuantOp) :
    DisjointPasses r.width r.height (r.quantPasses q) :=
  disjointPasses_passes q _ _ _ (r.length_factors _)

/-- The levels of the view with their factors. -/
theorem Regs.mem_levels_zip_factors {r : Regs} {lf : (Nat × Nat) × Nat} :
    lf ∈ r.levelList.zip (r.factors r.levelList.length) ↔ ∃ l < r.levelList.length,
      (r.levelList.getD l (0, 0), (r.factors r.levelList.length).getD l 0) = lf := by
  rw [List.mem_iff_getElem]
  constructor
  · rintro ⟨l, hl, rfl⟩
    have hl : l < r.levelList.length := by simpa using hl
    exact ⟨l, hl, by simp [hl]⟩
  · rintro ⟨l, hl, rfl⟩
    exact ⟨l, by simpa using hl, by simp [hl]⟩

/-- The passes are the three of each level and that of the final approximation (R242, R243). -/
theorem Regs.forall_quantPasses {r : Regs} {q : QuantOp} {P : BandPass → Prop} : (∀ p ∈ r.quantPasses q, P p) ↔
    (∀ l < r.levelList.length,
      P (diagonalRegion (r.levelList.getD l (0, 0)), q.detail (2 * (r.factors r.levelList.length).getD l 0)) ∧
      P (horizontalRegion (r.levelList.getD l (0, 0)), q.detail ((r.factors r.levelList.length).getD l 0)) ∧
      P (verticalRegion (r.levelList.getD l (0, 0)), q.detail ((r.factors r.levelList.length).getD l 0))) ∧
    P (finalRegion (finalBlock r.iter r.width r.height), q.final) := by
  rw [Regs.quantPasses, QuantOp.passes, List.forall_mem_append, List.forall_mem_flatMap, List.forall_mem_singleton]
  simp [Regs.mem_levels_zip_factors, QuantOp.levelPasses]

theorem Regs.exists_quantPasses {r : Regs} {q : QuantOp} {P : BandPass → Prop} : (∃ p ∈ r.quantPasses q, P p) ↔
    (∃ l < r.levelList.length,
      P (diagonalRegion (r.levelList.getD l (0, 0)), q.detail (2 * (r.factors r.levelList.length).getD l 0)) ∨
      P (horizontalRegion (r.levelList.getD l (0, 0)), q.detail ((r.factors r.levelList.length).getD l 0)) ∨
      P (verticalRegion (r.levelList.getD l (0, 0)), q.detail ((r.factors r.levelList.length).getD l 0))) ∨
    P (finalRegion (finalBlock r.iter r.width r.height), q.final) := by
  have hnone := not_congr (Regs.forall_quantPasses (r := r) (q := q) (P := fun p => ¬P p))
  simp only [not_and_or, not_forall, not_not, exists_prop] at hnone
  exact hnone

/-- The view after the passes of a quantizer command, and whether anything wrapped. -/
def State.quantResult (s : State) (q : QuantOp) : Grid × Bool :=
  (s.regs.quantPasses q).foldl BandPass.apply (s.regs.srcView.readGrid s.mem, false)

/-- The execution phase writes that view (R242, R243). -/
theorem runQuant_eq (q : QuantOp) (s : State) : runQuant q s = .ok (s.regs.srcView.gridCells (s.quantResult q).1)
    { outLen := s.regs.width * s.regs.height, levels := some s.regs.levelList.length,
      arithOvf := (s.quantResult q).2 } := by
  simp only [runQuant, quantGrid_eq_passes]
  rfl

/-- The completion of a quantizer command (R242, R243): each pass's value, wrapped, stands at its elements, every byte
outside the elements is as before, the flag is that of the passes, and the result registers are set. -/
theorem State.complete_runQuant {s : State} (hwf : s.mem.wf) (hgeom : badWordGeom s.regs.srcView = false)
    (q : QuantOp) :
    let v := s.regs.srcView
    let t := s.complete (runQuant q s)
    ∃ ovf, (∀ p ∈ s.regs.quantPasses q, ∀ r c, (r, c) ∈ p.1.positions →
        t.mem.readCoef (v.wordAddr r c) = wrap32 (p.2 (s.mem.readCoef (v.wordAddr r c))).1) ∧
      (∀ a, (∀ r < v.height, ∀ c < v.width, ¬(v.wordAddr r c ≤ a ∧ a < v.wordAddr r c + 4)) →
        t.mem.read a = s.mem.read a) ∧
      (ovf = true ↔ ∃ p ∈ s.regs.quantPasses q, ∃ r c, (r, c) ∈ p.1.positions ∧
        (p.2 (s.mem.readCoef (v.wordAddr r c))).2 = true) ∧
      CompletedWith s t { s.regs with
        outLen := BitVec.ofNat 32 (s.regs.width * s.regs.height)
        levels := BitVec.ofNat 5 s.regs.levelList.length
        status := statusAfterOk s.regs.status ovf false } := by
  intro v t
  have hpasses := s.regs.disjointPasses_quantPasses q
  have hgrid : IsGrid s.regs.width s.regs.height (v.readGrid s.mem, false).1 := v.isGrid_readGrid s.mem
  have hread : ∀ p ∈ s.regs.quantPasses q, ∀ r c, (r, c) ∈ p.1.positions →
      elemAt (v.readGrid s.mem) r c = s.mem.readCoef (v.wordAddr r c) := fun p hp r c hin =>
    v.elemAt_readGrid s.mem (hpasses.inside p hp r c hin).1 (hpasses.inside p hp r c hin).2
  have ht : t = s.complete (.ok (v.gridCells (s.quantResult q).1) _) := congrArg s.complete (runQuant_eq q s)
  have hmem : t.mem = s.mem.writeAll (v.gridCells (s.quantResult q).1) := by rw [ht, State.complete_ok_mem]
  refine ⟨(s.quantResult q).2, fun p hp r c hin => ?values, fun a ha => ?frame, ?flag, ?registers⟩
  case values =>
    obtain ⟨hr, hc⟩ := hpasses.inside p hp r c hin
    rw [hmem, v.readCoef_writeAll_gridCells hwf hgeom _ hr hc, State.quantResult, hpasses.elemAt_of_mem hgrid hp hin,
      hread p hp r c hin]
  case frame => rw [hmem, v.read_writeAll_gridCells_outside s.mem _ ha]
  case flag =>
    rw [State.quantResult, hpasses.flag_iff hgrid]
    simp only [Bool.false_eq_true, false_or]
    refine exists_congr fun p => and_congr_right fun hp => exists₂_congr fun r c => and_congr_right fun hin => ?_
    rw [hread p hp r c hin]
  case registers =>
    rw [ht]
    exact s.completedWith_ok _ _

/-! ## The statements about one command -/

theorem mem_final {w h r c : Nat} : (r, c) ∈ (finalRegion (w, h)).positions ↔ r < h ∧ c < w := by
  simp [finalRegion]

/-- Settles O55: the passes of `Q_FWD` divide the bands, which never wraps, and subtract the bias. -/
theorem qFwdDividesTheBands : Obligations.QFwdDividesTheBands := by
  intro s hwf hpass elem ls fs fin x
  obtain ⟨ovf, hvalue, hframe, hovf, hregs⟩ :=
    State.complete_runQuant hwf (badWordGeom_of_quantPass (.inl rfl) hpass) quantForward
  obtain ⟨hdetail, hfinal⟩ := Regs.forall_quantPasses.mp hvalue
  have hdivision : ∀ r c (d : Nat), wrap32 ((x r c).tdiv d) = (x r c).tdiv d := fun r c d =>
    wrap32_tdiv (s.mem.coef32_readCoef _) d
  refine ⟨_, ovf, exec_qFwd_of_pass hpass, fun l hl r c => ?bands, fun r c hr hc => ?final, hframe, ?flag, hregs⟩
  case bands =>
    obtain ⟨hdiagonal, hhorizontal, hvertical⟩ := hdetail l hl
    exact ⟨fun hr hr' hc hc' => (hdiagonal r c (mem_diagonal.mpr ⟨⟨hr, hr'⟩, hc, hc'⟩)).trans (hdivision r c _),
      fun hr hr' hc => (hhorizontal r c (mem_horizontal.mpr ⟨⟨hr, hr'⟩, c.zero_le, hc⟩)).trans (hdivision r c _),
      fun hr hc hc' => (hvertical r c (mem_vertical.mpr ⟨⟨r.zero_le, hr⟩, hc, hc'⟩)).trans (hdivision r c _)⟩
  case final => exact (hfinal r c (mem_final.mpr ⟨hr, hc⟩)).trans (wrap32_wrap32 _)
  case flag =>
    have hnever : ∀ d v, (quantForward.detail d v).2 = false := fun _ _ => rfl
    rw [hovf, Regs.exists_quantPasses]
    simp only [hnever, Bool.false_eq_true, and_false, exists_false, or_false, false_or]
    exact exists₂_congr fun r c => (and_congr mem_final ovf32_eq_true).trans and_assoc

/-- Settles O56: the passes of `Q_INV` multiply the bands and add the bias, each wrapped and flagged by itself. -/
theorem qInvMultipliesTheBands : Obligations.QInvMultipliesTheBands := by
  intro s hwf hpass elem ls fs fin x diagonal side
  obtain ⟨ovf, hvalue, hframe, hovf, hregs⟩ :=
    State.complete_runQuant hwf (badWordGeom_of_quantPass (.inr rfl) hpass) quantInverse
  obtain ⟨hdetail, hfinal⟩ := Regs.forall_quantPasses.mp hvalue
  have htwice : ∀ l r c, x r c * (2 * fs.getD l 0 : Nat) = x r c * 2 * fs.getD l 0 := fun l r c => by
    rw [Nat.cast_mul, Nat.cast_ofNat, mul_assoc]
  have hside : ∀ l r c, side l r c ↔ (r, c) ∈ (horizontalRegion (ls.getD l (0, 0))).positions ∨
      (r, c) ∈ (verticalRegion (ls.getD l (0, 0))).positions := fun l r c => by
    rw [mem_horizontal, mem_vertical]
    simp only [side, halfUp, Nat.zero_le, true_and, and_assoc]
  refine ⟨_, ovf, exec_qInv_of_pass hpass, fun l hl r c => ⟨fun hin => ?diagonal, fun hin => ?side⟩,
    fun r c hr hc => ?final, hframe, ?flag, hregs⟩
  case diagonal =>
    rw [← htwice]
    exact ((hdetail l hl).1 r c (mem_diagonal.mpr hin)).trans (wrap32_wrap32 _)
  case side =>
    obtain ⟨-, hhorizontal, hvertical⟩ := hdetail l hl
    obtain hin | hin := (hside l r c).mp hin
    · exact (hhorizontal r c hin).trans (wrap32_wrap32 _)
    · exact (hvertical r c hin).trans (wrap32_wrap32 _)
  case final => exact (hfinal r c (mem_final.mpr ⟨hr, hc⟩)).trans (wrap32_wrap32 _)
  case flag =>
    have hproduct : ∀ (d : Nat) v, (quantInverse.detail d v).2 = true ↔ ¬Coef32 (v * d) := fun _ _ => ovf32_eq_true
    rw [hovf, Regs.exists_quantPasses, or_comm]
    refine or_congr (exists₂_congr fun r c => (and_congr mem_final ovf32_eq_true).trans and_assoc)
      (exists_congr fun l => and_congr_right fun _ => ?_)
    simp only [← exists_or, hproduct]
    exact exists₂_congr fun r c => or_congr
      (and_congr mem_diagonal (not_congr (iff_of_eq (congrArg Coef32 (htwice l r c)))))
      (or_and_right.symm.trans (and_congr_left' (hside l r c).symm))

end Sys2Proof.Machine
end

section
/-! `Q_INV` after `Q_FWD` (43_quant.md R244). -/

namespace Sys2Proof.Machine

/-- A command keeps memory canonical. -/
theorem wf_of_exec {i : Instr} {s t : State} (hwf : s.mem.wf) (hexec : exec i s = .next t) : t.mem.wf := by
  rw [exec_eq_complete] at hexec
  cases hexec
  exact State.complete_wf hwf _

/-- The result registers are no operands of the checks, so after `Q_FWD` those of `Q_INV` pass (R241). -/
theorem checksPass_qInv_of_qFwd {s t : State} (h : ChecksPass .qFwd s) {outLen : Word} {levels : BitVec 5}
    {status : Status} (ht : CompletedWith s t { s.regs with outLen := outLen, levels := levels, status := status }) :
    ChecksPass .qInv t := by
  obtain ⟨hregs, -, -, -, hsize, -⟩ := ht
  obtain ⟨hcfg, hgeom, halign, hbus, halias⟩ := h
  simp only [ChecksPass, CfgBad, GeomBad, AlignBad, BusBad, AliasBad, readBase, readLength, writeBase, writeLength,
    hregs, hsize]
  exact ⟨hcfg, hgeom, halign, hbus, halias⟩

/-- Settles O57: `Q_INV` multiplies what `Q_FWD` divided by the same divisor, and adds the bias back. -/
theorem quantizerRoundTripBound : Obligations.QuantizerRoundTripBound := by
  intro s hwf hpass elem ls fs fin
  obtain ⟨t, ovf, hforward, hdivided, hbiased, -, -, ht⟩ := qFwdDividesTheBands s hwf hpass
  have hinverse := qInvMultipliesTheBands t (wf_of_exec hwf hforward) (checksPass_qInv_of_qFwd hpass ht)
  rw [ht.1] at hinverse
  obtain ⟨u, -, hbackward, hmultiplied, hrestored, -⟩ := hinverse
  have hx : ∀ r c, Coef32 (s.mem.readCoef (elem r c)) := fun r c => s.mem.coef32_readCoef _
  have hpos : ∀ l < ls.length, 0 < fs.getD l 0 := fun l hl => s.regs.factors_getD_pos hl
  refine ⟨t, u, hforward, hbackward, fun r c hr hc => ?final, fun l hl r c hr hc => ?detail⟩
  case final =>
    calc u.mem.readCoef (elem r c)
        = wrap32 (t.mem.readCoef (elem r c) + 128) := hrestored r c hr hc
      _ = wrap32 (wrap32 (s.mem.readCoef (elem r c) + -128) - -128) := by rw [hbiased r c hr hc]; rfl
      _ = s.mem.readCoef (elem r c) := wrap32_sub_wrap32_add (hx r c) (-128)
  case detail =>
    intro x y d hband
    obtain ⟨hdiagonal, hside⟩ := hmultiplied l hl r c
    obtain ⟨hdivDiagonal, hdivHorizontal, hdivVertical⟩ := hdivided l hl r c
    have hround : ∀ k : Nat, 0 < k → d = k → t.mem.readCoef (elem r c) = x.tdiv k →
        y = wrap32 (t.mem.readCoef (elem r c) * k) → |x - y| < d ∧ |y| ≤ |x| ∧ (y = x ↔ d ∣ x) := by
      intro k hk hd hdiv hmul
      rw [hmul, hdiv, hd]
      exact wrap32_tdiv_mul (hx r c) hk
    obtain ⟨hr', hc', hd⟩ | ⟨hr', hc', hd⟩ | ⟨hr', hc', hd⟩ := hband
    · have htwice : ((2 * fs.getD l 0 : Nat) : Int) = 2 * fs.getD l 0 := Nat.cast_mul 2 _
      have hdiv : t.mem.readCoef (elem r c) = x.tdiv (2 * fs.getD l 0) := hdivDiagonal hr' hr hc' hc
      have hmul : y = wrap32 (t.mem.readCoef (elem r c) * 2 * fs.getD l 0) := hdiagonal ⟨⟨hr', hr⟩, hc', hc⟩
      rw [mul_assoc] at hmul
      rw [← htwice] at hd hdiv hmul
      exact hround _ (Nat.mul_pos two_pos (hpos l hl)) hd hdiv hmul
    · exact hround _ (hpos l hl) hd (hdivHorizontal hr' hr hc') (hside (.inl ⟨hr', hr, hc'⟩))
    · exact hround _ (hpos l hl) hd (hdivVertical hr' hc' hc) (hside (.inr ⟨hr', hc', hc⟩))

end Sys2Proof.Machine
end

section
/-! What `PACK` and `UNPACK` share: the positions `pos_k`, the bytes of the byte side, the result registers and the
check phase (20_memory.md R74, R76, R77, R79, R80; 44_pack.md R261). -/

namespace Sys2Proof.Machine

/-! ## `pos_k` -/

/-- `pos_k` (R261). -/
def Regs.posAt (r : Regs) (o : Order) (k : Nat) : Nat × Nat := (r.positions o).getD k (0, 0)

theorem Regs.listsOnce_positions (r : Regs) (o : Order) : ListsOnce (r.positions o) r.width r.height := by
  cases o with
  | raster => exact listsOnce_rasterPositions _ _
  | band => exact listsOnce_bandPositions _ _ _

@[simp] theorem Regs.length_positions (r : Regs) (o : Order) : (r.positions o).length = r.width * r.height := by
  rw [((r.listsOnce_positions o).perm (listsOnce_rasterPositions _ _)).length_eq, length_rasterPositions]

theorem Regs.posAt_eq_getElem {r : Regs} {o : Order} {k : Nat} (hk : k < (r.positions o).length) :
    r.posAt o k = (r.positions o)[k] := List.getD_eq_getElem _ _ hk

/-- What a command makes of its positions, by index. -/
theorem Regs.mem_mapIdx_positions {α : Type} {r : Regs} {o : Order} {f : Nat → Nat × Nat → α} {a : α} :
    a ∈ (r.positions o).mapIdx f ↔ ∃ k < r.width * r.height, f k (r.posAt o k) = a := by
  rw [List.mem_mapIdx, ← r.length_positions o]
  exact exists_congr fun k =>
    ⟨fun ⟨hk, ha⟩ => ⟨hk, Regs.posAt_eq_getElem hk ▸ ha⟩, fun ⟨hk, ha⟩ => ⟨hk, Regs.posAt_eq_getElem hk ▸ ha⟩⟩

theorem Regs.posAt_lt {r : Regs} {o : Order} {k : Nat} (hk : k < r.width * r.height) :
    (r.posAt o k).1 < r.height ∧ (r.posAt o k).2 < r.width := by
  rw [← r.length_positions o] at hk
  rw [← (r.listsOnce_positions o).mem_iff, Regs.posAt_eq_getElem hk]
  exact List.getElem_mem hk

theorem Regs.posAt_inj {r : Regs} {o : Order} {k l : Nat} (hk : k < r.width * r.height) (hl : l < r.width * r.height)
    (heq : r.posAt o k = r.posAt o l) : k = l := by
  rw [← r.length_positions o] at hk hl
  rw [Regs.posAt_eq_getElem hk, Regs.posAt_eq_getElem hl] at heq
  exact (r.listsOnce_positions o).nodup.getElem_inj_iff.mp heq

theorem Regs.exists_posAt_eq {r : Regs} (o : Order) {i j : Nat} (hi : i < r.height) (hj : j < r.width) :
    ∃ k < r.width * r.height, r.posAt o k = (i, j) := by
  obtain ⟨k, hk, heq⟩ := List.mem_iff_getElem.mp (((r.listsOnce_positions o).mem_iff i j).mpr ⟨hi, hj⟩)
  exact ⟨k, r.length_positions o ▸ hk, (Regs.posAt_eq_getElem hk).trans heq⟩

/-! ## The byte side -/

/-- R79 on a byte view. -/
theorem badByteGeom_eq_false {v : View} :
    badByteGeom v = false ↔ ¬ViewGeomBad v.width v.height v.stride v.width := by
  simp [badByteGeom, ViewGeomBad, and_assoc]

/-- A byte view is a range of bytes (R76). -/
theorem View.byteInterval_eq_byteRange {v : View} (hheight : v.height ≠ 0) :
    v.byteInterval = byteRange v.base ((v.height - 1) * v.stride + v.width) :=
  congrArg (Interval.mk _) (toNat_interval_end hheight _ _ _)

/-- The word view whose element addresses are four times those of a byte view. -/
def View.quadrupled (v : View) : View := ⟨4 * v.base, v.width, v.height, 4 * v.stride⟩

theorem View.wordAddr_quadrupled (v : View) (r c : Nat) : v.quadrupled.wordAddr r c = 4 * v.byteAddr r c := by
  simp only [View.wordAddr, View.byteAddr, View.quadrupled]
  ring

theorem badWordGeom_quadrupled {v : View} (hgeom : badByteGeom v = false) : badWordGeom v.quadrupled = false := by
  simpa [badWordGeom_eq_false, badByteGeom_eq_false, ViewGeomBad, View.quadrupled] using hgeom

/-- The elements of a byte view whose rows do not overlap lie at distinct addresses (R79). -/
theorem View.byteAddr_inj {v : View} (hgeom : badByteGeom v = false) {r r' c c' : Nat} (hr : r < v.height)
    (hr' : r' < v.height) (hc : c < v.width) (hc' : c' < v.width) (heq : v.byteAddr r c = v.byteAddr r' c') :
    r = r' ∧ c = c' := by
  have hsame : v.quadrupled.wordAddr r c = v.quadrupled.wordAddr r' c' := by
    rw [View.wordAddr_quadrupled, View.wordAddr_quadrupled, heq]
  have hfirst : v.quadrupled.wordAddr r c < v.quadrupled.wordAddr r c + 4 := Nat.lt_add_of_pos_right (by decide)
  exact View.wordAddr_inj (badWordGeom_quadrupled hgeom) hr hr' hc hc' ⟨le_rfl, hfirst⟩
    (hsame ▸ ⟨le_rfl, hfirst⟩)

/-- Distinct indices have distinct bytes (R261). -/
theorem Regs.byteSideAddr_inj {r : Regs} {o : Order} {v : View} (hwidth : v.width = r.width)
    (hheight : v.height = r.height) (hgeom : o = .raster → badByteGeom v = false) {k l : Nat}
    (hk : k < r.width * r.height) (hl : l < r.width * r.height)
    (heq : byteSideAddr v o k (r.posAt o k) = byteSideAddr v o l (r.posAt o l)) : k = l := by
  cases o with
  | raster =>
    obtain ⟨hrow, hcol⟩ := Regs.posAt_lt (o := .raster) hk
    obtain ⟨hrow', hcol'⟩ := Regs.posAt_lt (o := .raster) hl
    rw [← hheight] at hrow hrow'
    rw [← hwidth] at hcol hcol'
    obtain ⟨hr, hc⟩ := View.byteAddr_inj (hgeom rfl) hrow hrow' hcol hcol' heq
    exact Regs.posAt_inj hk hl (Prod.ext hr hc)
  | band => exact Nat.add_left_cancel heq

/-! ## The result registers -/

/-- `LEVELS` after a command in order `o`: `L` in band order, as before in raster order (R261). -/
def Regs.levelsAfter (r : Regs) : Order → BitVec 5
  | .raster => r.levels
  | .band => BitVec.ofNat 5 (levelSizes r.iter r.width r.height).length

/-- The registers a command that visits every index leaves (R261). -/
theorem State.completedWith_packOuts (s : State) (ws : List Host.Cell) (o : Order) (n : Nat) (ovf : Bool) :
    CompletedWith s (s.complete (.ok ws { outLen := n, levels := s.regs.packLevels o, narrowOvf := ovf }))
      { s.regs with
        outLen := BitVec.ofNat 32 n
        levels := s.regs.levelsAfter o
        status := statusAfterOk s.regs.status false ovf } := by
  cases o <;> exact s.completedWith_ok _ _

/-! ## The check phase -/

/-- The check phase `PACK` and `UNPACK` share, on the word view and the view of the byte side (R263, R266). -/
def conversionChecks (s : State) (o : Order) (words bytes : View) (i : Instr) : List (Bool × ErrCode) := [
  (badWordGeom words || (o == .raster && badByteGeom bytes), .geom),
  (badWordAlign words, .align),
  (badFootprint s.regs s.memSize i, .bus),
  (badAliasing s.regs i, .aliasing)]

theorem packChecks_eq_conversionChecks (s : State) (o : Order) (i : Instr) :
    packChecks s o i = conversionChecks s o s.regs.srcView s.regs.dstView i := rfl

theorem unpackChecks_eq_conversionChecks (s : State) (o : Order) (i : Instr) :
    unpackChecks s o i = conversionChecks s o s.regs.dstView s.regs.srcView i := rfl

/-- A conversion whose checks pass, in the sense of the rules, passes those of the model. -/
theorem conversionChecks_pass {s : State} {o : Order} {words bytes : View} {i : Instr}
    (hgeom : badWordGeom words = false ∧ (o = .raster → badByteGeom bytes = false))
    (halign : ¬(words.base % 4 ≠ 0 ∨ (2 ≤ words.height ∧ words.stride % 4 ≠ 0)))
    (hread : readInterval s.regs i = byteRange (readBase i s.regs) (readLength i s.regs))
    (hwrite : writeInterval s.regs i = byteRange (writeBase i s.regs) (writeLength i s.regs)) (hbus : ¬BusBad i s)
    (hdisjoint : ¬∃ a, (readBase i s.regs ≤ a ∧ a < readBase i s.regs + readLength i s.regs) ∧
      (writeBase i s.regs ≤ a ∧ a < writeBase i s.regs + writeLength i s.regs)) :
    ∀ c ∈ conversionChecks s o words bytes i, c.1 = false := by
  obtain ⟨hword, hbyte⟩ := hgeom
  have hfootprint := badFootprint_of_byteRange hread hwrite hbus
  have haliasing : badAliasing s.regs i = false := by
    rw [badAliasing, hread, hwrite, Bool.eq_false_iff]
    exact mt overlaps_byteRange.mp hdisjoint
  have hmodelAlign := badWordAlign_eq_false.mpr halign
  cases o with
  | raster => simp [conversionChecks, hword, hbyte rfl, hmodelAlign, hfootprint, haliasing]
  | band => simp [conversionChecks, hword, hmodelAlign, hfootprint, haliasing]

end Sys2Proof.Machine
end

section
/-! `PACK.WRAP`, `PACK.SATS` and `PACK.SATU` as commands (44_pack.md R261 to R265). -/

namespace Sys2Proof.Machine

/-- `i` is the `PACK` in order `o` that keeps the low 8 bits of `value` and flags what lies outside `lo .. hi`
(R262). -/
def IsPack (o : Order) (i : Instr) (value : Int → Int) (lo hi : Int) : Prop :=
  (i = .packWrap o ∧ value = id ∧ lo = -128 ∧ hi = 255) ∨
    (i = .packSats o ∧ value = (fun v => min 127 (max (-128) v)) ∧ lo = -128 ∧ hi = 127) ∨
    (i = .packSatu o ∧ value = (fun v => min 255 (max 0 v)) ∧ lo = 0 ∧ hi = 255)

/-- The narrowing functions of R262, all three: `narrowWrap`, `narrowSats` and `narrowSatu` by their parameters. -/
def narrowTo (value : Int → Int) (lo hi v : Int) : Byte × Bool := (BitVec.ofInt 8 (value v), v < lo || hi < v)

/-- The three modes have one check phase (R264, R265): it is that of `PACK.WRAP`, in the rules and in the model. -/
theorem IsPack.checks {o : Order} {i : Instr} {value : Int → Int} {lo hi : Int} (hpack : IsPack o i value lo hi)
    (s : State) : (ChecksPass i s ↔ ChecksPass (.packWrap o) s) ∧
      packChecks s o i = packChecks s o (.packWrap o) := by
  obtain ⟨rfl, -⟩ | ⟨rfl, -⟩ | ⟨rfl, -⟩ := hpack <;> cases o <;> exact ⟨Iff.rfl, rfl⟩

/-- R79 on both sides of a `PACK` whose checks pass. -/
theorem badGeom_of_packPass {o : Order} {s : State} (h : ChecksPass (.packWrap o) s) :
    badWordGeom s.regs.srcView = false ∧ (o = .raster → badByteGeom s.regs.dstView = false) := by
  obtain ⟨-, hgeom, -⟩ := h
  rw [badWordGeom_eq_false, badByteGeom_eq_false]
  cases o with
  | raster => exact (not_or.mp hgeom).imp_right fun hbyte _ => hbyte
  | band => exact ⟨hgeom, nofun⟩

/-- A `PACK` whose checks pass, in the sense of the rules, passes those of the model (R263). -/
theorem packChecks_pass {o : Order} {s : State} (h : ChecksPass (.packWrap o) s) :
    ∀ c ∈ packChecks s o (.packWrap o), c.1 = false := by
  have hmodelGeom := badGeom_of_packPass h
  obtain ⟨-, -, halign, hbus, halias⟩ := h
  have hheight : s.regs.height ≠ 0 := fun hzero => badWordGeom_eq_false.mp hmodelGeom.1 (.inr (.inl hzero))
  have hread := View.wordInterval_eq_byteRange (v := s.regs.srcView) hheight
  have hwrite : writeInterval s.regs (.packWrap o) =
      byteRange (writeBase (.packWrap o) s.regs) (writeLength (.packWrap o) s.regs) := by
    cases o with
    | raster => exact View.byteInterval_eq_byteRange (v := s.regs.dstView) hheight
    | band => rfl
  rw [packChecks_eq_conversionChecks]
  exact conversionChecks_pass hmodelGeom halign hread hwrite hbus halias

/-- A `PACK` with its checks passed is its execution phase. -/
theorem exec_pack_of_pass {o : Order} {i : Instr} {value : Int → Int} {lo hi : Int} {s : State}
    (hpack : IsPack o i value lo hi) (h : ChecksPass i s) :
    exec i s = .next (s.complete (runPack (narrowTo value lo hi) o s)) := by
  obtain ⟨hpass, hchecks⟩ := hpack.checks s
  have hrun : ∀ run, checked s.regs i (packChecks s o i) run = run := fun run =>
    checked_of_pass (hchecks ▸ packChecks_pass (hpass.mp h))
  rw [exec_eq_complete, ← hrun (runPack _ o s)]
  obtain ⟨rfl, rfl, rfl, rfl⟩ | ⟨rfl, rfl, rfl, rfl⟩ | ⟨rfl, rfl, rfl, rfl⟩ := hpack <;> rfl

/-- The cells a `PACK` writes, by index. -/
theorem mem_packCells {narrow : Int → Byte × Bool} {o : Order} {s : State} {c : Host.Cell} :
    c ∈ ((s.regs.positions o).mapIdx (packCell narrow o s)).map (·.1) ↔
      ∃ k < s.regs.width * s.regs.height, (packCell narrow o s k (s.regs.posAt o k)).1 = c := by
  simp only [List.mem_map, Regs.mem_mapIdx_positions, exists_exists_and_eq_and]

/-- Its overflow indications, by index. -/
theorem any_packCells {narrow : Int → Byte × Bool} {o : Order} {s : State} :
    ((s.regs.positions o).mapIdx (packCell narrow o s)).any (·.2) = true ↔
      ∃ k < s.regs.width * s.regs.height, (packCell narrow o s k (s.regs.posAt o k)).2 = true := by
  simp only [List.any_eq_true, Regs.mem_mapIdx_positions, exists_exists_and_eq_and]

/-- The completion of a `PACK` (R263): each index's byte is the narrowed element, every other byte is as before, the
flag is that of the elements, and the result registers are set. -/
theorem State.complete_runPack {s : State} {o : Order} (hwf : s.mem.wf)
    (hgeom : o = .raster → badByteGeom s.regs.dstView = false) (value : Int → Int) (lo hi : Int) :
    let n := s.regs.width * s.regs.height
    let t := s.complete (runPack (narrowTo value lo hi) o s)
    let x := fun k => s.mem.readCoef (s.regs.srcView.wordAddr (s.regs.posAt o k).1 (s.regs.posAt o k).2)
    let addr := fun k => byteSideAddr s.regs.dstView o k (s.regs.posAt o k)
    ∃ ovf, (∀ k < n, t.mem.read (addr k) = BitVec.ofInt 8 (value (x k))) ∧
      (∀ a, (∀ k < n, a ≠ addr k) → t.mem.read a = s.mem.read a) ∧
      (ovf = true ↔ ∃ k < n, x k < lo ∨ hi < x k) ∧
      CompletedWith s t { s.regs with
        outLen := BitVec.ofNat 32 n
        levels := s.regs.levelsAfter o
        status := statusAfterOk s.regs.status false ovf } := by
  intro n t x addr
  refine ⟨_, fun k hk => ?bytes, fun a ha => ?frame, any_packCells.trans ?flag, s.completedWith_packOuts ..⟩
  case bytes =>
    refine Memory.read_writeAll_of_agree (c := (addr k, _)) hwf (mem_packCells.mpr ⟨k, hk, rfl⟩) fun d hd heq => ?_
    obtain ⟨l, hl, rfl⟩ := mem_packCells.mp hd
    obtain rfl : l = k := Regs.byteSideAddr_inj rfl rfl hgeom hl hk heq
    rfl
  case frame =>
    refine Memory.read_writeAll_other _ _ fun c hc heq => ?_
    obtain ⟨k, hk, rfl⟩ := mem_packCells.mp hc
    exact ha k hk heq.symm
  case flag => simp [packCell, narrowTo, n, x]

/-- A byte is the value stored in it modulo 256. -/
theorem natCast_toNat_ofInt_byte (v : Int) : ((BitVec.ofInt 8 v).toNat : Int) = v % 256 := by
  rw [BitVec.toNat_ofInt]
  exact Int.toNat_of_nonneg (Int.emod_nonneg v (by decide))

/-- Settles O58: each of the three modes writes the bytes of its narrowing function, index by index. -/
theorem packNarrowsEveryElement : Obligations.PackNarrowsEveryElement := by
  intro s o i value lo hi hwf hpack hpass n order pos x addr
  let t := s.complete (runPack (narrowTo value lo hi) o s)
  have hgeom := (badGeom_of_packPass ((IsPack.checks hpack s).1.mp hpass)).2
  obtain ⟨ovf, hbytes, hframe, hflag, hregs⟩ := State.complete_runPack hwf hgeom value lo hi
  have hmod : ∀ k < n, ((t.mem.read (addr k)).toNat : Int) = value (x k) % 256 := fun k hk =>
    (congrArg (fun b : Byte => (b.toNat : Int)) (hbytes k hk)).trans (natCast_toNat_ofInt_byte _)
  exact ⟨t, ovf, exec_pack_of_pass hpack hpass, hmod, hframe, hflag, hregs⟩

end Sys2Proof.Machine
end

section
/-! `UNPACK.U` and `UNPACK.S` as commands (44_pack.md R261, R262, R266, R267). -/

namespace Sys2Proof.Machine

/-- `i` is the `UNPACK` in order `o` that widens by `value` (R262). -/
def IsUnpack (o : Order) (i : Instr) (value : Byte → Int) : Prop :=
  (i = .unpackU o ∧ value = fun b => (b.toNat : Int)) ∨ (i = .unpackS o ∧ value = fun b => b.toInt)

/-- `sext_8` reads a byte as two's complement (00_scope.md R8). -/
theorem widenS_eq_toInt : widenS = BitVec.toInt := by
  funext b
  have hsign : b.toNat < 2 ^ 7 ↔ 2 * b.toNat < 2 ^ 8 := by omega
  rw [BitVec.toInt_eq_toNat_cond, widenS, sext, ite_cond_congr (propext hsign)]
  rfl

/-- The two modes have one check phase (R267): it is that of `UNPACK.U`, in the rules and in the model. -/
theorem IsUnpack.checks {o : Order} {i : Instr} {value : Byte → Int} (hunpack : IsUnpack o i value) (s : State) :
    (ChecksPass i s ↔ ChecksPass (.unpackU o) s) ∧ unpackChecks s o i = unpackChecks s o (.unpackU o) := by
  obtain ⟨rfl, -⟩ | ⟨rfl, -⟩ := hunpack <;> cases o <;> exact ⟨Iff.rfl, rfl⟩

/-- R79 on both sides of an `UNPACK` whose checks pass. -/
theorem badGeom_of_unpackPass {o : Order} {s : State} (h : ChecksPass (.unpackU o) s) :
    badWordGeom s.regs.dstView = false ∧ (o = .raster → badByteGeom s.regs.srcView = false) := by
  obtain ⟨-, hgeom, -⟩ := h
  rw [badWordGeom_eq_false, badByteGeom_eq_false]
  cases o with
  | raster => exact (not_or.mp hgeom).imp_right fun hbyte _ => hbyte
  | band => exact ⟨hgeom, nofun⟩

/-- An `UNPACK` whose checks pass, in the sense of the rules, passes those of the model (R266). -/
theorem unpackChecks_pass {o : Order} {s : State} (h : ChecksPass (.unpackU o) s) :
    ∀ c ∈ unpackChecks s o (.unpackU o), c.1 = false := by
  have hmodelGeom := badGeom_of_unpackPass h
  obtain ⟨-, -, halign, hbus, halias⟩ := h
  have hheight : s.regs.height ≠ 0 := fun hzero => badWordGeom_eq_false.mp hmodelGeom.1 (.inr (.inl hzero))
  have hwrite := View.wordInterval_eq_byteRange (v := s.regs.dstView) hheight
  have hread : readInterval s.regs (.unpackU o) =
      byteRange (readBase (.unpackU o) s.regs) (readLength (.unpackU o) s.regs) := by
    cases o with
    | raster => exact View.byteInterval_eq_byteRange (v := s.regs.srcView) hheight
    | band => rfl
  rw [unpackChecks_eq_conversionChecks]
  exact conversionChecks_pass hmodelGeom halign hread hwrite hbus halias

/-- An `UNPACK` with its checks passed is its execution phase. -/
theorem exec_unpack_of_pass {o : Order} {i : Instr} {value : Byte → Int} {s : State} (hunpack : IsUnpack o i value)
    (h : ChecksPass i s) : exec i s = .next (s.complete (runUnpack value o s)) := by
  obtain ⟨hpass, hchecks⟩ := hunpack.checks s
  have hrun : ∀ run, checked s.regs i (unpackChecks s o i) run = run := fun run =>
    checked_of_pass (hchecks ▸ unpackChecks_pass (hpass.mp h))
  rw [exec_eq_complete, ← hrun (runUnpack _ o s)]
  obtain ⟨rfl, rfl⟩ | ⟨rfl, rfl⟩ := hunpack
  · rfl
  · exact widenS_eq_toInt ▸ rfl

/-- A widened byte is a coefficient. -/
theorem IsUnpack.coef32 {o : Order} {i : Instr} {value : Byte → Int} (hunpack : IsUnpack o i value) (b : Byte) :
    Coef32 (value b) := by
  obtain ⟨-, rfl⟩ | ⟨-, rfl⟩ := hunpack
  · have := b.isLt
    dsimp only
    omega
  · have hlo := b.le_toInt
    have hhi := b.toInt_lt
    dsimp only
    omega

/-- The cells an `UNPACK` writes, by index. -/
theorem mem_unpackCells {widen : Byte → Int} {o : Order} {s : State} {c : Host.Cell} :
    c ∈ ((s.regs.positions o).mapIdx (unpackCells widen o s)).flatten ↔
      ∃ k < s.regs.width * s.regs.height, c ∈ unpackCells widen o s k (s.regs.posAt o k) := by
  simp only [List.mem_flatten, Regs.mem_mapIdx_positions, exists_exists_and_eq_and]

/-- An element whose cells are written, and no other cell on its bytes, reads as the value written (R72). -/
theorem Memory.readCoef_writeAll_of_agree {m : Memory} (hm : m.wf) {cells : List Host.Cell} {addr : Nat} {v : Int}
    (hv : Coef32 v) (hcells : ∀ c ∈ coefCells addr v, c ∈ cells)
    (hagree : ∀ d ∈ cells, addr ≤ d.1 ∧ d.1 < addr + 4 → d ∈ coefCells addr v) :
    (m.writeAll cells).readCoef addr = v := by
  refine readCoef_of_cells hv fun c hc => read_writeAll_of_agree hm (hcells c hc) fun d hd heq => ?_
  obtain ⟨i, hi, rfl⟩ := mem_cellsAt.mp hc
  obtain ⟨j, hj, rfl⟩ := mem_cellsAt.mp (hagree d hd (heq ▸ addr_of_mem_coefCells hc))
  obtain rfl : j = i := Nat.add_left_cancel heq
  rfl

/-- The completion of an `UNPACK` (R266): each index's element is the widened byte, every byte outside the elements is
as before, and the result registers are set. -/
theorem State.complete_runUnpack {s : State} {o : Order} (hwf : s.mem.wf) (hgeom : badWordGeom s.regs.dstView = false)
    {value : Byte → Int} (hvalue : ∀ b, Coef32 (value b)) :
    let n := s.regs.width * s.regs.height
    let t := s.complete (runUnpack value o s)
    let elem := fun k => s.regs.dstView.wordAddr (s.regs.posAt o k).1 (s.regs.posAt o k).2
    let addr := fun k => byteSideAddr s.regs.srcView o k (s.regs.posAt o k)
    (∀ k < n, t.mem.readCoef (elem k) = value (s.mem.read (addr k))) ∧
      (∀ a, (∀ k < n, ¬(elem k ≤ a ∧ a < elem k + 4)) → t.mem.read a = s.mem.read a) ∧
      CompletedWith s t { s.regs with
        outLen := BitVec.ofNat 32 n
        levels := s.regs.levelsAfter o
        status := statusAfterOk s.regs.status false false } := by
  intro n t elem addr
  refine ⟨fun k hk => ?elements, fun a ha => ?frame, s.completedWith_packOuts ..⟩
  case elements =>
    refine Memory.readCoef_writeAll_of_agree hwf (hvalue _) (fun c hc => mem_unpackCells.mpr ⟨k, hk, hc⟩)
      fun d hd hrange => ?_
    obtain ⟨l, hl, hd⟩ := mem_unpackCells.mp hd
    have hpos := Regs.posAt_lt (o := o) hk
    have hpos' := Regs.posAt_lt (o := o) hl
    obtain ⟨hr, hc⟩ := View.wordAddr_inj hgeom hpos'.1 hpos.1 hpos'.2 hpos.2 (addr_of_mem_coefCells hd) hrange
    obtain rfl : l = k := Regs.posAt_inj hl hk (Prod.ext hr hc)
    exact hd
  case frame =>
    refine Memory.read_writeAll_other _ _ fun c hc heq => ?_
    obtain ⟨k, hk, hc⟩ := mem_unpackCells.mp hc
    exact ha k hk (heq ▸ addr_of_mem_coefCells hc)

/-- Settles O59: both modes write the elements of their widening function, index by index. -/
theorem unpackWidensEveryByte : Obligations.UnpackWidensEveryByte := by
  intro s o i value hwf hunpack hpass
  have hgeom := (badGeom_of_unpackPass ((IsUnpack.checks hunpack s).1.mp hpass)).1
  have hcomplete := State.complete_runUnpack (o := o) hwf hgeom (IsUnpack.coef32 hunpack)
  exact ⟨_, exec_unpack_of_pass hunpack hpass, hcomplete⟩

end Sys2Proof.Machine
end

section
/-! `UNPACK` after `PACK` (44_pack.md R268). -/

namespace Sys2Proof.Machine

/-- The signed byte of a value from `-128` to `127` is that value. -/
theorem toInt_ofInt_byte {x : Int} (hlo : -128 ≤ x) (hhi : x ≤ 127) : (BitVec.ofInt 8 x).toInt = x :=
  BitVec.toInt_ofInt_eq_self (by decide) hlo (Int.lt_add_one_of_le hhi)

/-- The unsigned byte of a value from `0` to `255` is that value. -/
theorem natCast_toNat_ofInt_of_range {x : Int} (hlo : 0 ≤ x) (hhi : x ≤ 255) : ((BitVec.ofInt 8 x).toNat : Int) = x :=
  (natCast_toNat_ofInt_byte x).trans (Int.emod_eq_of_lt hlo (Int.lt_add_one_of_le hhi))

/-- Each pair of R268 restores the values of the range both commands fit: saturation leaves them alone, and widening
undoes the reduction to a byte. -/
theorem widen_narrow_of_pair {o : Order} {p u : Instr} {lo hi : Int}
    (hpair : ((p = .packSats o ∨ p = .packWrap o) ∧ u = .unpackS o ∧ lo = -128 ∧ hi = 127) ∨
      ((p = .packSatu o ∨ p = .packWrap o) ∧ u = .unpackU o ∧ lo = 0 ∧ hi = 255)) :
    ∃ narrowed plo phi widened, IsPack o p narrowed plo phi ∧ IsUnpack o u widened ∧
      ∀ x, lo ≤ x → x ≤ hi → widened (BitVec.ofInt 8 (narrowed x)) = x := by
  obtain ⟨hp, rfl, rfl, rfl⟩ | ⟨hp, rfl, rfl, rfl⟩ := hpair
  · obtain rfl | rfl := hp
    · refine ⟨_, _, _, _, .inr (.inl ⟨rfl, rfl, rfl, rfl⟩), .inr ⟨rfl, rfl⟩, fun x hlo hhi => ?_⟩
      rw [max_eq_right hlo, min_eq_right hhi, toInt_ofInt_byte hlo hhi]
    · exact ⟨_, _, _, _, .inl ⟨rfl, rfl, rfl, rfl⟩, .inr ⟨rfl, rfl⟩, fun x => toInt_ofInt_byte⟩
  · obtain rfl | rfl := hp
    · refine ⟨_, _, _, _, .inr (.inr ⟨rfl, rfl, rfl, rfl⟩), .inl ⟨rfl, rfl⟩, fun x hlo hhi => ?_⟩
      rw [max_eq_right hlo, min_eq_right hhi, natCast_toNat_ofInt_of_range hlo hhi]
    · exact ⟨_, _, _, _, .inl ⟨rfl, rfl, rfl, rfl⟩, .inl ⟨rfl, rfl⟩, fun x => natCast_toNat_ofInt_of_range⟩

/-- Settles O60: both commands use one sequence of positions, so index by index the second reads the byte the first
wrote for the element it restores. -/
theorem packUnpackRoundTrip : Obligations.PackUnpackRoundTrip := by
  intro s o dst stride p u lo hi hwf hpair hpass
  obtain ⟨narrowed, plo, phi, widened, hpack, hunpack, hrestores⟩ := widen_narrow_of_pair hpair
  have hgeom := (badGeom_of_packPass ((hpack.checks s).1.mp hpass)).2
  obtain ⟨-, hbytes, -⟩ := State.complete_runPack hwf hgeom narrowed plo phi
  dsimp only at hbytes
  have hexec := exec_pack_of_pass hpack hpass
  refine ⟨_, hexec, ?_⟩
  intro t hpass'
  have hgeom' := (badGeom_of_unpackPass ((hunpack.checks t).1.mp hpass')).1
  have hwf' : t.mem.wf := State.complete_wf hwf _
  obtain ⟨helements, -⟩ := State.complete_runUnpack (o := o) hwf' hgeom' hunpack.coef32
  dsimp only at helements
  refine ⟨_, exec_unpack_of_pass hunpack hpass', ?_⟩
  intro r hr c hc x hlo hhi
  obtain ⟨k, hk, hpos⟩ := Regs.exists_posAt_eq o hr hc
  have hpos' : t.regs.posAt o k = (r, c) := hpos
  have hbyte : t.mem.read (byteSideAddr t.regs.srcView o k (t.regs.posAt o k)) = BitVec.ofInt 8 (narrowed x) := by
    refine (hbytes k hk).trans ?_
    rw [hpos]
    rfl
  calc (t.complete (runUnpack widened o t)).mem.readCoef (dst.toNat + r * stride.toNat + 4 * c)
      = widened (t.mem.read (byteSideAddr t.regs.srcView o k (t.regs.posAt o k))) := by
        rw [← helements k hk, hpos']
        rfl
    _ = x := by rw [hbyte, hrestores x hlo hhi]

end Sys2Proof.Machine
end

section
/-! What changes `STATUS`: the writes of the host, the resets and the completion of a command (10_state.md R28,
40_control.md R142, R145, R149, 60_exceptions.md R306, R307). -/

namespace Sys2Proof.Machine

/-! ## Writes of the host -/

/-- A mapped offset below the lifting steps is the one the table R21 lists. -/
theorem Reg.mem_fixedOffsets_of_ofOffset {offset : Nat} {reg : Reg} (h : Reg.ofOffset offset = some reg)
    (hctrl : ∀ k, reg ≠ .stepCtrl k) (hcoef : ∀ k, reg ≠ .stepCoef k) : (offset, reg) ∈ fixedOffsets := by
  unfold Reg.ofOffset at h
  split at h
  · next hlookup =>
    cases h
    obtain ⟨before, after, hsplit, -⟩ := List.lookup_eq_some_iff.mp hlookup
    simp [hsplit]
  · split at h
    · cases h
      split at hctrl
      · exact absurd rfl (hctrl _)
      · next hodd => exact absurd (if_neg hodd) (hcoef _)
    · cases h

theorem Reg.offset_of_ctrl {offset : Nat} (h : Reg.ofOffset offset = some .ctrl) : offset = 0x008 := by
  simpa [fixedOffsets] using Reg.mem_fixedOffsets_of_ofOffset h nofun nofun

theorem Reg.offset_of_status {offset : Nat} (h : Reg.ofOffset offset = some .status) : offset = 0x00C := by
  simpa [fixedOffsets] using Reg.mem_fixedOffsets_of_ofOffset h nofun nofun

theorem Reg.offset_of_cmd {offset : Nat} (h : Reg.ofOffset offset = some .cmd) : offset = 0x014 := by
  simpa [fixedOffsets] using Reg.mem_fixedOffsets_of_ofOffset h nofun nofun

@[simp] theorem Regs.storeConfig_status (r : Regs) (reg : Reg) (v : Word) :
    (r.storeConfig reg v).status = r.status := by
  cases reg <;> rfl

/-- Only 32-bit accesses are decoded (R23). -/
theorem size_of_decodedAccess_next {offset size : Nat} {act : Host.Outcome State Fault Refusal} {t : State}
    (h : decodedAccess offset size act = .next t) : size = 4 := by
  unfold decodedAccess at h
  split at h
  · cases h
  · split at h
    · cases h
    · next hshape => omega

/-- How an operation of the host that changes `STATUS` leaves it. -/
inductive StatusChange (s : State) (op : HostOp) : Status → Prop
  /-- a reset gives `STATUS` its reset value (R340, R341) -/
  | reset (hop : IsReset s op) : StatusChange s op Regs.reset.status
  /-- a write of `STATUS` clears the flags it holds a 1 for (R28) -/
  | clear (v : Word) (hop : WritesReg s op 0x00C v) : StatusChange s op (s.regs.status.writeClear v)
  /-- a write a busy engine ignores sets `OVERRUN` (R149) -/
  | ignored (offset : Nat) (v : Word) (hop : WritesReg s op offset v) (hbusy : s.regs.status.busy = true) :
      StatusChange s op s.regs.status.setOverrun
  /-- a write of `CMD` to an idle engine is accepted (R142) -/
  | accepted (w : Word) (hop : WritesReg s op 0x014 w) (hidle : s.regs.status.busy = false) :
      StatusChange s op s.regs.status.accept

/-- How `STATUS` changes depends on the state only through `STATUS` and `MMIO_BASE`. -/
theorem StatusChange.of_agree {s s' : State} {op : HostOp} {st : Status} (h : StatusChange s' op st)
    (hbase : s'.mmioBase = s.mmioBase) (hstatus : s'.regs.status = s.regs.status) : StatusChange s op st := by
  have hwrites : ∀ {offset v}, WritesReg s' op offset v → WritesReg s op offset v := by simp [WritesReg, hbase]
  cases h with
  | reset hop => exact .reset (hop.imp_right fun ⟨v, hop, hsrst⟩ => ⟨v, hwrites hop, hsrst⟩)
  | clear v hop => rw [hstatus]; exact .clear v (hwrites hop)
  | ignored offset v hop hbusy => rw [hstatus]; exact .ignored offset v (hwrites hop) (hstatus ▸ hbusy)
  | accepted w hop hidle => rw [hstatus]; exact .accepted w (hwrites hop) (hstatus ▸ hidle)

/-- A guarded write by a busy engine is ignored; otherwise its action decides. -/
theorem State.whenIdle_status {s t : State} {op : HostOp} {offset : Nat} {v : Word}
    {act : Host.Outcome State Fault Refusal} (hop : WritesReg s op offset v) (h : s.whenIdle act = .next t)
    (hact : s.regs.status.busy = false → act = .next t →
      t.regs.status = s.regs.status ∨ StatusChange s op t.regs.status) :
    t.regs.status = s.regs.status ∨ StatusChange s op t.regs.status := by
  unfold State.whenIdle at h
  split at h
  · next hbusy => cases h; exact .inr (.ignored offset v hop hbusy)
  · next hidle => exact hact (Bool.eq_false_of_not_eq_true hidle) h

/-- What a write of the register at an offset does to `STATUS`. -/
theorem State.writeReg_statusChange {s t : State} {op : HostOp} {offset : Nat} {reg : Reg} {v : Word}
    (hop : WritesReg s op offset v) (hreg : Reg.ofOffset offset = some reg) (h : s.writeReg reg v = .next t) :
    t.regs.status = s.regs.status ∨ StatusChange s op t.regs.status := by
  cases reg with
  | ctrl =>
    obtain rfl := Reg.offset_of_ctrl hreg
    rw [State.writeReg_ctrl] at h
    split at h
    · next hsrst => cases h; exact .inr (.reset (.inr ⟨v, hop, hsrst⟩))
    · cases h; exact .inl rfl
  | status =>
    obtain rfl := Reg.offset_of_status hreg
    cases h
    exact .inr (.clear v hop)
  | cmd =>
    obtain rfl := Reg.offset_of_cmd hreg
    refine State.whenIdle_status hop h fun hidle hstart => ?_
    rw [State.startCommand_eq] at hstart
    cases hstart
    simpa using Or.inr (StatusChange.accepted v hop hidle)
  | irqEn | id | version | outLen | lzwNext | lzwWidth | levels => cases h; exact .inl rfl
  | srcAddr | srcLen | srcStride | dstAddr | dstCap | dstStride | geom | lzwCfg | wtCfg | wtScale | qFactor | qAlpha
  | qBeta | stepCtrl k | stepCoef k =>
    refine State.whenIdle_status hop h fun _ hstore => ?_
    cases hstore
    exact .inl (s.regs.storeConfig_status _ v)

theorem State.hostRegWrite_statusChange {s t : State} {op : HostOp} {offset size : Nat} {v : Word}
    (hop : size = 4 → WritesReg s op offset v) (h : s.hostRegWrite offset size v = .next t) :
    t.regs.status = s.regs.status ∨ StatusChange s op t.regs.status := by
  have hsize := size_of_decodedAccess_next h
  have hwrite := decodedAccess_next h
  split at hwrite
  · next hreg => exact State.writeReg_statusChange (hop hsize) hreg hwrite
  · cases hwrite; exact .inl rfl

theorem State.hostRegRead_regs {s t : State} {offset size : Nat} (h : s.hostRegRead offset size = .next t) :
    t.regs = s.regs := by
  cases decodedAccess_next h
  rfl

theorem State.hostMemRead_regs {s t : State} {addr : Nat} (h : s.hostMemRead addr = .next t) : t.regs = s.regs := by
  unfold State.hostMemRead at h
  split at h
  · cases h
  · split at h <;> cases h <;> rfl

theorem State.hostMemWrite_regs {s t : State} {addr : Nat} {b : Byte} (h : s.hostMemWrite addr b = .next t) :
    t.regs = s.regs := by
  unfold State.hostMemWrite at h
  split at h <;> cases h
  rfl

/-- What an operation of the host does to `STATUS`. -/
theorem State.hostOp_statusChange {s t : State} {op : HostOp} (h : s.hostOp op = .next t) :
    t.regs.status = s.regs.status ∨ StatusChange s op t.regs.status := by
  cases op with
  | regWrite offset size v => exact State.hostRegWrite_statusChange (fun hsize => .inl (hsize ▸ rfl)) h
  | busWrite addr size v =>
    obtain ⟨hbase, hwrite⟩ := State.atBlock_next (act := fun offset => s.hostRegWrite offset size v) h
    exact State.hostRegWrite_statusChange (fun hsize => .inr (by rw [hsize, Nat.add_sub_cancel' hbase])) hwrite
  | hwReset => cases h; exact .inr (.reset (.inl rfl))
  | regRead offset size => exact .inl (congrArg _ (State.hostRegRead_regs h))
  | busRead addr size =>
    obtain ⟨-, hread⟩ := State.atBlock_next (act := fun offset => s.hostRegRead offset size) h
    exact .inl (congrArg _ (State.hostRegRead_regs hread))
  | memRead addr => exact .inl (congrArg _ (State.hostMemRead_regs h))
  | memWrite addr b => exact .inl (congrArg _ (State.hostMemWrite_regs h))
  | poll | idle => cases h; exact .inl rfl

/-! ## Completions and steps -/

/-- A completion, raced or not, is a success or an error. -/
theorem State.finish_status (s : State) :
    (∃ arith narrow, s.finish.regs.status = s.regs.status.succeed arith narrow) ∨
      ∃ code, s.finish.regs.status = s.regs.status.fail code := by
  unfold State.finish
  split
  · unfold State.completeRaced
    dsimp only
    rw [State.scramble_regs]
    split
    · exact .inl ⟨_, _, rfl⟩
    · exact .inr ⟨_, rfl⟩
  · cases s.result with
    | ok writes o => exact .inl ⟨_, _, rfl⟩
    | fail e o => exact .inr ⟨e.code, by simp⟩

/-- A step changes `STATUS` only by completing the command in flight or by taking an operation of the host. -/
theorem step_statusChange {s t : State} (h : step s = .next t) :
    (s.run.isSome = true ∧ t = s.finish) ∨ t.regs.status = s.regs.status ∨
      ∃ op, TookOp s t op ∧ StatusChange s op t.regs.status := by
  obtain ⟨⟨w, hrun⟩, -, rfl⟩ | ⟨s', hs', hmove⟩ := step_cases h
  · exact .inl ⟨by simp [hrun], rfl⟩
  obtain ⟨hregs, hbase⟩ : s'.regs = s.regs ∧ s'.mmioBase = s.mmioBase := by
    obtain ⟨-, rfl⟩ | ⟨-, -, rfl⟩ := hs' <;> exact ⟨rfl, rfl⟩
  obtain ⟨-, rfl⟩ | ⟨op, rest, hqueue, hhost⟩ := hmove
  · exact .inr (.inl (congrArg _ hregs))
  by_cases hpoll : op = .poll
  · subst hpoll
    cases hhost
    exact .inr (.inl (congrArg _ hregs))
  have htook : TookOp s t op := hqueue.trans (congrArg _ (State.hostOp_hostQ hhost hpoll).symm)
  obtain hsame | hchange := State.hostOp_statusChange hhost
  · exact .inr (.inl (hsame.trans (congrArg _ hregs)))
  · exact .inr (.inr ⟨op, htook, hchange.of_agree hbase (congrArg _ hregs)⟩)

end Sys2Proof.Machine
end

section
/-! When the flags of `STATUS` rise and fall (60_exceptions.md R307). -/

namespace Sys2Proof.Machine

/-- A flag of `STATUS` that a write clears by its bit (R28) and that an ignored write leaves set. -/
structure ClearedByBit (flag : Status → Bool) (bit : Nat) : Prop where
  writeClear : ∀ (st : Status) (v : Word), flag (st.writeClear v) = (flag st && !v.getLsbD bit)
  setOverrun : ∀ st : Status, flag st = true → flag st.setOverrun = true

/-- A flag that neither a completion nor an acceptance lowers (R142, R145, R304). -/
structure KeptByCommands (flag : Status → Bool) : Prop where
  succeed : ∀ (st : Status) (arith narrow : Bool), flag st = true → flag (st.succeed arith narrow) = true
  fail : ∀ (st : Status) (code : BitVec 8), flag st = true → flag (st.fail code) = true
  accept : ∀ st : Status, flag st = true → flag st.accept = true

theorem clearedByBit_done : ClearedByBit Status.done 1 := ⟨fun _ _ => rfl, fun _ => id⟩

theorem clearedByBit_err : ClearedByBit Status.err 2 := ⟨fun _ _ => rfl, fun _ => id⟩

/-- The three sticky flags are cleared by their bits, and commands keep them. -/
theorem clearedByBit_and_keptByCommands_of_sticky {flag : Status → Bool} {bit : Nat}
    (h : (flag = Status.arithOvf ∧ bit = 3) ∨ (flag = Status.narrowOvf ∧ bit = 4) ∨
      (flag = Status.overrun ∧ bit = 5)) :
    ClearedByBit flag bit ∧ KeptByCommands flag := by
  obtain ⟨rfl, rfl⟩ | ⟨rfl, rfl⟩ | ⟨rfl, rfl⟩ := h
  · exact ⟨⟨fun _ _ => rfl, fun _ => id⟩, fun st _ _ hst => by simp [hst], fun _ _ => id, fun _ => id⟩
  · exact ⟨⟨fun _ _ => rfl, fun _ => id⟩, fun st _ _ hst => by simp [hst], fun _ _ => id, fun _ => id⟩
  · exact ⟨⟨fun _ _ => rfl, fun _ _ => rfl⟩, fun _ _ _ => id, fun _ _ => id, fun _ => id⟩

/-- An operation that lowers a flag resets the engine, writes the flag's bit, or starts a command. -/
theorem StatusChange.falls {s : State} {op : HostOp} {st : Status} {flag : Status → Bool} {bit : Nat}
    (h : StatusChange s op st) (hflag : ClearedByBit flag bit) (hset : flag s.regs.status = true)
    (hfall : flag st = false) :
    IsReset s op ∨ (∃ v : Word, WritesReg s op 0x00C v ∧ v.getLsbD bit = true) ∨
      ∃ w : Word, WritesReg s op 0x014 w ∧ st = s.regs.status.accept := by
  cases h with
  | reset hop => exact .inl hop
  | clear v hop =>
    rw [hflag.writeClear, hset] at hfall
    exact .inr (.inl ⟨v, hop, by simpa using hfall⟩)
  | ignored offset v hop hbusy => exact absurd (hflag.setOverrun _ hset) (by simp [hfall])
  | accepted w hop hidle => exact .inr (.inr ⟨w, hop, rfl⟩)

/-- No operation of the host raises `ARITH_OVF` or `NARROW_OVF`. -/
theorem StatusChange.ovf_le {s : State} {op : HostOp} {st : Status} (h : StatusChange s op st) :
    (st.arithOvf = true → s.regs.status.arithOvf = true) ∧ (st.narrowOvf = true → s.regs.status.narrowOvf = true) := by
  cases h with
  | reset hop => exact ⟨nofun, nofun⟩
  | clear v hop => exact ⟨Bool.and_elim_left, Bool.and_elim_left⟩
  | ignored offset v hop hbusy => exact ⟨id, id⟩
  | accepted w hop hidle => exact ⟨id, id⟩

/-- An operation raises `OVERRUN` only as a write a busy engine ignores. -/
theorem StatusChange.overrun_rises {s : State} {op : HostOp} {st : Status} (h : StatusChange s op st)
    (hclear : s.regs.status.overrun = false) (hrise : st.overrun = true) :
    s.regs.status.busy = true ∧ ∃ offset v, WritesReg s op offset v := by
  cases h with
  | reset hop => cases hrise
  | clear v hop => simp [hclear] at hrise
  | ignored offset v hop hbusy => exact ⟨hbusy, offset, v, hop⟩
  | accepted w hop hidle => simp [hclear] at hrise

/-- A flag that commands keep falls only with a reset or a write of its bit. -/
theorem step_keptByCommands_falls {s t : State} (h : step s = .next t) {flag : Status → Bool} {bit : Nat}
    (hclear : ClearedByBit flag bit) (hkept : KeptByCommands flag) (hset : flag s.regs.status = true)
    (hfall : flag t.regs.status = false) :
    ∃ op, TookOp s t op ∧ (IsReset s op ∨ ∃ v : Word, WritesReg s op 0x00C v ∧ v.getLsbD bit = true) := by
  obtain ⟨-, rfl⟩ | hsame | ⟨op, htook, hchange⟩ := step_statusChange h
  · obtain ⟨arith, narrow, hst⟩ | ⟨code, hst⟩ := s.finish_status <;> rw [hst] at hfall
    · exact absurd (hkept.succeed _ arith narrow hset) (by simp [hfall])
    · exact absurd (hkept.fail _ code hset) (by simp [hfall])
  · simp [hsame, hset] at hfall
  · obtain hreset | hwrite | ⟨w, -, hst⟩ := hchange.falls hclear hset hfall
    · exact ⟨op, htook, .inl hreset⟩
    · exact ⟨op, htook, .inr hwrite⟩
    · rw [hst] at hfall
      exact absurd (hkept.accept _ hset) (by simp [hfall])

/-- A flag that a busy engine shows as 0 falls with a reset, a write of its bit, or the next command. -/
theorem step_clearedByBit_falls {s t : State} (hinv : s.Inv) (h : step s = .next t) {flag : Status → Bool} {bit : Nat}
    (hclear : ClearedByBit flag bit) (hidle : s.regs.status.busy = true → flag s.regs.status = false)
    (hset : flag s.regs.status = true) (hfall : flag t.regs.status = false) :
    ∃ op, TookOp s t op ∧ (IsReset s op ∨ (∃ v : Word, WritesReg s op 0x00C v ∧ v.getLsbD bit = true) ∨
      ∃ w : Word, WritesReg s op 0x014 w) := by
  obtain ⟨hrun, -⟩ | hsame | ⟨op, htook, hchange⟩ := step_statusChange h
  · simp [hidle (hinv.busyRun.trans hrun)] at hset
  · simp [hsame, hset] at hfall
  · obtain hreset | hwrite | ⟨w, hop, -⟩ := hchange.falls hclear hset hfall
    · exact ⟨op, htook, .inl hreset⟩
    · exact ⟨op, htook, .inr (.inl hwrite)⟩
    · exact ⟨op, htook, .inr (.inr ⟨w, hop⟩)⟩

/-- `ARITH_OVF` and `NARROW_OVF` rise only with a successful completion. -/
theorem step_ovf_rises {s t : State} (hinv : s.Inv) (h : step s = .next t)
    (hrise : s.regs.status.arithOvf = false ∧ t.regs.status.arithOvf = true ∨
      s.regs.status.narrowOvf = false ∧ t.regs.status.narrowOvf = true) :
    s.regs.status.busy = true ∧ t.regs.status.busy = false ∧ t.regs.status.done = true := by
  have hrises : ¬((t.regs.status.arithOvf = true → s.regs.status.arithOvf = true) ∧
      (t.regs.status.narrowOvf = true → s.regs.status.narrowOvf = true)) := by
    rintro ⟨harith, hnarrow⟩
    obtain ⟨hlow, hhigh⟩ | ⟨hlow, hhigh⟩ := hrise
    · exact absurd (harith hhigh) (by simp [hlow])
    · exact absurd (hnarrow hhigh) (by simp [hlow])
  obtain ⟨hrun, rfl⟩ | hsame | ⟨op, -, hchange⟩ := step_statusChange h
  · obtain ⟨arith, narrow, hst⟩ | ⟨code, hst⟩ := s.finish_status
    · rw [hst]
      exact ⟨hinv.busyRun.trans hrun, rfl, rfl⟩
    · exact absurd (by simp [hst]) hrises
  · exact absurd (by simp [hsame]) hrises
  · exact absurd hchange.ovf_le hrises

/-- `OVERRUN` rises only with a host write while busy. -/
theorem step_overrun_rises {s t : State} (h : step s = .next t) (hclear : s.regs.status.overrun = false)
    (hrise : t.regs.status.overrun = true) :
    s.regs.status.busy = true ∧ ∃ op offset v, TookOp s t op ∧ WritesReg s op offset v := by
  obtain ⟨-, rfl⟩ | hsame | ⟨op, htook, hchange⟩ := step_statusChange h
  · obtain ⟨arith, narrow, hst⟩ | ⟨code, hst⟩ := s.finish_status <;> simp [hst, hclear] at hrise
  · simp [hsame, hclear] at hrise
  · obtain ⟨hbusy, offset, v, hop⟩ := hchange.overrun_rises hclear hrise
    exact ⟨hbusy, op, offset, v, htook, hop⟩

/-- Settles O18: `STATUS` changes by a completion or by the operation the step takes, and each clause asks which of these
changes moves its flag; a completion lowers neither `DONE` nor `ERR`, which a busy engine shows as 0. -/
theorem stickyFlagsStayUntilCleared : Obligations.StickyFlagsStayUntilCleared := by
  intro s t hinv hstep
  refine ⟨?sticky, step_ovf_rises hinv hstep, step_overrun_rises hstep, ?result⟩
  case sticky =>
    intro flag bit hflag
    obtain ⟨hclear, hkept⟩ := clearedByBit_and_keptByCommands_of_sticky hflag
    exact step_keptByCommands_falls hstep hclear hkept
  case result =>
    rintro flag bit (⟨rfl, rfl⟩ | ⟨rfl, rfl⟩)
    · exact step_clearedByBit_falls hinv hstep clearedByBit_done fun hbusy => (hinv.busyStatus hbusy).1
    · exact step_clearedByBit_falls hinv hstep clearedByBit_err fun hbusy => (hinv.busyStatus hbusy).2.1

end Sys2Proof.Machine
end

section
/-! What a reset leaves of memory (70_reset_and_hazards.md R340, R341), and the soft reset. -/

namespace Sys2Proof.Machine

theorem Interval.contains_eq_false {v : Interval} {a : Nat} : v.contains a = false ↔ ¬(v.lo ≤ a ∧ a < v.hi) := by
  simp [Interval.contains]

/-- An idle engine writes no byte. -/
theorem State.runningWrites_of_idle {s : State} (hrun : s.run = none) : s.runningWrites = noBytes := by
  simp [State.runningWrites, State.running, hrun]

/-- The command in flight is the one its word decodes to. -/
theorem State.running_eq_some {s : State} {i : Instr} :
    s.running = some i ↔ ∃ w, s.run = some w ∧ decode w = .ok i := by
  have htoOption (w : Word) : (decode w).toOption = some i ↔ decode w = .ok i := by
    cases decode w <;> simp [Except.toOption]
  simp only [State.running, Option.bind_eq_some_iff, htoOption]

/-- The engine writes only where the command it decodes from the word in flight does. -/
theorem State.runningWrites_contains_eq_false {s : State} {a : Nat}
    (houtside : ∀ w i, s.run = some w → decode w = .ok i → (writeInterval s.regs i).contains a = false) :
    s.runningWrites.contains a = false := by
  unfold State.runningWrites
  split
  · next i hrunning =>
    obtain ⟨w, hrun, hdecode⟩ := State.running_eq_some.mp hrunning
    exact houtside w i hrun hdecode
  · exact Interval.contains_eq_false.mpr fun h => Nat.not_lt_zero a h.2

/-- A reset leaves alone every byte outside the write interval of the command it abandons (R342). -/
theorem State.resetEngine_read_outside {s : State} {a : Nat}
    (houtside : ∀ w i, s.run = some w → decode w = .ok i → (writeInterval s.regs i).contains a = false) :
    s.resetEngine.mem.read a = s.mem.read a := by
  rw [State.resetEngine_mem]
  exact s.scramble_read_outside _ (Interval.contains_eq_false.mp (State.runningWrites_contains_eq_false houtside))

/-- A reset of an idle engine leaves memory as it is. -/
theorem State.resetEngine_mem_of_idle {s : State} (hrun : s.run = none) : s.resetEngine.mem = s.mem := by
  rw [State.resetEngine_mem, State.runningWrites_of_idle hrun, State.scramble_noBytes]

/-- Settles O10: the write of `CTRL` is `resetEngine` or nothing, by its bit 0, whatever the engine is doing, and
`resetEngine` frees only the bytes the command in flight writes. -/
theorem softResetAbandonsTheCommand : Obligations.SoftResetAbandonsTheCommand := by
  intro s v
  have hwrite : s.hostOp (.regWrite 0x008 4 v) = .next (if v.getLsbD 0 then s.resetEngine else s) :=
    (State.hostRegWrite_of_mapped (reg := .ctrl) (by decide) (by decide) (by decide) s v).trans (s.writeReg_ctrl v)
  constructor
  · intro hsrst
    rw [if_pos hsrst] at hwrite
    exact ⟨s.resetEngine, hwrite, rfl, rfl, rfl, s.resetEngine_memSize, s.resetEngine_mmioBase, s.resetEngine_hostQ,
      fun _ houtside => State.resetEngine_read_outside houtside, State.resetEngine_mem_of_idle⟩
  · intro hsrst
    rwa [hsrst, if_neg Bool.false_ne_true] at hwrite

end Sys2Proof.Machine
end

section
/-! Command words: the decoder against the encoder, and the illegal words (30_encoding.md R100 to R102, R106, R115). -/

namespace Sys2Proof

/-! ## A word and its fields -/

/-- `CMD[12]`, and nothing else of the word, is what its `ORDER` encodes as (R106). -/
theorem orderWord_orderOf (w : Word) : orderWord (orderOf w) = w &&& BitVec.twoPow 32 12 := by
  have hbit : w.getLsbD 12 = decide (bitsOf w 12 12 = 1) := Nat.testBit_eq_decide_div_mod_eq
  have hrange : bitsOf w 12 12 < 2 := Nat.mod_lt _ (by decide)
  rw [BitVec.and_twoPow, hbit, orderOf]
  split
  · next hzero => rw [hzero]; rfl
  · next hone => rw [if_pos (decide_eq_true (by omega))]; rfl

/-- A word is its bits outside `ORDER` and its `ORDER` (R100). -/
theorem or_orderWord_orderOf (w : Word) : w &&& 0xFFFFEFFF ||| orderWord (orderOf w) = w := by
  rw [orderWord_orderOf, ← BitVec.and_or_distrib_left]
  exact BitVec.and_allOnes

/-- Cutting the low `j` bits off what remains of a number from bit `k` on. -/
theorem div_two_pow_eq (n k j : Nat) : n / 2 ^ k = n / 2 ^ k % 2 ^ j + 2 ^ j * (n / 2 ^ (k + j)) := by
  rw [pow_add, ← Nat.div_div_eq_div_mul, Nat.mod_add_div]

/-- The fields of R100 make up the word. -/
theorem toNat_eq_fields (w : Word) : w.toNat = bitsOf w 7 0 + 2 ^ 8 * bitsOf w 9 8 + 2 ^ 10 * bitsOf w 11 10 +
    2 ^ 12 * bitsOf w 12 12 + 2 ^ 13 * bitsOf w 31 13 := by
  have htop : bitsOf w 31 13 = w.toNat / 2 ^ 13 :=
    Nat.mod_eq_of_lt (Nat.div_lt_of_lt_mul (w.isLt.trans_le (by decide)))
  calc w.toNat = w.toNat / 2 ^ 0 := (Nat.div_one _).symm
    _ = bitsOf w 7 0 + 2 ^ 8 * (bitsOf w 9 8 + 2 ^ 2 * (bitsOf w 11 10 + 2 ^ 2 * (bitsOf w 12 12 +
        2 ^ 1 * bitsOf w 31 13))) := by
      rw [htop]
      exact (div_two_pow_eq _ 0 8).trans (congrArg (_ + 2 ^ 8 * ·) ((div_two_pow_eq _ 8 2).trans (congrArg (_ + 2 ^ 2 * ·)
        ((div_two_pow_eq _ 10 2).trans (congrArg (_ + 2 ^ 2 * ·) (div_two_pow_eq _ 12 1))))))
    _ = _ := by ring

/-! ## Decode and encode -/

theorem decode_encode (i : Instr) : decode (encode i) = .ok i := by
  cases i with
  | nop | lzwEnc | lzwDec | wt1Fwd | wt1Inv | wt2Fwd | wt2Inv | qFwd | qInv => decide
  | packWrap o | packSats o | packSatu o | unpackU o | unpackS o => cases o <;> decide

/-- A row that a word selects builds the command that is encoded as that word (R101, R115). -/
theorem eq_encode_of_selects {w : Word} {row : OpRow} (hrow : row ∈ opcodeMap) (hsel : row.selects w = true) :
    w = encode (row.build (orderOf w)) := by
  have hpattern : w &&& row.mask = row.pattern := by simpa [OpRow.selects] using hsel
  have hplain : w &&& 0xFFFFFFFF = w := BitVec.and_allOnes
  have horder := or_orderWord_orderOf w
  simp only [opcodeMap, List.mem_cons, List.not_mem_nil, or_false] at hrow
  rcases hrow with rfl | rfl | rfl | rfl | rfl | rfl | rfl | rfl | rfl | hrow
  iterate 9 exact hplain.symm.trans hpattern
  rcases hrow with rfl | rfl | rfl | rfl | rfl
  all_goals exact horder.symm.trans (congrArg (· ||| orderWord (orderOf w)) hpattern)

theorem decode_eq_ok {w : Word} {i : Instr} : decode w = .ok i ↔ w = encode i := by
  refine ⟨fun h => ?_, fun h => h ▸ decode_encode i⟩
  unfold decode at h
  split at h
  · next row hfind =>
    cases h
    exact eq_encode_of_selects (List.mem_of_find?_eq_some hfind) (List.find?_some (p := fun r : OpRow => r.selects w) hfind)
  · cases h

theorem Instr.wellFormed_eq_true (i : Instr) : i.wellFormed = true := by
  cases i with
  | nop | lzwEnc | lzwDec | wt1Fwd | wt1Inv | wt2Fwd | wt2Inv | qFwd | qInv => decide
  | packWrap o | packSats o | packSatu o | unpackU o | unpackS o => cases o <;> decide

/-- Settles O21: a row fixes every bit of the word but `ORDER`, and the row's command keeps that one. -/
theorem decodeAndEncodeAgree : Obligations.DecodeAndEncodeAgree :=
  ⟨fun _ _ => decode_eq_ok, Instr.wellFormed_eq_true⟩

/-- Settles O20: each word is the one its command is encoded as. -/
theorem wordsOfTheOpcodeMapDecode : Obligations.WordsOfTheOpcodeMapDecode :=
  ⟨decode_encode .nop, decode_encode .lzwEnc, decode_encode .lzwDec, decode_encode .wt1Fwd, decode_encode .wt1Inv,
    decode_encode .wt2Fwd, decode_encode .wt2Inv, decode_encode .qFwd, decode_encode .qInv,
    decode_encode (.packWrap .band), decode_encode (.packSats .band), decode_encode (.packSatu .raster),
    decode_encode (.unpackU .raster), decode_encode (.unpackS .band)⟩

/-! ## The illegal words -/

/-- What makes the fields of a word illegal (R102). -/
def IllegalFields (w : Word) : Prop :=
  bitsOf w 7 0 ∉ [0x00, 0x01, 0x02, 0x10, 0x11, 0x12, 0x13, 0x20, 0x21, 0x30, 0x31] ∨
    bitsOf w 11 10 ≠ 0 ∨ bitsOf w 31 13 ≠ 0 ∨
    (bitsOf w 7 0 ≠ 0x30 ∧ bitsOf w 7 0 ≠ 0x31 ∧ (bitsOf w 9 8 ≠ 0 ∨ bitsOf w 12 12 ≠ 0)) ∨
    (bitsOf w 7 0 = 0x30 ∧ bitsOf w 9 8 = 3) ∨ (bitsOf w 7 0 = 0x31 ∧ w.getLsbD 9 = true)

theorem not_illegalFields_encode (i : Instr) : ¬IllegalFields (encode i) := by
  unfold IllegalFields
  cases i with
  | nop | lzwEnc | lzwDec | wt1Fwd | wt1Inv | wt2Fwd | wt2Inv | qFwd | qInv => decide
  | packWrap o | packSats o | packSatu o | unpackU o | unpackS o => cases o <;> decide

/-- Bit 9 is the upper bit of `MODE` (R100). -/
theorem getLsbD_nine (w : Word) : w.getLsbD 9 = decide (2 ≤ bitsOf w 9 8) := by
  rw [show w.getLsbD 9 = decide (w.toNat / 2 ^ 9 % 2 = 1) from Nat.testBit_eq_decide_div_mod_eq]
  refine decide_eq_decide.mpr ?_
  simp only [bitsOf]
  omega

/-- The commands without operands in the word (R101). -/
def plainInstrs : List Instr := [.nop, .lzwEnc, .lzwDec, .wt1Fwd, .wt1Inv, .wt2Fwd, .wt2Inv, .qFwd, .qInv]

/-- Every opcode of the table but those of `PACK` and `UNPACK` is the word of a command (R101). -/
theorem exists_encode_toNat {op : Nat} (hop : op ∈ [0x00, 0x01, 0x02, 0x10, 0x11, 0x12, 0x13, 0x20, 0x21, 0x30, 0x31])
    (hpack : op ≠ 0x30) (hunpack : op ≠ 0x31) : ∃ i, (encode i).toNat = op := by
  have hall : ∀ op ∈ [0x00, 0x01, 0x02, 0x10, 0x11, 0x12, 0x13, 0x20, 0x21, 0x30, 0x31], op ≠ 0x30 → op ≠ 0x31 →
      op ∈ plainInstrs.map fun i => (encode i).toNat := by decide
  obtain ⟨i, -, hi⟩ := List.mem_map.mp (hall op hop hpack hunpack)
  exact ⟨i, hi⟩

/-- A word with legal fields is encoded from a command: an opcode without operands stands alone, `PACK` has three modes
and `UNPACK` two, each with either `ORDER`. -/
theorem exists_encode_of_not_illegalFields {w : Word} (h : ¬IllegalFields w) : ∃ i, w = encode i := by
  have hword := toNat_eq_fields w
  have horder : bitsOf w 12 12 < 2 := Nat.mod_lt _ (by decide)
  have hmode : bitsOf w 9 8 < 4 := Nat.mod_lt _ (by decide)
  simp only [IllegalFields, getLsbD_nine, decide_eq_true_eq, not_or, not_not, not_and] at h
  obtain ⟨hop, hlow, hhigh, hplain, hpack, hunpack⟩ := h
  have hfound : ∀ i : Instr, w.toNat = (encode i).toNat → ∃ i, w = encode i := fun i hi => ⟨i, BitVec.eq_of_toNat_eq hi⟩
  generalize bitsOf w 7 0 = op, bitsOf w 9 8 = mode, bitsOf w 12 12 = order at *
  replace hword : w.toNat = op + 2 ^ 8 * mode + 2 ^ 12 * order := by
    rw [hword, hlow, hhigh]
    ring
  have hordered : ∀ (f : Order → Instr) {n : Nat}, w.toNat = n + 2 ^ 12 * order →
      (encode (f .raster)).toNat = n → (encode (f .band)).toNat = n + 2 ^ 12 → ∃ i, w = encode i := by
    intro f n hn hraster hband
    obtain rfl | rfl := Nat.le_one_iff_eq_zero_or_eq_one.mp (Nat.le_of_lt_succ horder)
    · exact hfound (f .raster) (hn.trans hraster.symm)
    · exact hfound (f .band) (hn.trans hband.symm)
  by_cases hisPack : op = 0x30
  · subst hisPack
    have hpack := hpack rfl
    obtain rfl | rfl | rfl : mode = 0 ∨ mode = 1 ∨ mode = 2 := by omega
    · exact hordered .packWrap hword rfl rfl
    · exact hordered .packSats hword rfl rfl
    · exact hordered .packSatu hword rfl rfl
  by_cases hisUnpack : op = 0x31
  · subst hisUnpack
    have hunpack := hunpack rfl
    obtain rfl | rfl : mode = 0 ∨ mode = 1 := by omega
    · exact hordered .unpackU hword rfl rfl
    · exact hordered .unpackS hword rfl rfl
  obtain ⟨rfl, rfl⟩ := hplain hisPack hisUnpack
  obtain ⟨i, hi⟩ := exists_encode_toNat hop hisPack hisUnpack
  exact hfound i (hword.trans hi.symm)

/-- Settles O22: the words that decode are those encoded from a command, and these are the ones with legal fields. -/
theorem illegalWordsAreTheListedOnes : Obligations.IllegalWordsAreTheListedOnes := by
  intro w
  change (∃ e, decode w = .error e) ↔ IllegalFields w
  cases hdecode : decode w with
  | error e =>
    refine iff_of_true ⟨e, rfl⟩ (by_contra fun hlegal => ?_)
    obtain ⟨i, hi⟩ := exists_encode_of_not_illegalFields hlegal
    rw [decode_eq_ok.mpr hi] at hdecode
    cases hdecode
  | ok i => exact iff_of_false nofun (decode_eq_ok.mp hdecode ▸ not_illegalFields_encode i)

end Sys2Proof
end

section
/-! The register map and what reads show (10_state.md R20 to R49; 30_encoding.md R108; 40_control.md R146). -/

namespace Sys2Proof.Machine

/-! ## Offsets -/

theorem fixedOffsets_range : ∀ row ∈ fixedOffsets, row.1 % 4 = 0 ∧ row.1 ≤ 0x058 := by decide

/-- No register lies at `0x05C .. 0x07C`, at an offset that is not a multiple of 4, or beyond the block (R21, R22). -/
theorem Reg.ofOffset_eq_none {offset : Nat}
    (h : (0x05C ≤ offset ∧ offset ≤ 0x07C) ∨ offset % 4 ≠ 0 ∨ 0x0C0 ≤ offset) : Reg.ofOffset offset = none := by
  have hlookup : fixedOffsets.lookup offset = none := by
    refine List.lookup_eq_none_iff.mpr fun row hrow => ?_
    have hrange := fixedOffsets_range row hrow
    have hne : offset ≠ row.1 := by omega
    simpa using hne
  have hsteps : ¬(0x080 ≤ offset ∧ offset < 0x0C0 ∧ offset % 4 = 0) := by omega
  simp only [Reg.ofOffset, hlookup, if_neg hsteps]

/-- A register lies at an aligned offset inside the block. -/
theorem Reg.decoded_of_ofOffset {offset : Nat} {reg : Reg} (h : Reg.ofOffset offset = some reg) :
    offset < 0x0C0 ∧ offset % 4 = 0 := by
  by_contra hout
  rw [Reg.ofOffset_eq_none (by omega)] at h
  cases h

/-! ## The bits of `STATUS` and `IRQ_EN` -/

/-- A bit of a number that is split there. -/
theorem testBit_of_split {n k low high : Nat} {b : Bool} (hn : n = low + 2 ^ k * (b.toNat + 2 * high))
    (hlow : low < 2 ^ k) : n.testBit k = b := by
  have hdiv : n / 2 ^ k = b.toNat + 2 * high := by
    rw [hn, Nat.add_mul_div_left _ _ (Nat.two_pow_pos k), Nat.div_eq_of_lt hlow, Nat.zero_add]
  rw [Nat.testBit_eq_decide_div_mod_eq, hdiv, Nat.add_mul_mod_self_left]
  cases b <;> rfl

/-- A bit of a 32-bit word given as a number. -/
theorem getLsbD_ofNat_of_lt {n k : Nat} (hk : k < 32) : (BitVec.ofNat 32 n).getLsbD k = n.testBit k := by
  rw [BitVec.getLsbD_ofNat, decide_eq_true hk, Bool.true_and]

/-- A word whose number is below `2^m` has no bit from `m` on. -/
theorem getLsbD_ofNat_of_lt_two_pow {n m k : Nat} (hn : n < 2 ^ m) (hk : m ≤ k) :
    (BitVec.ofNat 32 n).getLsbD k = false := by
  rw [BitVec.getLsbD_ofNat, Nat.testBit_lt_two_pow (hn.trans_le (Nat.pow_le_pow_right two_pos hk)), Bool.and_false]

/-- The flags of `STATUS`, as a number below its `ERRCODE` (R27). -/
def Status.flags (st : Status) : Nat :=
  st.busy.toNat + 2 * st.done.toNat + 4 * st.err.toNat + 8 * st.arithOvf.toNat + 16 * st.narrowOvf.toNat +
    32 * st.overrun.toNat

theorem Status.read_eq (st : Status) : st.read = BitVec.ofNat 32 (2 ^ 8 * st.errCode.toNat + st.flags) :=
  congrArg (BitVec.ofNat 32) (Nat.add_comm _ _)

theorem Status.flags_lt (st : Status) : st.flags < 2 ^ 6 := by
  have h0 := st.busy.toNat_le
  have h1 := st.done.toNat_le
  have h2 := st.err.toNat_le
  have h3 := st.arithOvf.toNat_le
  have h4 := st.narrowOvf.toNat_le
  have h5 := st.overrun.toNat_le
  rw [Status.flags]
  omega

/-- Below `ERRCODE`, `STATUS` reads as its flags (R27). -/
theorem Status.read_getLsbD_low (st : Status) {k : Nat} (hk : k < 8) : st.read.getLsbD k = st.flags.testBit k := by
  rw [Status.read_eq, getLsbD_ofNat_of_lt (by omega), Nat.testBit_two_pow_mul_add _ (by have := st.flags_lt; omega),
    if_pos hk]

/-- The flags, lowest bit first. -/
theorem Status.flags_eq_bit (st : Status) : st.flags = Nat.bit st.busy (Nat.bit st.done (Nat.bit st.err
    (Nat.bit st.arithOvf (Nat.bit st.narrowOvf (Nat.bit st.overrun 0))))) := by
  simp only [Status.flags, Nat.bit_val]
  ring

/-- Each flag of `STATUS` stands at its bit (R27). -/
theorem Status.read_getLsbD_flags (st : Status) :
    st.read.getLsbD 0 = st.busy ∧ st.read.getLsbD 1 = st.done ∧ st.read.getLsbD 2 = st.err ∧
      st.read.getLsbD 3 = st.arithOvf ∧ st.read.getLsbD 4 = st.narrowOvf ∧ st.read.getLsbD 5 = st.overrun := by
  have hbit : ∀ {k : Nat}, k < 8 → st.read.getLsbD k = (Nat.bit st.busy (Nat.bit st.done (Nat.bit st.err
      (Nat.bit st.arithOvf (Nat.bit st.narrowOvf (Nat.bit st.overrun 0)))))).testBit k := fun hk =>
    (st.read_getLsbD_low hk).trans (congrArg (Nat.testBit · _) st.flags_eq_bit)
  refine ⟨?_, ?_, ?_, ?_, ?_, ?_⟩ <;>
    exact (hbit (by decide)).trans (by simp only [Nat.testBit_bit_succ, Nat.testBit_bit_zero])

/-- `ERRCODE` stands at bits `[15:8]` (R27). -/
theorem Status.read_getLsbD_errCode (st : Status) {k : Nat} (hk : k < 8) :
    st.read.getLsbD (8 + k) = st.errCode.getLsbD k := by
  rw [Status.read_eq, getLsbD_ofNat_of_lt (by omega), Nat.testBit_two_pow_mul_add _ (by have := st.flags_lt; omega),
    if_neg (by omega), Nat.add_sub_cancel_left]
  rfl

/-- The reserved bits of `STATUS` read 0 (R27). -/
theorem Status.read_getLsbD_reserved (st : Status) {k : Nat} (hk : k = 6 ∨ k = 7 ∨ 16 ≤ k) :
    st.read.getLsbD k = false := by
  by_cases hlow : k < 8
  · rw [st.read_getLsbD_low hlow]
    exact Nat.testBit_lt_two_pow (st.flags_lt.trans_le (Nat.pow_le_pow_right two_pos (by omega)))
  · have hcode := st.errCode.isLt
    have hflags := st.flags_lt
    rw [Status.read_eq]
    exact getLsbD_ofNat_of_lt_two_pow (m := 16) (by omega) (by omega)

/-- `IRQ_EN` reads its two enables at bits 0 and 1, its other bits 0 (R29). -/
theorem Regs.read_irqEn (r : Regs) : (r.read .irqEn).getLsbD 0 = r.doneIe ∧ (r.read .irqEn).getLsbD 1 = r.errIe ∧
    ∀ k, 2 ≤ k → (r.read .irqEn).getLsbD k = false := by
  have hdone := r.doneIe.toNat_le
  have herr := r.errIe.toNat_le
  have hread : r.read .irqEn = BitVec.ofNat 32 (r.doneIe.toNat + 2 * r.errIe.toNat) := rfl
  rw [hread]
  refine ⟨?_, ?_, fun k hk => getLsbD_ofNat_of_lt_two_pow (m := 2) (by omega) hk⟩
  · exact (getLsbD_ofNat_of_lt (by decide)).trans (testBit_of_split (low := 0) (high := r.errIe.toNat) (by omega) (by decide))
  · exact (getLsbD_ofNat_of_lt (by decide)).trans (testBit_of_split (low := r.doneIe.toNat) (high := 0) (by omega) (by omega))

/-! ## The operand fields -/

theorem bitsOf_low (w : Word) (hi : Nat) : bitsOf w hi 0 = w.toNat % 2 ^ (hi + 1) := by
  rw [bitsOf, Nat.pow_zero, Nat.div_one, Nat.sub_zero]

/-- The upper half of a word needs no reduction. -/
theorem bitsOf_upper_half (w : Word) : bitsOf w 31 16 = w.toNat / 2 ^ 16 := by
  have hword := w.isLt
  exact Nat.mod_eq_of_lt (by omega)

/-- `BETA` is the two's-complement number in the low half of `Q_BETA` (R46). -/
theorem Regs.beta_eq_toInt (r : Regs) : r.beta = (r.qBeta.setWidth 16).toInt := by
  rw [Regs.beta, bitsOf_low, BitVec.toInt_eq_toNat_cond, BitVec.toNat_setWidth, sext]
  split <;> split <;> omega

/-- Settles O8: the table lists the fixed offsets, `STATUS` and `IRQ_EN` read their fields as binary digits, and every
operand field is a range of bits of its register. -/
theorem readsShowTheFields : Obligations.ReadsShowTheFields := by
  refine ⟨by decide, by decide, fun offset => Reg.ofOffset_eq_none, fun r => ?_⟩
  obtain ⟨hbusy, hdone, herr, harith, hnarrow, hoverrun⟩ := r.status.read_getLsbD_flags
  refine ⟨⟨hbusy, hdone, herr, harith, hnarrow, hoverrun, fun k => r.status.read_getLsbD_errCode,
    fun k => r.status.read_getLsbD_reserved⟩, r.read_irqEn, ?constants, ?values, ?operands⟩
  case constants =>
    have hzext : ∀ {n : Nat} (v : BitVec n), n ≤ 32 → (v.setWidth 32).toNat = v.toNat := fun v hn =>
      BitVec.toNat_setWidth_of_le hn
    exact ⟨rfl, rfl, rfl, rfl, rfl, hzext r.lzwNext (by decide), hzext r.lzwWidth (by decide),
      hzext r.levels (by decide)⟩
  case values => exact ⟨rfl, rfl, rfl, rfl, rfl, rfl, rfl, rfl, rfl, rfl, rfl, rfl, rfl, fun k => ⟨rfl, rfl⟩⟩
  case operands =>
    exact ⟨bitsOf_low _ _, bitsOf_upper_half _, bitsOf_low _ _, rfl, rfl, bitsOf_low _ _, bitsOf_upper_half _,
      bitsOf_low _ _, rfl, rfl, rfl, rfl, bitsOf_low _ _, bitsOf_low _ _, r.beta_eq_toInt⟩

end Sys2Proof.Machine
end

section
/-! Register accesses of the host: which are decoded, what a read returns, and what a write of a configuration register
leaves (10_state.md R20 to R23; 40_control.md R146, R147). -/

namespace Sys2Proof.Machine

/-- An access of another width or alignment inside the block is refused (R23). -/
theorem decodedAccess_of_bad_shape {offset size : Nat} (hin : offset < 0x0C0) (hshape : size ≠ 4 ∨ offset % 4 ≠ 0)
    (act : Host.Outcome State Fault Refusal) : decodedAccess offset size act = .refused .registerAccessShape := by
  rw [decodedAccess, if_neg (Nat.not_le.mpr hin), if_pos hshape]

/-- An access beyond the block is refused (R22). -/
theorem decodedAccess_of_outside {offset : Nat} (hout : 0x0C0 ≤ offset) (size : Nat)
    (act : Host.Outcome State Fault Refusal) : decodedAccess offset size act = .refused .registerNotDecoded :=
  if_pos hout

theorem State.atBlock_of_below {s : State} {addr : Nat} (h : addr < s.mmioBase)
    (act : Nat → Host.Outcome State Fault Refusal) : s.atBlock addr act = .refused .registerNotDecoded :=
  if_pos h

/-- The value a decoded read returns (R22, R146). -/
def Regs.readAt (r : Regs) (offset : Nat) : Word :=
  match Reg.ofOffset offset with
  | some reg => r.read reg
  | none => 0

theorem State.hostRegRead_of_decoded {offset : Nat} (hin : offset < 0x0C0) (halign : offset % 4 = 0) (s : State) :
    s.hostRegRead offset 4 = .next { s with hostData := s.regs.readAt offset } := by
  rw [State.hostRegRead, decodedAccess_of_decoded hin halign]
  rfl

/-- Settles O7: a decoded read changes only the value returned; every other access is refused by its offset or its
shape, and an access by address is the one at its offset. -/
theorem registerReadsAndRefusedAccesses : Obligations.RegisterReadsAndRefusedAccesses := by
  intro s offset size v
  refine ⟨fun hin halign => ⟨_, State.hostRegRead_of_decoded hin halign s, fun reg hreg => ?mapped,
      fun hlo hhi => ?unmapped⟩,
    fun hin hshape => ⟨decodedAccess_of_bad_shape hin hshape _, decodedAccess_of_bad_shape hin hshape _⟩,
    fun hout => ⟨decodedAccess_of_outside hout _ _, decodedAccess_of_outside hout _ _⟩,
    ⟨s.atBlock_base offset (s.hostRegRead · size), s.atBlock_base offset (s.hostRegWrite · size v)⟩,
    fun addr hbelow => ⟨State.atBlock_of_below hbelow (s.hostRegRead · size),
      State.atBlock_of_below hbelow (s.hostRegWrite · size v)⟩⟩
  case mapped => rw [Regs.readAt, hreg]
  case unmapped =>
    have hnone := Reg.ofOffset_eq_none (.inl ⟨hlo, hhi⟩)
    exact ⟨by rw [Regs.readAt, hnone], State.hostRegWrite_of_unmapped hin halign hnone s v⟩

/-! ## Writes of configuration registers -/

/-- A configuration register reads back as written, its reserved bits 0 (R147). -/
theorem Regs.read_storeConfig_same {reg : Reg} {mask : Word} (hirq : reg ≠ .irqEn) (hmask : regMask reg = some mask)
    (r : Regs) (v : Word) : (r.storeConfig reg v).read reg = v &&& mask := by
  have hall : v = v &&& 0xFFFFFFFF := BitVec.and_allOnes.symm
  cases reg with
  | irqEn => exact absurd rfl hirq
  | id | version | ctrl | status | cmd | outLen | lzwNext | lzwWidth | levels => cases hmask
  | srcAddr | srcLen | srcStride | dstAddr | dstCap | dstStride | geom | wtScale => cases hmask; exact hall
  | lzwCfg | wtCfg | qFactor | qAlpha | qBeta => cases hmask; rfl
  | stepCtrl k => cases hmask; exact Vector.getElem_set_self k.isLt
  | stepCoef k => cases hmask; exact (Vector.getElem_set_self k.isLt).trans hall

/-- What the write of a configuration register does to each field. -/
theorem Regs.storeConfig_eq (r : Regs) (reg : Reg) (v : Word) : r.storeConfig reg v = { r with
    srcAddr := if reg = .srcAddr then v else r.srcAddr
    srcLen := if reg = .srcLen then v else r.srcLen
    srcStride := if reg = .srcStride then v else r.srcStride
    dstAddr := if reg = .dstAddr then v else r.dstAddr
    dstCap := if reg = .dstCap then v else r.dstCap
    dstStride := if reg = .dstStride then v else r.dstStride
    geom := if reg = .geom then v else r.geom
    lzwCfg := if reg = .lzwCfg then v &&& lzwCfgMask else r.lzwCfg
    wtCfg := if reg = .wtCfg then v &&& wtCfgMask else r.wtCfg
    wtScale := if reg = .wtScale then v else r.wtScale
    qFactor := if reg = .qFactor then v &&& quantMask else r.qFactor
    qAlpha := if reg = .qAlpha then v &&& quantMask else r.qAlpha
    qBeta := if reg = .qBeta then v &&& quantMask else r.qBeta
    stepCtrl := (r.storeConfig reg v).stepCtrl
    stepCoef := (r.storeConfig reg v).stepCoef } := by
  cases reg <;> rfl

theorem Regs.stepCtrl_storeConfig_other {reg : Reg} {j : Fin 8} (hne : .stepCtrl j ≠ reg) (r : Regs) (v : Word) :
    (r.storeConfig reg v).stepCtrl[j] = r.stepCtrl[j] := by
  cases reg with
  | stepCtrl k => exact Vector.getElem_set_ne k.isLt j.isLt fun heq => hne (by rw [Fin.ext heq])
  | _ => rfl

theorem Regs.stepCoef_storeConfig_other {reg : Reg} {j : Fin 8} (hne : .stepCoef j ≠ reg) (r : Regs) (v : Word) :
    (r.storeConfig reg v).stepCoef[j] = r.stepCoef[j] := by
  cases reg with
  | stepCoef k => exact Vector.getElem_set_ne k.isLt j.isLt fun heq => hne (by rw [Fin.ext heq])
  | _ => rfl

/-- Writing a configuration register leaves what the other registers read as. -/
theorem Regs.read_storeConfig_other {reg reg' : Reg} (hne : reg' ≠ reg) (r : Regs) (v : Word) :
    (r.storeConfig reg v).read reg' = r.read reg' := by
  rw [Regs.storeConfig_eq]
  cases reg' with
  | stepCtrl j => exact Regs.stepCtrl_storeConfig_other hne r v
  | stepCoef j => exact Regs.stepCoef_storeConfig_other hne r v
  | id | version | ctrl | status | irqEn | cmd | outLen | lzwNext | lzwWidth | levels => rfl
  | srcAddr | srcLen | srcStride | dstAddr | dstCap | dstStride | geom | lzwCfg | wtCfg | wtScale | qFactor | qAlpha
  | qBeta => exact if_neg hne.symm

/-- The write of `IRQ_EN` reads back with its reserved bits 0 and leaves every other register (R29). -/
theorem Regs.read_enable (r : Regs) (v : Word) :
    let r' : Regs := { r with doneIe := v.getLsbD 0, errIe := v.getLsbD 1 }
    r'.read .irqEn = v &&& 0x00000003 ∧ ∀ reg', reg' ≠ .irqEn → r'.read reg' = r.read reg' := by
  intro r'
  constructor
  · obtain ⟨hdone, herr, hreserved⟩ := r'.read_irqEn
    refine BitVec.eq_of_getLsbD_eq fun k hk => ?_
    rw [BitVec.getLsbD_and]
    obtain rfl | rfl | hge : k = 0 ∨ k = 1 ∨ 2 ≤ k := by omega
    · exact hdone.trans (Bool.and_true _).symm
    · exact herr.trans (Bool.and_true _).symm
    · have hmask : (3 : Word).getLsbD k = false := getLsbD_ofNat_of_lt_two_pow (m := 2) (by decide) hge
      rw [hreserved k hge, hmask, Bool.and_false]
  · intro reg' hne
    cases reg' with
    | irqEn => exact absurd rfl hne
    | _ => rfl

/-- Settles O5: an idle engine takes the write of a register with a mask, which stores it; the read-only registers are
those whose write is dropped. -/
theorem configWriteReadsBack : Obligations.ConfigWriteReadsBack := by
  have hwrite : ∀ (s : State) (offset : Nat) (reg : Reg) (v : Word), Reg.ofOffset offset = some reg →
      s.hostOp (.regWrite offset 4 v) = s.writeReg reg v := fun s offset reg v hreg =>
    State.hostRegWrite_of_mapped (Reg.decoded_of_ofOffset hreg).1 (Reg.decoded_of_ofOffset hreg).2 hreg s v
  constructor
  · intro s offset reg mask v hreg hmask hidle
    rw [hwrite s offset reg v hreg]
    by_cases hirq : reg = .irqEn
    · subst hirq
      cases hmask
      obtain ⟨hsame, hother⟩ := s.regs.read_enable v
      exact ⟨_, s.writeReg_irqEn v, hsame, hother, rfl⟩
    · have hconfig : s.writeReg reg v = .next { s with regs := s.regs.storeConfig reg v } := by
        rw [State.writeReg_of_config hirq (by rw [hmask]; rfl), State.whenIdle, hidle, if_neg Bool.false_ne_true]
      exact ⟨_, hconfig, Regs.read_storeConfig_same hirq hmask _ v, fun _ hne => Regs.read_storeConfig_other hne _ v, rfl⟩
  · intro s offset v hro
    obtain ⟨reg, hmem, hreg⟩ : ∃ reg ∈ readOnlyRegs, some reg = Reg.ofOffset offset := List.mem_map.mp hro
    rw [hwrite s offset reg v hreg.symm, State.writeReg_of_readOnly hmem]

end Sys2Proof.Machine
end

section
/-! The state after reset, and the reset input (70_reset_and_hazards.md R340 to R342). -/

namespace Sys2Proof.Machine

/-- What software reads right after reset (10_state.md R21). -/
theorem Regs.read_reset (reg : Reg) : Regs.reset.read reg =
    match reg with
    | .id => 0x50413137
    | .version => 0x00000001
    | _ => 0 := by
  cases reg with
  | stepCtrl k => exact (by decide : ∀ k : Fin 8, Regs.reset.stepCtrl[k] = 0) k
  | stepCoef k => exact (by decide : ∀ k : Fin 8, Regs.reset.stepCoef[k] = 0) k
  | _ => rfl

/-- Settles O1: both resets give every register the value of `Regs.reset`, and the reset input frees only bytes the
command in flight writes. -/
theorem resetGivesEveryRegisterItsValue : Obligations.ResetGivesEveryRegisterItsValue :=
  ⟨Regs.read_reset, rfl, rfl, fun s => ⟨s.resetEngine, rfl, fun _ => rfl, rfl, rfl, s.resetEngine_memSize,
    s.resetEngine_mmioBase, s.resetEngine_hostQ, fun _ houtside => State.resetEngine_read_outside houtside,
    State.resetEngine_mem_of_idle⟩⟩

/-- The bits of the reset values that R39 to R48 reserve are 0. -/
theorem Regs.reset_stepCtrl_reserved (k : Fin 8) :
    Regs.reset.stepCtrl[k] &&& stepCtrlMask = Regs.reset.stepCtrl[k] :=
  (by decide : ∀ k : Fin 8, Regs.reset.stepCtrl[k] &&& stepCtrlMask = Regs.reset.stepCtrl[k]) k

/-- Settles O2: nothing is in flight, memory is empty, every register is 0, and `MEM_SIZE` is `2^32` less a 32-bit
number. -/
theorem resetMeetsInvariant : Obligations.ResetMeetsInvariant where
  memSizePos := Nat.sub_pos_of_lt Config.memSizeGap.isLt
  memSizeLe := Nat.sub_le _ _
  memWf := ⟨List.Pairwise.nil, nofun⟩
  memBound := nofun
  lzwCfgReserved := rfl
  wtCfgReserved := rfl
  qFactorReserved := rfl
  qAlphaReserved := rfl
  qBetaReserved := rfl
  stepCtrlReserved := Regs.reset_stepCtrl_reserved
  doneErr := nofun
  errCodeRange := Nat.zero_le 10
  busyRun := rfl
  busyStatus := nofun
  runCmd := nofun
  idle := fun _ => ⟨rfl, rfl⟩
  resultBound := by
    intro writes outs hresult c hc
    obtain ⟨rfl, -⟩ := CmdResult.ok.inj (show CmdResult.ok [] {} = .ok writes outs from hresult)
    cases hc

end Sys2Proof.Machine
end

section
/-! Host accesses to data memory (20_memory.md R70 to R72, R85). -/

namespace Sys2Proof.Machine

/-- The engine reads only where the command it decodes from the word in flight does. -/
theorem State.runningReads_contains_eq_false {s : State} {a : Nat}
    (houtside : ∀ w i, s.run = some w → decode w = .ok i → (readInterval s.regs i).contains a = false) :
    s.runningReads.contains a = false := by
  unfold State.runningReads
  split
  · next i hrunning =>
    obtain ⟨w, hrun, hdecode⟩ := State.running_eq_some.mp hrunning
    exact houtside w i hrun hdecode
  · exact Interval.contains_eq_false.mpr fun h => Nat.not_lt_zero a h.2

/-- The state after a host write of a byte that exists (R84, R85). -/
def State.afterMemWrite (s : State) (a : Nat) (b : Byte) : State :=
  { s with
    mem := s.mem.write a b
    raced := s.raced || s.runningReads.contains a || s.runningWrites.contains a }

theorem State.hostMemWrite_of_present {s : State} {a : Nat} (ha : a < s.memSize) (b : Byte) :
    s.hostMemWrite a b = .next (s.afterMemWrite a b) :=
  if_neg (Nat.not_le.mpr ha)

/-- A write outside the footprint of the command in flight leaves it undisturbed (R85). -/
theorem State.afterMemWrite_of_outside {s : State} {a : Nat} (hreads : s.runningReads.contains a = false)
    (hwrites : s.runningWrites.contains a = false) (b : Byte) :
    s.afterMemWrite a b = { s with mem := s.mem.write a b } := by
  rw [State.afterMemWrite, hreads, hwrites, Bool.or_false, Bool.or_false]

theorem State.hostMemRead_of_outside {s : State} {a : Nat} (ha : a < s.memSize)
    (hwrites : s.runningWrites.contains a = false) :
    s.hostMemRead a = .next { s with hostData := (s.mem.read a).setWidth 32 } := by
  rw [State.hostMemRead, if_neg (Nat.not_le.mpr ha), hwrites, if_neg Bool.false_ne_true]

theorem toNat_append_eq {m n : Nat} (x : BitVec m) (y : BitVec n) : (x ++ y).toNat = 2 ^ n * x.toNat + y.toNat := by
  rw [BitVec.toNat_append, ← Nat.shiftLeft_add_eq_or_of_lt y.isLt, Nat.shiftLeft_eq, Nat.mul_comm]

/-- A coefficient is the number its four bytes hold, the lowest address least significant (R72). -/
theorem Memory.readCoef_eq_toInt (m : Memory) (a : Nat) :
    m.readCoef a = (m.read (a + 3) ++ m.read (a + 2) ++ m.read (a + 1) ++ m.read a).toInt := by
  have hword : (m.read (a + 3) ++ m.read (a + 2) ++ m.read (a + 1) ++ m.read a).toNat = m.readWord a := by
    rw [toNat_append_eq, toNat_append_eq, toNat_append_eq, Memory.readWord]
    omega
  rw [BitVec.toInt_eq_toNat_cond, hword, Memory.readCoef, sext]
  split <;> split <;> omega

/-- Settles O11: below `MEM_SIZE` a host write is one byte of memory and, outside the footprint in flight, nothing else;
a read there is the byte; at or above `MEM_SIZE` both stop. -/
theorem hostMemoryReadAfterWrite : Obligations.HostMemoryReadAfterWrite := by
  intro s a b hwf
  refine ⟨fun ha => ?write, fun ha houtside => ?read, fun habsent => ⟨if_pos habsent, if_pos habsent⟩,
    s.mem.readCoef_eq_toInt a⟩
  case write =>
    refine ⟨_, State.hostMemWrite_of_present ha b, Memory.read_write_same hwf a b, Memory.wf_write hwf a b,
      fun a' hne => Memory.read_write_other _ b hne, fun houtside => ?_⟩
    exact State.afterMemWrite_of_outside
      (State.runningReads_contains_eq_false fun w i hrun hdecode => (houtside w i hrun hdecode).1)
      (State.runningWrites_contains_eq_false fun w i hrun hdecode => (houtside w i hrun hdecode).2) b
  case read => exact State.hostMemRead_of_outside ha (State.runningWrites_contains_eq_false houtside)

end Sys2Proof.Machine
end

section
/-! Acceptance of a command word, the steps while a command runs, and its completion (40_control.md R140 to R145; 60_exceptions.md
R306). -/

namespace Sys2Proof.Machine

/-! ## What an outcome depends on -/

/-- A command's outcome depends on the registers, memory and `MEM_SIZE` alone (R144). -/
theorem outcomeOf_congr {s t : State} (hregs : t.regs = s.regs) (hmem : t.mem = s.mem) (hsize : t.memSize = s.memSize)
    (i : Instr) : outcomeOf i t = outcomeOf i s := by
  have hparts : ∀ u : State, outcomeOf i u = outcomeOf i { State.resetWith u.memSize 0 with regs := u.regs, mem := u.mem } := by
    intro u
    cases i <;> rfl
  rw [hparts t, hparts s, hregs, hmem, hsize]

/-! ## Acceptance -/

/-- The outcome of a command word on the state that accepted it (R102, R142). -/
def wordOutcome (w : Word) (s : State) : CmdResult :=
  match decode w with
  | .ok i => outcomeOf i s
  | .error _ => illegalWord

theorem wordOutcome_of_legal {w : Word} {i : Instr} (h : decode w = .ok i) (s : State) :
    wordOutcome w s = outcomeOf i s := by
  rw [wordOutcome, h]

theorem wordOutcome_of_illegal {w : Word} {e : CmdReject} (h : decode w = .error e) (s : State) :
    wordOutcome w s = illegalWord := by
  rw [wordOutcome, h]

/-- The state in which a command word is in flight with its outcome (R142). -/
def State.started (s : State) (w : Word) : State := { s.accept w with result := wordOutcome w (s.accept w) }

theorem State.startCommand_eq_started (s : State) (w : Word) : s.startCommand w = .next (s.started w) := by
  rw [State.startCommand_eq]
  rfl

/-- An operation that writes a register, by name or by address, is the write of that register. -/
theorem State.hostOp_of_writesReg {s s' : State} {op : HostOp} {offset : Nat} {reg : Reg} {v : Word}
    (hop : WritesReg s op offset v) (hbase : s'.mmioBase = s.mmioBase) (hreg : Reg.ofOffset offset = some reg) :
    s'.hostOp op = s'.writeReg reg v := by
  obtain ⟨hin, halign⟩ := Reg.decoded_of_ofOffset hreg
  have hwrite := State.hostRegWrite_of_mapped hin halign hreg s' v
  obtain rfl | rfl := hop
  · exact hwrite
  · rw [← hbase]
    exact (s'.atBlock_base offset (s'.hostRegWrite · 4 v)).trans hwrite

theorem Reg.ofOffset_cmd : Reg.ofOffset 0x014 = some .cmd := by decide

/-- The host's write of `CMD`, by name or by address, starts the command on an idle engine (R142). -/
theorem State.hostOp_starts {s s' : State} {op : HostOp} {w : Word} (hop : WritesReg s op 0x014 w)
    (hbase : s'.mmioBase = s.mmioBase) (hidle : s'.regs.status.busy = false) :
    s'.hostOp op = .next (s'.started w) := by
  have hwrite : s'.writeReg .cmd w = s'.startCommand w := if_neg (by rw [hidle]; exact Bool.false_ne_true)
  rw [State.hostOp_of_writesReg hop hbase Reg.ofOffset_cmd, hwrite, State.startCommand_eq_started]

/-- Settles O13: the write starts the command, which is acceptance with the outcome of the word beside it. -/
theorem cmdWriteIsAccepted : Obligations.CmdWriteIsAccepted := by
  intro s v hidle
  refine ⟨_, State.hostOp_starts (s := s) (.inl rfl) rfl hidle, s.accept_regs v, rfl, s.accept_mem v,
    s.accept_memSize v, s.accept_mmioBase v, s.accept_hostQ v, s.one_le_drawLatency, fun i hi => ?_,
    fun e he => wordOutcome_of_illegal he _⟩
  refine ⟨_, exec_eq_complete i _, ?_⟩
  rw [State.complete_result, outcomeOf_congr (s := s.accept v) (t := s.started v) rfl rfl rfl]
  exact wordOutcome_of_legal hi _

/-! ## Steps -/

/-- An idle engine gives the step to the host. -/
theorem step_of_idle {s : State} (hrun : s.run = none) : step s = s.hostStep := by
  rw [step, State.advance, hrun]

/-- A busy engine with latency left counts one step down and lets the host move. -/
theorem step_of_running {s : State} (hrun : s.run.isSome = true) (hleft : 1 < s.latencyLeft) :
    step s = s.tick.hostStep := by
  obtain ⟨w, hw⟩ := Option.isSome_iff_exists.mp hrun
  rw [step, State.advance, hw]
  exact if_neg (Nat.not_le.mpr hleft)

/-- A busy engine whose latency is used up completes. -/
theorem step_of_latency_over {s : State} (hrun : s.run.isSome = true) (hleft : s.latencyLeft ≤ 1) :
    step s = .next s.finish := by
  obtain ⟨w, hw⟩ := Option.isSome_iff_exists.mp hrun
  rw [step, State.advance, hw]
  exact if_pos hleft

theorem State.hostStep_nil {s : State} (hqueue : s.hostQ = []) : s.hostStep = .next s := by
  rw [State.hostStep, hqueue]

theorem State.hostStep_cons {s : State} {op : HostOp} {rest : List HostOp} (hqueue : s.hostQ = op :: rest) :
    s.hostStep = State.hostOp { s with hostQ := rest } op := by
  rw [State.hostStep, hqueue]

/-- The step in which an idle engine takes a write of `CMD`. -/
theorem step_starts {s : State} {op : HostOp} {rest : List HostOp} {w : Word} (hrun : s.run = none)
    (hidle : s.regs.status.busy = false) (hqueue : s.hostQ = op :: rest) (hop : WritesReg s op 0x014 w) :
    step s = .next (State.started { s with hostQ := rest } w) := by
  rw [step_of_idle hrun, State.hostStep_cons hqueue]
  exact State.hostOp_starts hop rfl hidle

/-- Settles O12: a step that does not complete is the host's step, which takes the head of the queue; when that starts a
command, the outcome it records is the one `exec` does. -/
theorem stepRunsTheDecodedCommand : Obligations.StepRunsTheDecodedCommand := by
  refine ⟨fun s w i op rest hrun hidle hqueue hop hdecode => ?starts, fun s op rest hqueue => ?next, fun s hqueue => ?nothing⟩
  case starts =>
    refine ⟨_, exec_eq_complete i _, ?_⟩
    rw [step_starts hrun hidle hqueue hop, State.complete_result, State.started, wordOutcome_of_legal hdecode]
  case next =>
    exact ⟨fun hrun => (step_of_idle hrun).trans (State.hostStep_cons hqueue),
      fun hrun hleft => (step_of_running hrun hleft).trans (State.hostStep_cons (s := s.tick) hqueue)⟩
  case nothing =>
    exact ⟨fun hrun => (step_of_idle hrun).trans (State.hostStep_nil hqueue),
      fun hrun hleft => (step_of_running hrun hleft).trans (State.hostStep_nil (s := s.tick) hqueue)⟩

/-! ## Completion -/

/-- An undisturbed command completes with its outcome (R145). -/
theorem State.finish_of_not_raced {s : State} (h : s.raced = false) : s.finish = s.complete s.result := by
  rw [State.finish, h, if_neg Bool.false_ne_true]

/-- An error completion leaves an idle engine and the registers of R306. -/
theorem State.completedWith_fail (s : State) (e : ErrCode) (o : FailOuts) :
    CompletedWith s (s.complete (.fail e o)) (s.regs.fail e o) :=
  ⟨State.complete_fail_regs .., rfl, rfl, rfl, State.complete_fail_memSize .., State.complete_fail_mmioBase ..,
    State.complete_fail_latencies .., State.complete_fail_hostQ .., State.complete_fail_hostData ..⟩

/-- The registers of a success, in the words of the rule (R145). -/
theorem Regs.succeed_eq (r : Regs) (o : Outs) : r.succeed o = { r with
    outLen := BitVec.ofNat 32 o.outLen
    lzwNext := (o.lzw.map fun x => BitVec.ofNat 17 x.1).getD r.lzwNext
    lzwWidth := (o.lzw.map fun x => BitVec.ofNat 5 x.2).getD r.lzwWidth
    levels := (o.levels.map (BitVec.ofNat 5)).getD r.levels
    status := statusAfterOk r.status o.arithOvf o.narrowOvf } := by
  obtain ⟨outLen, lzw, levels, arith, narrow⟩ := o
  cases lzw <;> cases levels <;> rfl

/-- Settles O14: the step is the completion of the recorded outcome. -/
theorem completionDeliversTheOutcome : Obligations.CompletionDeliversTheOutcome := by
  intro s w hrun hleft hraced
  refine ⟨s.complete s.result, ?_, ?_⟩
  · rw [step_of_latency_over (by rw [hrun]; rfl) hleft, State.finish_of_not_raced hraced]
  · cases s.result with
    | ok writes o => exact ⟨rfl, Regs.succeed_eq s.regs o ▸ s.completedWith_ok writes o⟩
    | fail e o =>
      exact ⟨fun a ha => s.complete_read_other (.fail e o) (Interval.contains_eq_false.mp ha), s.completedWith_fail e o⟩

/-- Settles O27: `NOP` is the completion of an empty success. -/
theorem nopOnlyCompletes : Obligations.NopOnlyCompletes := by
  intro s
  refine ⟨_, exec_eq_complete .nop s, rfl, ?_⟩
  have hregs : s.regs.succeed { outLen := 0 } = { s.regs with
      outLen := 0
      status := { s.regs.status with busy := false, done := true, errCode := 0 } } := by
    simp [Regs.succeed, Status.succeed]
  exact hregs ▸ s.completedWith_ok [] _

/-! ## A command left alone -/

/-- One more step in front of a run. -/
theorem core_run_succ {s t : State} (h : step s = .next t) (n : Nat) :
    Host.Core.run Sys2Proof.core (n + 1) s = Host.Core.run Sys2Proof.core n t := by
  have hcore : Sys2Proof.core.step s = .next t := h
  simp only [Host.Core.run, hcore]

/-- A completion does not depend on the outcome held or the latency left. -/
theorem State.complete_with (s : State) (held res : CmdResult) (left : Nat) :
    State.complete { s with result := held, latencyLeft := left } res = s.complete res := by
  cases res with
  | ok writes o => rfl
  | fail e o =>
    simp only [State.complete, State.scramble]
    split <;> rfl

/-- With nothing more from the host, an undisturbed command completes when its latency is used up: the run counts it
down, changing nothing else, and delivers the outcome. -/
theorem run_to_completion {s : State} (hrun : s.run.isSome = true) (hraced : s.raced = false) (hqueue : s.hostQ = [])
    (hleft : 1 ≤ s.latencyLeft) :
    Host.Core.run Sys2Proof.core s.latencyLeft s = .next (s.complete s.result) := by
  obtain ⟨n, hn⟩ := Nat.exists_eq_add_of_le' hleft
  induction n generalizing s with
  | zero =>
    have hstep : step s = .next (s.complete s.result) := by
      rw [step_of_latency_over hrun (by omega), State.finish_of_not_raced hraced]
    rw [hn]
    exact core_run_succ hstep 0
  | succ n ih =>
    have hstep : step s = .next s.tick := by
      rw [step_of_running hrun (by omega)]
      exact State.hostStep_nil hqueue
    have htick : s.tick.latencyLeft = n + 1 := by rw [State.tick, hn, Nat.add_sub_cancel]
    have hcomplete := s.complete_with s.result s.result (s.latencyLeft - 1)
    rw [hn, core_run_succ hstep, ← htick]
    exact (ih (s := s.tick) hrun hraced hqueue (by omega) htick).trans (congrArg _ hcomplete)

/-- A command word written to an idle engine whose host then does nothing completes with the word's outcome. -/
theorem run_started {s : State} {w : Word} {op : HostOp} (hrun : s.run = none) (hidle : s.regs.status.busy = false)
    (hqueue : s.hostQ = [op]) (hop : WritesReg s op 0x014 w) :
    let a := State.accept { s with hostQ := [] } w
    ∃ n, 1 ≤ n ∧ Host.Core.run Sys2Proof.core (1 + n) s = .next (a.complete (wordOutcome w a)) := by
  intro a
  have hcount : 1 ≤ (State.started { s with hostQ := [] } w).latencyLeft := State.one_le_drawLatency _
  refine ⟨_, hcount, ?_⟩
  rw [Nat.add_comm, core_run_succ (step_starts hrun hidle hqueue hop),
    run_to_completion rfl rfl (State.accept_hostQ _ w) hcount]
  exact congrArg _ (a.complete_with (wordOutcome w a) (wordOutcome w a) a.latencyLeft)

/-- Settles O15: acceptance records the outcome `exec` would deliver, and the latency only counts down until it is. -/
theorem commandRunsToItsCompletion : Obligations.CommandRunsToItsCompletion := by
  intro s w i op hrun hidle hqueue hop hdecode
  obtain ⟨n, hn, hdone⟩ := run_started hrun hidle hqueue hop
  rw [wordOutcome_of_legal hdecode] at hdone
  exact ⟨n, _, hn, hdone, exec_eq_complete i _⟩

/-- Settles O23: the outcome of an illegal word is the error 1, which frees no byte. -/
theorem illegalWordCompletesWithBadCmd : Obligations.IllegalWordCompletesWithBadCmd := by
  intro s w e op hrun hidle hqueue hop hdecode
  obtain ⟨n, hn, hdone⟩ := run_started hrun hidle hqueue hop
  rw [wordOutcome_of_illegal hdecode] at hdone
  refine ⟨n, _, hn, hdone, State.accept_mem _ w, rfl, ?_⟩
  rw [illegalWord, State.complete_fail_regs, State.accept_regs]
  rfl

end Sys2Proof.Machine
end

section
/-! One turn of the LZW decoder (41_lzw.md R168, R173 to R175). -/

namespace Sys2Proof.Machine.Lzw

/-! ## Reading a code (R168) -/

/-- The bits of a number, as a sum of powers of two. -/
theorem ofBits_eq_sum (bits : List Bool) :
    ofBits bits = ((List.range bits.length).map fun j => (bits.getD j false).toNat * 2 ^ j).sum := by
  induction bits with
  | nil => rfl
  | cons b bs ih =>
    have hshift : ∀ j, ((b :: bs).getD (j + 1) false).toNat * 2 ^ (j + 1) = 2 * ((bs.getD j false).toNat * 2 ^ j) :=
      fun j => by rw [List.getD_cons_succ, Nat.pow_succ]; ring
    rw [List.length_cons, List.range_succ_eq_map, List.map_cons, List.map_map, List.sum_cons, ofBits, ih,
      ← List.sum_map_mul_left]
    simp only [Function.comp_def, Nat.succ_eq_add_one, hshift]
    simp

/-- `read(w)` takes the next `w` bits when there are that many. -/
theorem readCode_of_le {w : Nat} {bits : List Bool} (h : w ≤ bits.length) :
    readCode w bits = some (ofBits (bits.take w), bits.drop w) := by
  induction w generalizing bits with
  | zero => rfl
  | succ w ih =>
    cases bits with
    | nil => simp at h
    | cons b bits => simp only [readCode, ih (Nat.le_of_succ_le_succ h), List.take_succ_cons, ofBits, List.drop_succ_cons]

theorem readCode_of_lt {w : Nat} {bits : List Bool} (h : bits.length < w) : readCode w bits = none := by
  induction w generalizing bits with
  | zero => simp at h
  | succ w ih =>
    cases bits with
    | nil => rfl
    | cons b bits => simp only [readCode, ih (Nat.lt_of_succ_lt_succ h)]

theorem length_of_readCode {w c : Nat} {bits rest : List Bool} (h : readCode w bits = some (c, rest)) :
    rest.length + w = bits.length := by
  by_cases hle : w ≤ bits.length
  · rw [readCode_of_le hle] at h
    cases h
    rw [List.length_drop]
    omega
  · rw [readCode_of_lt (by omega)] at h
    cases h

/-! ## The turn (R173, R175) -/

namespace DecState

/-- The state after a code with sequence `seq` was decoded (R173). -/
def decoded (cfg : Options) (st : DecState) (seq : List Byte) (rest : List Bool) : DecState :=
  reserveNext cfg
    { st with table := st.completePending seq, bits := rest, out := st.out ++ seq, prev := some seq }

variable {cfg : Options} {cap : Nat} {st : DecState}

theorem turn_of_trunc (hread : readCode st.table.width st.bits = none) : st.turn cfg cap = .error .trunc := by
  rw [turn, hread]

theorem turn_of_stop {rest : List Bool} (hread : readCode st.table.width st.bits = some (256, rest)) :
    st.turn cfg cap = .stop { st with bits := rest } := by
  rw [turn, hread]
  exact if_pos rfl

theorem turn_of_badCode {c : Nat} {rest : List Bool} (hread : readCode st.table.width st.bits = some (c, rest))
    (hstop : c ≠ 256) (hc : st.table.next ≤ c) : st.turn cfg cap = .error .badCode := by
  rw [turn, hread]
  exact (if_neg hstop).trans (if_pos hc)

theorem turn_of_missing {c : Nat} {rest : List Bool} (hread : readCode st.table.width st.bits = some (c, rest))
    (hstop : c ≠ 256) (hc : c < st.table.next) (hseq : st.sequenceOf c = none) :
    st.turn cfg cap = .error .badCode := by
  rw [turn, hread]
  refine (if_neg hstop).trans ((if_neg (Nat.not_le.mpr hc)).trans ?_)
  rw [hseq]

theorem turn_of_sequence {c : Nat} {rest : List Bool} {seq : List Byte}
    (hread : readCode st.table.width st.bits = some (c, rest)) (hstop : c ≠ 256) (hc : c < st.table.next)
    (hseq : st.sequenceOf c = some seq) : st.turn cfg cap =
      if cap < st.out.length + seq.length then .error .dstOvf else .more (st.decoded cfg seq rest) := by
  rw [turn, hread]
  refine (if_neg hstop).trans ((if_neg (Nat.not_le.mpr hc)).trans ?_)
  rw [hseq]
  rfl

/-- Everything a turn can do: it stops at code 256, it decodes a code below `S.next`, or it fails. -/
theorem turn_cases (cfg : Options) (cap : Nat) (st : DecState) :
    (∃ rest, readCode st.table.width st.bits = some (256, rest) ∧ st.turn cfg cap = .stop { st with bits := rest }) ∨
    (∃ c rest seq, readCode st.table.width st.bits = some (c, rest) ∧ c ≠ 256 ∧ c < st.table.next ∧
      st.sequenceOf c = some seq ∧ st.out.length + seq.length ≤ cap ∧
      st.turn cfg cap = .more (st.decoded cfg seq rest)) ∨
    ∃ e, st.turn cfg cap = .error e := by
  cases hread : readCode st.table.width st.bits with
  | none => exact .inr (.inr ⟨_, turn_of_trunc hread⟩)
  | some code =>
    obtain ⟨c, rest⟩ := code
    by_cases hstop : c = 256
    · subst hstop
      exact .inl ⟨rest, rfl, turn_of_stop hread⟩
    by_cases hc : c < st.table.next
    · cases hseq : st.sequenceOf c with
      | none => exact .inr (.inr ⟨_, turn_of_missing hread hstop hc hseq⟩)
      | some seq =>
        have hturn := turn_of_sequence (cfg := cfg) (cap := cap) hread hstop hc hseq
        by_cases hover : cap < st.out.length + seq.length
        · exact .inr (.inr ⟨_, hturn.trans (if_pos hover)⟩)
        · exact .inr (.inl ⟨c, rest, seq, rfl, hstop, hc, hseq, Nat.not_lt.mp hover, hturn.trans (if_neg hover)⟩)
    · exact .inr (.inr ⟨_, turn_of_badCode hread hstop (Nat.not_lt.mp hc)⟩)

/-- The code a turn that stops has read. -/
theorem readCode_of_turn_stop {st' : DecState} (h : st.turn cfg cap = .stop st') :
    ∃ rest, readCode st.table.width st.bits = some (256, rest) ∧ st' = { st with bits := rest } := by
  obtain ⟨rest, hread, hturn⟩ | ⟨c, rest, seq, -, -, -, -, -, hturn⟩ | ⟨e, hturn⟩ := turn_cases cfg cap st
  · exact ⟨rest, hread, DecTurn.stop.inj (h.symm.trans hturn)⟩
  · cases h.symm.trans hturn
  · cases h.symm.trans hturn

/-- The code a turn that goes on has decoded. -/
theorem decoded_of_turn_more {st' : DecState} (h : st.turn cfg cap = .more st') :
    ∃ c rest seq, readCode st.table.width st.bits = some (c, rest) ∧ c ≠ 256 ∧ c < st.table.next ∧
      st.sequenceOf c = some seq ∧ st.out.length + seq.length ≤ cap ∧ st' = st.decoded cfg seq rest := by
  obtain ⟨rest, hread, hturn⟩ | ⟨c, rest, seq, hread, hstop, hc, hseq, hcap, hturn⟩ | ⟨e, hturn⟩ :=
    turn_cases cfg cap st
  · cases h.symm.trans hturn
  · exact ⟨c, rest, seq, hread, hstop, hc, hseq, hcap, DecTurn.more.inj (h.symm.trans hturn)⟩
  · cases h.symm.trans hturn

/-! ## What a turn leaves -/

/-- The reservation after a decoded code (R165, R173). -/
theorem reserveNext_eq (cfg : Options) (st : DecState) : reserveNext cfg st =
    if st.table.next = 2 ^ cfg.maxWidth then { st with pending := false }
    else if (st.table.reserve cfg none).2 = true then
      { st with table := (st.table.reserve cfg none).1, prev := none, pending := false }
    else { st with table := (st.table.reserve cfg none).1, pending := true } := by
  rw [reserveNext]
  refine if_congr Table.full_iff rfl ?_
  generalize st.table.reserve cfg none = r
  obtain ⟨t, flushed⟩ := r
  cases flushed <;> rfl

@[simp] theorem reserveNext_out (cfg : Options) (st : DecState) : (reserveNext cfg st).out = st.out := by
  rw [reserveNext_eq]
  split
  · rfl
  · split <;> rfl

@[simp] theorem reserveNext_bits (cfg : Options) (st : DecState) : (reserveNext cfg st).bits = st.bits := by
  rw [reserveNext_eq]
  split
  · rfl
  · split <;> rfl

theorem completePending_of_pending {p : List Byte} (hpending : st.pending = true) (hprev : st.prev = some p)
    (seq : List Byte) : st.completePending seq = st.table.assign (st.table.next - 1) (p ++ seq.take 1) := by
  rw [completePending, hpending, hprev]

theorem completePending_of_not_pending (hpending : st.pending = false) (seq : List Byte) :
    st.completePending seq = st.table := by
  rw [completePending, hpending]

@[simp] theorem completePending_next (st : DecState) (seq : List Byte) :
    (st.completePending seq).next = st.table.next := by
  unfold completePending
  split <;> rfl

/-- The sequence of the pending code point (R174). -/
theorem sequenceOf_of_pending {c : Nat} {p : List Byte} (hpending : st.pending = true) (hc : c + 1 = st.table.next)
    (hprev : st.prev = some p) : st.sequenceOf c = some (p ++ p.take 1) := by
  have hlast : (st.pending && c == st.table.next - 1) = true := by simp [hpending, ← hc]
  rw [sequenceOf, if_pos hlast, hprev]
  rfl

/-- Any other code has the sequence of the dictionary. -/
theorem sequenceOf_of_assigned {c : Nat} (hc : c < st.table.next) (h : ¬(st.pending = true ∧ c + 1 = st.table.next)) :
    st.sequenceOf c = st.table.lookup c := by
  refine if_neg fun hlast => h ?_
  simp only [Bool.and_eq_true, beq_iff_eq] at hlast
  exact ⟨hlast.1, by omega⟩

end DecState

theorem Table.lookup_byte {c : Nat} (hc : c < 256) (t : Table) : t.lookup c = some [BitVec.ofNat 8 c] :=
  if_pos hc

/-- Settles O34: the bits left decide whether a code is read, and the code which branch of the turn is taken. -/
theorem decoderErrorsInOrder : Obligations.DecoderErrorsInOrder := by
  intro cfg cap st
  refine ⟨fun hshort => DecState.turn_of_trunc (readCode_of_lt hshort), fun henough => ?_⟩
  intro c bits
  have hcode : ofBits (st.bits.take st.table.width) = c := by
    have hlength : (st.bits.take st.table.width).length = st.table.width := List.length_take_of_le henough
    rw [ofBits_eq_sum, hlength]
    refine congrArg List.sum (List.map_congr_left fun j hj => ?_)
    simp [List.getD_eq_getElem?_getD, List.getElem?_take_of_lt (List.mem_range.mp hj)]
  have hread : readCode st.table.width st.bits = some (c, bits) := hcode ▸ readCode_of_le henough
  refine ⟨fun hstop => DecState.turn_of_stop (hstop ▸ hread), fun hstop hbad => DecState.turn_of_badCode hread hstop hbad,
    fun hstop hc => ⟨fun p hpending hlast hprev => DecState.sequenceOf_of_pending hpending hlast hprev,
      DecState.sequenceOf_of_assigned hc, fun hbyte => Table.lookup_byte hbyte _, fun seq hseq => ?_⟩⟩
  have hturn := DecState.turn_of_sequence (cfg := cfg) (cap := cap) hread hstop hc hseq
  refine ⟨fun hover => hturn.trans (if_pos hover), fun hfits => (hturn.trans (if_neg (Nat.not_lt.mpr hfits))).trans ?_⟩
  rw [DecState.decoded, DecState.reserveNext_eq]
  simp only [DecState.completePending_next]
  rfl

end Sys2Proof.Machine.Lzw
end

section
/-! Where the elements of a view lie in its interval (20_memory.md R76 to R78). -/

namespace Sys2Proof.Machine

theorem Interval.contains_eq_true {v : Interval} {a : Nat} : v.contains a = true ↔ v.lo ≤ a ∧ a < v.hi := by
  simp [Interval.contains]

theorem byteRange_contains {base len a : Nat} :
    (byteRange base len).contains a = true ↔ base ≤ a ∧ a < base + len :=
  Interval.contains_eq_true

/-- Item `i` of `n` items `t` bytes apart ends, `k` bytes on, no later than the last one. -/
theorem item_end_le {i n : Nat} (hi : i < n) (t k : Nat) : i * t + k ≤ (n - 1) * t + k :=
  Nat.add_le_add_right (Nat.mul_le_mul_right t (Nat.le_pred_of_lt hi)) k

/-- An element of a word view lies in the view's interval. -/
theorem View.wordInterval_contains {v : View} {r c a : Nat} (hr : r < v.height) (hc : c < v.width)
    (ha : v.wordAddr r c ≤ a ∧ a < v.wordAddr r c + 4) : v.wordInterval.contains a = true := by
  have hrow := item_end_le hr v.stride (4 * v.width)
  rw [View.wordInterval_eq_byteRange (by omega), byteRange_contains]
  rw [View.wordAddr] at ha
  omega

/-- An element of a byte view lies in the view's interval. -/
theorem View.byteInterval_contains {v : View} {r c : Nat} (hr : r < v.height) (hc : c < v.width) :
    v.byteInterval.contains (v.byteAddr r c) = true := by
  have hrow := item_end_le hr v.stride v.width
  rw [View.byteInterval_eq_byteRange (by omega), byteRange_contains, View.byteAddr]
  omega

/-- An element of the vector view lies in its interval. -/
theorem Regs.vectorInterval_contains {r : Regs} {i a : Nat} (hi : i < r.width)
    (ha : r.vectorAddr i ≤ a ∧ a < r.vectorAddr i + 4) : r.vectorInterval.contains a = true := by
  have hitem := item_end_le hi r.srcStride.toNat 4
  rw [Regs.vectorInterval_eq_byteRange (by omega), byteRange_contains]
  rw [Regs.vectorAddr] at ha
  omega

/-- The bytes on the byte side of a conversion in order `o` (R261). -/
def View.sideInterval (v : View) : Order → Interval
  | .raster => v.byteInterval
  | .band => byteRange v.base (v.width * v.height)

theorem Regs.sideInterval_contains {r : Regs} {v : View} (hwidth : v.width = r.width) (hheight : v.height = r.height)
    {o : Order} {k : Nat} (hk : k < r.width * r.height) :
    (v.sideInterval o).contains (byteSideAddr v o k (r.posAt o k)) = true := by
  cases o with
  | raster =>
    obtain ⟨hrow, hcol⟩ := Regs.posAt_lt (o := .raster) hk
    exact View.byteInterval_contains (hheight ▸ hrow) (hwidth ▸ hcol)
  | band =>
    rw [← hwidth, ← hheight] at hk
    exact byteRange_contains.mpr ⟨Nat.le_add_right .., Nat.add_lt_add_left hk _⟩

theorem writeInterval_pack (r : Regs) (o : Order) : writeInterval r (.packWrap o) = r.dstView.sideInterval o ∧
    writeInterval r (.packSats o) = r.dstView.sideInterval o ∧
    writeInterval r (.packSatu o) = r.dstView.sideInterval o := by
  cases o <;> exact ⟨rfl, rfl, rfl⟩

theorem readInterval_unpack (r : Regs) (o : Order) : readInterval r (.unpackU o) = r.srcView.sideInterval o ∧
    readInterval r (.unpackS o) = r.srcView.sideInterval o := by
  cases o <;> exact ⟨rfl, rfl⟩

/-- For views with elements the intervals of a command are the ranges of R76. -/
theorem intervals_eq_byteRange {r : Regs} (hwidth : r.width ≠ 0) (hheight : r.height ≠ 0) (i : Instr) :
    readInterval r i = byteRange (readBase i r) (readLength i r) ∧
      writeInterval r i = byteRange (writeBase i r) (writeLength i r) := by
  have hvector := Regs.vectorInterval_eq_byteRange hwidth
  have hsrcWords := View.wordInterval_eq_byteRange (v := r.srcView) hheight
  have hdstWords := View.wordInterval_eq_byteRange (v := r.dstView) hheight
  have hsrcBytes := View.byteInterval_eq_byteRange (v := r.srcView) hheight
  have hdstBytes := View.byteInterval_eq_byteRange (v := r.dstView) hheight
  cases i with
  | nop | lzwEnc | lzwDec => exact ⟨rfl, rfl⟩
  | wt1Fwd | wt1Inv => exact ⟨hvector, hvector⟩
  | wt2Fwd | wt2Inv | qFwd | qInv => exact ⟨hsrcWords, hsrcWords⟩
  | packWrap o | packSats o | packSatu o =>
    cases o with
    | raster => exact ⟨hsrcWords, hdstBytes⟩
    | band => exact ⟨hsrcWords, rfl⟩
  | unpackU o | unpackS o =>
    cases o with
    | raster => exact ⟨hsrcBytes, hdstWords⟩
    | band => exact ⟨rfl, hdstWords⟩

end Sys2Proof.Machine
end

section
/-! What every outcome has in common, and what a command leaves alone (20_memory.md R82; 40_control.md R143 to R145;
60_exceptions.md R304). -/

namespace Sys2Proof.Machine

/-! ## The two phases of a command -/

/-- The check phase of a command (R143). -/
def checksOf (i : Instr) (s : State) : List (Bool × ErrCode) :=
  match i with
  | .nop => []
  | .lzwEnc | .lzwDec => lzwChecks s i
  | .wt1Fwd | .wt1Inv => wt1Checks s i
  | .wt2Fwd | .wt2Inv => wt2Checks s i
  | .qFwd | .qInv => quantChecks s i
  | .packWrap o | .packSats o | .packSatu o => packChecks s o i
  | .unpackU o | .unpackS o => unpackChecks s o i

/-- The execution phase of a command (R144). -/
def runOf (i : Instr) (s : State) : CmdResult :=
  match i with
  | .nop => .ok [] { outLen := 0 }
  | .lzwEnc => runLzwEnc s
  | .lzwDec => runLzwDec s
  | .wt1Fwd => runWt1 Lifting.forward s
  | .wt1Inv => runWt1 Lifting.inverse s
  | .wt2Fwd => runWt2 forward2d s
  | .wt2Inv => runWt2 inverse2d s
  | .qFwd => runQuant quantForward s
  | .qInv => runQuant quantInverse s
  | .packWrap o => runPack narrowWrap o s
  | .packSats o => runPack narrowSats o s
  | .packSatu o => runPack narrowSatu o s
  | .unpackU o => runUnpack widenU o s
  | .unpackS o => runUnpack widenS o s

theorem outcomeOf_eq_checked (i : Instr) (s : State) :
    outcomeOf i s = checked s.regs i (checksOf i s) (runOf i s) := by
  cases i <;> rfl

/-- Every command but `NOP` checks its footprint (R76, R143). -/
theorem badFootprint_mem_checksOf {i : Instr} (hi : i ≠ .nop) (s : State) :
    (badFootprint s.regs s.memSize i, .bus) ∈ checksOf i s := by
  cases i with
  | nop => exact absurd rfl hi
  | lzwEnc | lzwDec => exact .tail _ (.head _)
  | wt1Fwd | wt1Inv | wt2Fwd | wt2Inv | qFwd | qInv => exact .tail _ (.tail _ (.tail _ (.head _)))
  | packWrap o | packSats o | packSatu o | unpackU o | unpackS o => exact .tail _ (.tail _ (.head _))

/-! ## What an outcome can be -/

/-- The outcomes a command can have (R82, R144, R304): a success writes bytes of its write interval and sets only its own
result registers and flags; an error is one of `failWith`. -/
inductive OutcomeFits (r : Regs) (i : Instr) : CmdResult → Prop
  | ok {writes : List Host.Cell} {o : Outs} (hwrites : ∀ c ∈ writes, (writeInterval r i).contains c.1 = true)
      (hlzw : isLzw i = false → o.lzw = none) (hlevels : setsLevels i = false → o.levels = none)
      (harith : canWrap i = false → o.arithOvf = false) (hnarrow : canNarrow i = false → o.narrowOvf = false) :
      OutcomeFits r i (.ok writes o)
  | error (e : ErrCode) : OutcomeFits r i (failWith r i e)

theorem OutcomeFits.checked {r : Regs} {i : Instr} {run : CmdResult} (h : OutcomeFits r i run)
    (checks : List (Bool × ErrCode)) : OutcomeFits r i (checked r i checks run) := by
  obtain ⟨e, -, hfail⟩ | ⟨-, hpass⟩ := checked_cases r i checks run
  · rw [hfail]
    exact .error e
  · rwa [hpass]

/-- The decoder keeps its output within `DST_CAP` (41_lzw.md R175). -/
theorem Lzw.DecState.turn_out_length {cfg : Lzw.Options} {cap : Nat} {st st' : Lzw.DecState}
    (hout : st.out.length ≤ cap) (h : st.turn cfg cap = .stop st' ∨ st.turn cfg cap = .more st') :
    st'.out.length ≤ cap := by
  obtain h | h := h
  · obtain ⟨rest, -, rfl⟩ := Lzw.DecState.readCode_of_turn_stop h
    exact hout
  · obtain ⟨c, rest, seq, -, -, -, -, hcap, rfl⟩ := Lzw.DecState.decoded_of_turn_more h
    rw [Lzw.DecState.decoded, Lzw.DecState.reserveNext_out, List.length_append]
    exact hcap

theorem Lzw.decodeLoop_out_length {cfg : Lzw.Options} {cap fuel : Nat} {st st' : Lzw.DecState}
    (hout : st.out.length ≤ cap) (h : Lzw.decodeLoop cfg cap fuel st = .ok st') : st'.out.length ≤ cap := by
  induction fuel generalizing st with
  | zero => cases h
  | succ fuel ih =>
    unfold Lzw.decodeLoop at h
    split at h
    · next hturn => cases h; exact Lzw.DecState.turn_out_length hout (.inl hturn)
    · next hturn => exact ih (Lzw.DecState.turn_out_length hout (.inr hturn)) h
    · cases h

/-- An LZW output within `DST_CAP` lies in the write interval. -/
theorem lzwOk_fits {i : Instr} (hi : i = .lzwEnc ∨ i = .lzwDec) {s : State} {out : List Byte}
    (hout : out.length ≤ s.regs.dstCap.toNat) (t : Lzw.Table) : OutcomeFits s.regs i (lzwOk s out t) := by
  have hwrite : writeInterval s.regs i = byteRange s.regs.dstAddr.toNat s.regs.dstCap.toNat := by
    obtain rfl | rfl := hi <;> rfl
  have hlzw : isLzw i = true := by obtain rfl | rfl := hi <;> rfl
  refine .ok (fun c hc => ?_) (fun h => absurd h (by simp [hlzw])) (fun _ => rfl) (fun _ => rfl) (fun _ => rfl)
  obtain ⟨hlo, hhi⟩ := addr_of_mem_cellsAt hc
  rw [hwrite, byteRange_contains]
  omega

/-- An output longer than `DST_CAP` is an error (R171). -/
theorem runLzwEnc_of_gt {s : State}
    (h : s.regs.dstCap.toNat < (Lzw.encodeBytes s.regs.lzwOptions (lzwInput s)).length) :
    runLzwEnc s = failWith s.regs .lzwEnc .dstOvf :=
  if_pos h

theorem runLzwEnc_fits (s : State) : OutcomeFits s.regs .lzwEnc (runLzwEnc s) := by
  by_cases hfits : (Lzw.encodeBytes s.regs.lzwOptions (lzwInput s)).length ≤ s.regs.dstCap.toNat
  · exact runLzwEnc_of_le hfits ▸ lzwOk_fits (.inl rfl) hfits _
  · rw [runLzwEnc_of_gt (Nat.lt_of_not_le hfits)]
    exact .error .dstOvf

theorem runLzwDec_fits (s : State) : OutcomeFits s.regs .lzwDec (runLzwDec s) := by
  cases hdecode : Lzw.decodeState s.regs.lzwOptions s.regs.dstCap.toNat (lzwInput s) with
  | error e => exact runLzwDec_of_error hdecode ▸ .error e
  | ok st =>
    rw [runLzwDec_of_ok hdecode]
    split
    · exact .error .len
    · exact lzwOk_fits (.inr rfl) (Lzw.decodeLoop_out_length (Nat.zero_le _) hdecode) _

/-- A 1D command writes elements of its vector. -/
theorem runWt1_fits {i : Instr} (hi : i = .wt1Fwd ∨ i = .wt1Inv) (f : Lifting → List Int → List Int × Bool) (s : State) :
    OutcomeFits s.regs i (runWt1 f s) := by
  have hwrite : writeInterval s.regs i = s.regs.vectorInterval := by obtain rfl | rfl := hi <;> rfl
  have hwrap : canWrap i = true := by obtain rfl | rfl := hi <;> rfl
  unfold runWt1
  split
  · exact .ok nofun (fun _ => rfl) (fun _ => rfl) (fun _ => rfl) (fun _ => rfl)
  · refine .ok (fun c hc => ?_) (fun _ => rfl) (fun _ => rfl) (fun h => absurd h (by simp [hwrap])) (fun _ => rfl)
    obtain ⟨k, hk, hc⟩ := mem_vectorCells.mp hc
    exact hwrite ▸ Regs.vectorInterval_contains hk (addr_of_mem_coefCells hc)

/-- The commands that replace the elements of the source view. -/
def IsInPlace (i : Instr) : Prop := i = .wt2Fwd ∨ i = .wt2Inv ∨ i = .qFwd ∨ i = .qInv

/-- A command that replaces the elements of its view writes nothing else. -/
theorem gridCells_fits {i : Instr} (hi : IsInPlace i) (r : Regs) (g : Grid) (n : Nat) (levels : Option Nat)
    (ovf : Bool) : OutcomeFits r i (.ok (r.srcView.gridCells g) { outLen := n, levels := levels, arithOvf := ovf }) := by
  have hwrite : writeInterval r i = r.srcView.wordInterval := by obtain rfl | rfl | rfl | rfl := hi <;> rfl
  have hkind : canWrap i = true ∧ setsLevels i = true := by obtain rfl | rfl | rfl | rfl := hi <;> exact ⟨rfl, rfl⟩
  refine .ok (fun c hc => ?_) (fun _ => rfl) (fun h => absurd h (by simp [hkind])) (fun h => absurd h (by simp [hkind]))
    (fun _ => rfl)
  obtain ⟨row, hrow, col, hcol, hc⟩ := mem_gridCells.mp hc
  exact hwrite ▸ View.wordInterval_contains hrow hcol (addr_of_mem_coefCells hc)

theorem runWt2_fits {i : Instr} (hi : i = .wt2Fwd ∨ i = .wt2Inv) (f : Lifting → List (Nat × Nat) → Grid → Grid × Bool)
    (s : State) : OutcomeFits s.regs i (runWt2 f s) := by
  have hlevels : setsLevels i = true := by obtain rfl | rfl := hi <;> rfl
  unfold runWt2
  dsimp only
  split
  · exact .ok nofun (fun _ => rfl) (fun h => absurd h (by simp [hlevels])) (fun _ => rfl) (fun _ => rfl)
  · exact gridCells_fits (by obtain rfl | rfl := hi <;> simp [IsInPlace]) s.regs _ _ _ _

theorem runQuant_fits {i : Instr} (hi : i = .qFwd ∨ i = .qInv) (q : QuantOp) (s : State) :
    OutcomeFits s.regs i (runQuant q s) :=
  gridCells_fits (by obtain rfl | rfl := hi <;> simp [IsInPlace]) s.regs _ _ _ _

/-- Raster order sets no `LEVELS` (R261). -/
theorem Regs.packLevels_eq_none {r : Regs} {o : Order} (h : (o == .band) = false) : r.packLevels o = none := by
  cases o with
  | raster => rfl
  | band => cases h

theorem runPack_fits {i : Instr} {o : Order} (hi : i = .packWrap o ∨ i = .packSats o ∨ i = .packSatu o)
    (narrow : Int → Byte × Bool) (s : State) : OutcomeFits s.regs i (runPack narrow o s) := by
  obtain ⟨hwrap, hsats, hsatu⟩ := writeInterval_pack s.regs o
  have hwrite : writeInterval s.regs i = s.regs.dstView.sideInterval o := by
    obtain rfl | rfl | rfl := hi
    exacts [hwrap, hsats, hsatu]
  have hkind : setsLevels i = (o == .band) ∧ canNarrow i = true := by obtain rfl | rfl | rfl := hi <;> exact ⟨rfl, rfl⟩
  refine .ok (fun c hc => ?_) (fun _ => rfl) (fun h => Regs.packLevels_eq_none (hkind.1 ▸ h)) (fun _ => rfl)
    (fun h => absurd h (by simp [hkind]))
  obtain ⟨k, hk, rfl⟩ := mem_packCells.mp hc
  exact hwrite ▸ Regs.sideInterval_contains rfl rfl hk

theorem runUnpack_fits {i : Instr} {o : Order} (hi : i = .unpackU o ∨ i = .unpackS o) (widen : Byte → Int) (s : State) :
    OutcomeFits s.regs i (runUnpack widen o s) := by
  have hwrite : writeInterval s.regs i = s.regs.dstView.wordInterval := by obtain rfl | rfl := hi <;> rfl
  have hlevels : setsLevels i = (o == .band) := by obtain rfl | rfl := hi <;> rfl
  refine .ok (fun c hc => ?_) (fun _ => rfl) (fun h => Regs.packLevels_eq_none (hlevels ▸ h)) (fun _ => rfl) (fun _ => rfl)
  obtain ⟨k, hk, hc⟩ := mem_unpackCells.mp hc
  obtain ⟨hrow, hcol⟩ := Regs.posAt_lt (o := o) hk
  exact hwrite ▸ View.wordInterval_contains hrow hcol (addr_of_mem_coefCells hc)

theorem runOf_fits (i : Instr) (s : State) : OutcomeFits s.regs i (runOf i s) := by
  cases i with
  | nop => exact .ok nofun (fun _ => rfl) (fun _ => rfl) (fun _ => rfl) (fun _ => rfl)
  | lzwEnc => exact runLzwEnc_fits s
  | lzwDec => exact runLzwDec_fits s
  | wt1Fwd => exact runWt1_fits (.inl rfl) _ s
  | wt1Inv => exact runWt1_fits (.inr rfl) _ s
  | wt2Fwd => exact runWt2_fits (.inl rfl) _ s
  | wt2Inv => exact runWt2_fits (.inr rfl) _ s
  | qFwd => exact runQuant_fits (.inl rfl) _ s
  | qInv => exact runQuant_fits (.inr rfl) _ s
  | packWrap o => exact runPack_fits (.inl rfl) _ s
  | packSats o => exact runPack_fits (.inr (.inl rfl)) _ s
  | packSatu o => exact runPack_fits (.inr (.inr rfl)) _ s
  | unpackU o => exact runUnpack_fits (.inl rfl) _ s
  | unpackS o => exact runUnpack_fits (.inr rfl) _ s

theorem outcomeOf_fits (i : Instr) (s : State) : OutcomeFits s.regs i (outcomeOf i s) :=
  outcomeOf_eq_checked i s ▸ (runOf_fits i s).checked _

/-! ## The frame of a command -/

theorem Regs.sameConfig_succeed (r : Regs) (o : Outs) : SameConfig r (r.succeed o) :=
  ⟨rfl, rfl, rfl, rfl, rfl, rfl, rfl, rfl, rfl, rfl, rfl, rfl, rfl, rfl, rfl, rfl, rfl, rfl⟩

theorem Regs.sameConfig_fail (r : Regs) (e : ErrCode) (o : FailOuts) : SameConfig r (r.fail e o) :=
  ⟨rfl, rfl, rfl, rfl, rfl, rfl, rfl, rfl, rfl, rfl, rfl, rfl, rfl, rfl, rfl, rfl, rfl, rfl⟩

/-- An error sets the result registers of its command to 0 and leaves the others (R306). -/
theorem failWith_outs (r : Regs) (i : Instr) (e : ErrCode) : ∃ o, failWith r i e = .fail e o ∧
    o.clearsLzw = isLzw i ∧ o.clearsLevels = setsLevels i := by
  refine ⟨_, rfl, ?_⟩
  cases i <;> exact ⟨rfl, rfl⟩

/-- No completion changes a byte outside the write interval of the command (R82, R304). -/
theorem OutcomeFits.read_outside {s : State} {i : Instr} {res : CmdResult} (h : OutcomeFits s.regs i res) {a : Nat}
    (ha : (writeInterval s.regs i).contains a = false) : (s.complete res).mem.read a = s.mem.read a := by
  cases h with
  | ok hwrites =>
    refine s.complete_read_other (.ok _ _) fun c hc heq => ?_
    exact Bool.false_ne_true (ha.symm.trans (heq ▸ hwrites c hc))
  | error e =>
    obtain ⟨o, hfail, hscratch⟩ := failWith_eq s.regs i e
    rw [hfail]
    refine s.complete_read_other (.fail e o) ?_
    dsimp only
    rw [hscratch]
    split
    · exact Interval.contains_eq_false.mp ha
    · exact fun hin => Nat.not_lt_zero a hin.2

/-- Settles O29: the checks pass and the output does not fit, so the execution phase is the error of R171. -/
theorem lzwEncOverflowFails : Obligations.LzwEncOverflowFails := by
  intro s hpass input hlong
  have hexec : exec .lzwEnc s = .next (s.complete (failWith s.regs .lzwEnc .dstOvf)) := by
    rw [exec_lzwEnc_of_pass hpass, runLzwEnc_of_gt hlong]
  exact ⟨_, hexec, s.sameOutside_failWith rfl .dstOvf, s.completedWith_failWith .lzwEnc .dstOvf⟩

/-- Settles O25: a command is the completion of an outcome that fits it, so the frame is that of the two completions. -/
theorem frameOfEveryCommand : Obligations.FrameOfEveryCommand := by
  intro i s
  have hfits := outcomeOf_fits i s
  have hmemory : ∀ a, (writeInterval s.regs i).contains a = false →
      (s.complete (outcomeOf i s)).mem.read a = s.mem.read a := fun a ha => hfits.read_outside ha
  have hintervals : 1 ≤ s.regs.width → 1 ≤ s.regs.height → ∀ a,
      ((readInterval s.regs i).contains a = true ↔
        readBase i s.regs ≤ a ∧ a < readBase i s.regs + readLength i s.regs) ∧
      ((writeInterval s.regs i).contains a = true ↔
        writeBase i s.regs ≤ a ∧ a < writeBase i s.regs + writeLength i s.regs) := by
    intro hw hh a
    obtain ⟨hread, hwrite⟩ := intervals_eq_byteRange (Nat.pos_iff_ne_zero.mp hw) (Nat.pos_iff_ne_zero.mp hh) i
    rw [hread, hwrite]
    exact ⟨byteRange_contains, byteRange_contains⟩
  refine ⟨_, exec_eq_complete i s, ?_⟩
  generalize outcomeOf i s = res at hfits hmemory ⊢
  cases hfits with
  | ok hwrites hlzw hlevels harith hnarrow =>
    refine ⟨s.regs.sameConfig_succeed _, rfl, fun h => ?_, fun h => ?_, fun h => ?_, fun h => ?_, fun h => ?_,
      fun h => ?_, rfl, .inl rfl, rfl, rfl, rfl, rfl, rfl, rfl, hmemory, hintervals⟩
    · simp [hlzw h]
    · simp [hlevels h]
    · simp [h]
    · simp [harith h]
    · simp [h]
    · simp [hnarrow h]
  | error e =>
    obtain ⟨o, hfail, hclearsLzw, hclearsLevels⟩ := failWith_outs s.regs i e
    rw [hfail] at hmemory ⊢
    obtain ⟨hregs, hrun, -, -, hsize, hbase, hlat, hqueue, hdata⟩ := s.completedWith_fail e o
    rw [hregs]
    refine ⟨s.regs.sameConfig_fail e o, rfl, fun h => ?_, fun h => ?_, id, fun _ => rfl, id, fun _ => rfl, rfl, .inr rfl,
      hrun, hsize, hbase, hlat, hqueue, hdata, hmemory, hintervals⟩
    · simp [hclearsLzw, h]
    · simp [hclearsLevels, h]

end Sys2Proof.Machine
end

section
/-! A command's outcome depends on its operands and its read interval only (40_control.md R144). -/

namespace Sys2Proof.Machine

/-! ## Registers -/

/-- The registers with the result registers and `STATUS` at fixed values: what a command reads as operands. -/
def Regs.operands (r : Regs) : Regs :=
  { r with status := Regs.reset.status, outLen := 0, lzwNext := 0, lzwWidth := 0, levels := 0 }

theorem SameConfig.operands_eq {r r' : Regs} (h : SameConfig r r') : r'.operands = r.operands := by
  obtain ⟨hcmd, hdoneIe, herrIe, hsrcAddr, hsrcLen, hsrcStride, hdstAddr, hdstCap, hdstStride, hgeom, hlzwCfg, hwtCfg,
    hwtScale, hqFactor, hqAlpha, hqBeta, hstepCtrl, hstepCoef⟩ := h
  simp only [Regs.operands, hcmd, hdoneIe, herrIe, hsrcAddr, hsrcLen, hsrcStride, hdstAddr, hdstCap, hdstStride, hgeom,
    hlzwCfg, hwtCfg, hwtScale, hqFactor, hqAlpha, hqBeta, hstepCtrl, hstepCoef]

/-- No command reads a result register or `STATUS`. -/
theorem outcomeOf_operands (i : Instr) (s : State) :
    outcomeOf i { s with regs := s.regs.operands } = outcomeOf i s := by
  cases i <;> rfl

theorem readInterval_operands (r : Regs) (i : Instr) : readInterval r.operands i = readInterval r i := by
  cases i with
  | unpackU o | unpackS o => cases o <;> rfl
  | _ => rfl

/-! ## Memory -/

/-- Memories that agree on the four bytes of an element agree on it (R72). -/
theorem Memory.readCoef_congr {m m' : Memory} {addr : Nat}
    (h : ∀ a, addr ≤ a ∧ a < addr + 4 → m'.read a = m.read a) : m'.readCoef addr = m.readCoef addr := by
  simp only [Memory.readCoef, Memory.readWord, h addr (by omega), h (addr + 1) (by omega), h (addr + 2) (by omega),
    h (addr + 3) (by omega)]

theorem Memory.readBytes_congr {m m' : Memory} {addr n : Nat}
    (h : ∀ a, (byteRange addr n).contains a = true → m'.read a = m.read a) :
    m'.readBytes addr n = m.readBytes addr n := by
  refine List.map_congr_left fun j hj => h _ (byteRange_contains.mpr ?_)
  have := List.mem_range.mp hj
  omega

theorem View.readGrid_congr {v : View} {m m' : Memory}
    (h : ∀ a, v.wordInterval.contains a = true → m'.read a = m.read a) : v.readGrid m' = v.readGrid m := by
  refine List.map_congr_left fun r hr => List.map_congr_left fun c hc => Memory.readCoef_congr fun a ha => h a ?_
  exact View.wordInterval_contains (List.mem_range.mp hr) (List.mem_range.mp hc) ha

theorem Regs.readVector_congr {r : Regs} {m m' : Memory}
    (h : ∀ a, r.vectorInterval.contains a = true → m'.read a = m.read a) : r.readVector m' = r.readVector m :=
  List.map_congr_left fun _ hk => Memory.readCoef_congr fun a ha =>
    h a (Regs.vectorInterval_contains (List.mem_range.mp hk) ha)

/-- Two commands that make the same of every position have the same list of results. -/
theorem Regs.mapIdx_positions_congr {α : Type} {r : Regs} {o : Order} {f g : Nat → Nat × Nat → α}
    (h : ∀ k < r.width * r.height, f k (r.posAt o k) = g k (r.posAt o k)) :
    (r.positions o).mapIdx f = (r.positions o).mapIdx g := by
  refine List.ext_getElem (by simp) fun k hk _ => ?_
  have hk : k < (r.positions o).length := by simpa using hk
  rw [List.getElem_mapIdx, List.getElem_mapIdx, ← Regs.posAt_eq_getElem hk]
  exact h k (r.length_positions o ▸ hk)

section
variable {s : State} {m : Memory}

theorem runPack_congr (h : ∀ a, s.regs.srcView.wordInterval.contains a = true → m.read a = s.mem.read a)
    (narrow : Int → Byte × Bool) (o : Order) : runPack narrow o { s with mem := m } = runPack narrow o s := by
  have hcells : (s.regs.positions o).mapIdx (packCell narrow o { s with mem := m }) =
      (s.regs.positions o).mapIdx (packCell narrow o s) := by
    refine Regs.mapIdx_positions_congr fun k hk => ?_
    obtain ⟨hrow, hcol⟩ := Regs.posAt_lt (o := o) hk
    have helem := Memory.readCoef_congr fun a ha => h a (View.wordInterval_contains (v := s.regs.srcView) hrow hcol ha)
    simp only [packCell, helem]
  simp only [runPack, hcells]

theorem runUnpack_congr {o : Order} (h : ∀ a, (s.regs.srcView.sideInterval o).contains a = true → m.read a = s.mem.read a)
    (widen : Byte → Int) : runUnpack widen o { s with mem := m } = runUnpack widen o s := by
  have hcells : (s.regs.positions o).mapIdx (unpackCells widen o { s with mem := m }) =
      (s.regs.positions o).mapIdx (unpackCells widen o s) := by
    refine Regs.mapIdx_positions_congr fun k hk => ?_
    simp only [unpackCells, h _ (Regs.sideInterval_contains (v := s.regs.srcView) rfl rfl hk)]
  simp only [runUnpack, hcells]

/-- The execution phase reads only the bytes of the read interval. -/
theorem runOf_congr (i : Instr) (h : ∀ a, (readInterval s.regs i).contains a = true → m.read a = s.mem.read a) :
    runOf i { s with mem := m } = runOf i s := by
  have hlzw : readInterval s.regs i = byteRange s.regs.srcAddr.toNat s.regs.srcLen.toNat →
      lzwInput { s with mem := m } = lzwInput s := fun hi => Memory.readBytes_congr (hi ▸ h)
  have hvector : readInterval s.regs i = s.regs.vectorInterval → s.regs.readVector m = s.regs.readVector s.mem :=
    fun hi => Regs.readVector_congr (hi ▸ h)
  have hgrid : readInterval s.regs i = s.regs.srcView.wordInterval →
      s.regs.srcView.readGrid m = s.regs.srcView.readGrid s.mem := fun hi => View.readGrid_congr (hi ▸ h)
  cases i with
  | nop => rfl
  | lzwEnc => simp only [runOf, runLzwEnc, hlzw rfl]; rfl
  | lzwDec => simp only [runOf, runLzwDec, hlzw rfl]; rfl
  | wt1Fwd | wt1Inv => simp only [runOf, runWt1, hvector rfl]
  | wt2Fwd | wt2Inv => simp only [runOf, runWt2, hgrid rfl]
  | qFwd | qInv => simp only [runOf, runQuant, hgrid rfl]
  | packWrap o | packSats o | packSatu o => exact runPack_congr h _ o
  | unpackU o => exact runUnpack_congr ((readInterval_unpack s.regs o).1 ▸ h) _
  | unpackS o => exact runUnpack_congr ((readInterval_unpack s.regs o).2 ▸ h) _

/-- The check phase reads no memory (R301). -/
theorem checksOf_congr (i : Instr) : checksOf i { s with mem := m } = checksOf i s := by
  cases i <;> rfl

end

/-- Settles O26: the check phase reads registers and `MEM_SIZE` only, the execution phase also the bytes of the read
interval, and neither a register that two equal configurations can differ in. -/
theorem outcomeDependsOnReadIntervalOnly : Obligations.OutcomeDependsOnReadIntervalOnly := by
  intro i s s' hconfig hsize hreads
  refine ⟨_, _, exec_eq_complete i s, exec_eq_complete i s', ?_⟩
  rw [State.complete_result, State.complete_result]
  let a : State := { s with regs := s.regs.operands }
  have hmemory : ∀ x, (readInterval a.regs i).contains x = true → s'.mem.read x = a.mem.read x := by
    intro x hx
    rw [readInterval_operands] at hx
    exact hreads x hx
  calc outcomeOf i s'
      = outcomeOf i { s' with regs := s'.regs.operands } := (outcomeOf_operands i s').symm
    _ = outcomeOf i { a with mem := s'.mem } :=
      outcomeOf_congr (s := { a with mem := s'.mem }) (t := { s' with regs := s'.regs.operands })
        hconfig.operands_eq rfl hsize i
    _ = outcomeOf i a := by
      rw [outcomeOf_eq_checked, outcomeOf_eq_checked i a, checksOf_congr, runOf_congr i hmemory]
    _ = outcomeOf i s := outcomeOf_operands i s

end Sys2Proof.Machine
end

section
/-! The check phase against the rules: the first failing check is the error reported (60_exceptions.md R301, R303). -/

namespace Sys2Proof.Machine

/-! ## The model's checks, one for each error -/

/-- The `E_CFG` check of a command. -/
def cfgCheck (i : Instr) (s : State) : Bool :=
  match i with
  | .lzwEnc | .lzwDec => badMaxWidth s.regs
  | .wt1Fwd | .wt1Inv | .wt2Fwd | .wt2Inv => badKind s.regs
  | .qFwd | .qInv => s.regs.alphaRaw == 0
  | .nop | .packWrap _ | .packSats _ | .packSatu _ | .unpackU _ | .unpackS _ => false

/-- The `E_GEOM` check of a command. -/
def geomCheck (i : Instr) (s : State) : Bool :=
  match i with
  | .nop | .lzwEnc | .lzwDec => false
  | .wt1Fwd | .wt1Inv => badVectorGeom s.regs
  | .wt2Fwd | .wt2Inv | .qFwd | .qInv => badWordGeom s.regs.srcView
  | .packWrap o | .packSats o | .packSatu o =>
    badWordGeom s.regs.srcView || (o == .raster && badByteGeom s.regs.dstView)
  | .unpackU o | .unpackS o => badWordGeom s.regs.dstView || (o == .raster && badByteGeom s.regs.srcView)

/-- The `E_ALIGN` check of a command. -/
def alignCheck (i : Instr) (s : State) : Bool :=
  match i with
  | .nop | .lzwEnc | .lzwDec => false
  | .wt1Fwd | .wt1Inv => badVectorAlign s.regs
  | .wt2Fwd | .wt2Inv | .qFwd | .qInv | .packWrap _ | .packSats _ | .packSatu _ => badWordAlign s.regs.srcView
  | .unpackU _ | .unpackS _ => badWordAlign s.regs.dstView

/-- The `E_BUS` check of a command. -/
def busCheck (i : Instr) (s : State) : Bool :=
  match i with
  | .nop => false
  | _ => badFootprint s.regs s.memSize i

/-- The `E_ALIAS` check of a command. -/
def aliasCheck (i : Instr) (s : State) : Bool :=
  match i with
  | .nop | .wt1Fwd | .wt1Inv | .wt2Fwd | .wt2Inv | .qFwd | .qInv => false
  | .lzwEnc | .lzwDec | .packWrap _ | .packSats _ | .packSatu _ | .unpackU _ | .unpackS _ => badAliasing s.regs i

/-- The check phase reports the first of the five (R303); a check that a command does not have never fails. -/
theorem firstError_checksOf (i : Instr) (s : State) : firstError (checksOf i s) =
    firstError [(cfgCheck i s, .cfg), (geomCheck i s, .geom), (alignCheck i s, .align), (busCheck i s, .bus),
      (aliasCheck i s, .aliasing)] := by
  cases i <;> rfl

/-! ## Each check is the condition of its rule -/

/-- The tags of two words are equal just when their tag bits are. -/
theorem tag_beq_iff : ∀ b < 2, ∀ p < 2,
    ((if b = 0 then StepTag.predict else .update) == if p = 0 then .predict else .update) = true ↔ b = p := by
  decide

/-- A step descriptor that may stand at its place (R203). -/
theorem Regs.stepOk_eq_true {r : Regs} (k : Fin 8) : r.stepOk k = true ↔
    1 ≤ bitsOf r.stepCtrl[k] 3 1 ∧ bitsOf r.stepCtrl[k] 3 1 ≤ 4 ∧ bitsOf r.stepCtrl[k] 0 0 = k.val % 2 := by
  have hword : r.stepCtrlAt k = r.stepCtrl[k] := by simp [Regs.stepCtrlAt]
  have htag := tag_beq_iff (bitsOf r.stepCtrl[k] 0 0) (Nat.mod_lt _ (by decide)) (k.val % 2) (Nat.mod_lt _ (by decide))
  rw [Regs.stepOk, hword, Bool.and_eq_true, Bool.and_eq_true, decide_eq_true_eq, decide_eq_true_eq, and_assoc]
  exact and_congr_right fun _ => and_congr_right fun _ => htag

theorem Regs.customOk_eq_true {r : Regs} : r.customOk = true ↔ CustomListOk r := by
  simp only [Regs.customOk, CustomListOk, Bool.and_eq_true, decide_eq_true_eq, List.all_eq_true, List.mem_range, and_assoc]
  refine and_congr_right fun _ => and_congr_right fun hle => and_congr_left' ?_
  constructor
  · exact fun h k hk => (Regs.stepOk_eq_true k).mp (h k hk)
  · exact fun h k hk => (Regs.stepOk_eq_true ⟨k, by omega⟩).mpr (h ⟨k, by omega⟩ hk)

theorem badKind_eq_true {r : Regs} : badKind r = true ↔ 4 ≤ r.kind ∨ (r.kind = 3 ∧ ¬CustomListOk r) := by
  simp [badKind, ← Regs.customOk_eq_true]

theorem badWordGeom_eq_true {v : View} :
    badWordGeom v = true ↔ ViewGeomBad v.width v.height v.stride (4 * v.width) := by
  rw [← not_iff_not, Bool.not_eq_true, badWordGeom_eq_false]

theorem badByteGeom_eq_true {v : View} : badByteGeom v = true ↔ ViewGeomBad v.width v.height v.stride v.width := by
  rw [← not_iff_not, Bool.not_eq_true, badByteGeom_eq_false]

theorem badWordAlign_eq_true {v : View} :
    badWordAlign v = true ↔ v.base % 4 ≠ 0 ∨ (2 ≤ v.height ∧ v.stride % 4 ≠ 0) := by
  rw [← not_iff_not, Bool.not_eq_true, badWordAlign_eq_false]

theorem cfgCheck_eq_true {i : Instr} {s : State} : cfgCheck i s = true ↔ CfgBad i s := by
  cases i with
  | nop | packWrap o | packSats o | packSatu o | unpackU o | unpackS o => simp [cfgCheck, CfgBad]
  | lzwEnc | lzwDec => simp [cfgCheck, CfgBad, badMaxWidth]
  | wt1Fwd | wt1Inv | wt2Fwd | wt2Inv => exact badKind_eq_true
  | qFwd | qInv => exact beq_iff_eq

theorem geomCheck_eq_true {i : Instr} {s : State} : geomCheck i s = true ↔ GeomBad i s := by
  have hboth : ∀ words bytes : View, (badWordGeom words || (Order.raster == .raster && badByteGeom bytes)) = true ↔
      ViewGeomBad words.width words.height words.stride (4 * words.width) ∨
        ViewGeomBad bytes.width bytes.height bytes.stride bytes.width := fun words bytes => by
    rw [Bool.or_eq_true, badWordGeom_eq_true]
    exact or_congr_right badByteGeom_eq_true
  have hwords : ∀ words bytes : View, (badWordGeom words || (Order.band == .raster && badByteGeom bytes)) = true ↔
      ViewGeomBad words.width words.height words.stride (4 * words.width) := fun words bytes => by
    rw [show (Order.band == .raster) = false from rfl, Bool.false_and, Bool.or_false, badWordGeom_eq_true]
  cases i with
  | nop | lzwEnc | lzwDec => simp [geomCheck, GeomBad]
  | wt1Fwd | wt1Inv => simp [geomCheck, GeomBad, badVectorGeom]
  | wt2Fwd | wt2Inv | qFwd | qInv => exact badWordGeom_eq_true
  | packWrap o | packSats o | packSatu o =>
    cases o with
    | raster => exact hboth s.regs.srcView s.regs.dstView
    | band => exact hwords s.regs.srcView s.regs.dstView
  | unpackU o | unpackS o =>
    cases o with
    | raster => exact hboth s.regs.dstView s.regs.srcView
    | band => exact hwords s.regs.dstView s.regs.srcView

theorem alignCheck_eq_true {i : Instr} {s : State} : alignCheck i s = true ↔ AlignBad i s := by
  cases i with
  | nop | lzwEnc | lzwDec => simp [alignCheck, AlignBad]
  | wt1Fwd | wt1Inv => simp [alignCheck, AlignBad, badVectorAlign]
  | wt2Fwd | wt2Inv | qFwd | qInv | packWrap o | packSats o | packSatu o | unpackU o | unpackS o =>
    exact badWordAlign_eq_true

/-- A command that passes its geometry check has the intervals of R76. -/
theorem intervals_of_geom {i : Instr} {s : State} (h : ¬GeomBad i s) :
    readInterval s.regs i = byteRange (readBase i s.regs) (readLength i s.regs) ∧
      writeInterval s.regs i = byteRange (writeBase i s.regs) (writeLength i s.regs) := by
  have hview : ∀ {stride rowBytes : Nat}, ¬ViewGeomBad s.regs.width s.regs.height stride rowBytes →
      readInterval s.regs i = byteRange (readBase i s.regs) (readLength i s.regs) ∧
        writeInterval s.regs i = byteRange (writeBase i s.regs) (writeLength i s.regs) := by
    intro stride rowBytes hgeom
    obtain ⟨hwidth, hheight, -⟩ : s.regs.width ≠ 0 ∧ s.regs.height ≠ 0 ∧ _ := by
      simpa only [ViewGeomBad, not_or] using hgeom
    exact intervals_eq_byteRange hwidth hheight i
  cases i with
  | nop | lzwEnc | lzwDec => exact ⟨rfl, rfl⟩
  | wt1Fwd | wt1Inv =>
    have hrange := Regs.vectorInterval_eq_byteRange (not_or.mp h).1
    exact ⟨hrange, hrange⟩
  | wt2Fwd | wt2Inv | qFwd | qInv => exact hview h
  | packWrap o | packSats o | packSatu o | unpackU o | unpackS o =>
    cases o with
    | raster => exact hview (not_or.mp h).1
    | band => exact hview h

theorem busCheck_eq_true {i : Instr} {s : State} (hgeom : ¬GeomBad i s) : busCheck i s = true ↔ BusBad i s := by
  obtain ⟨hread, hwrite⟩ := intervals_of_geom hgeom
  have hfootprint : badFootprint s.regs s.memSize i = true ↔ BusBad i s := by
    rw [badFootprint, hread, hwrite, Bool.not_eq_true', ← Bool.not_eq_true, Bool.and_eq_true, inMemory_byteRange,
      inMemory_byteRange, ← not_or, not_not, BusBad]
  cases i with
  | nop => simp [busCheck, BusBad, RangeBad, readLength, writeLength]
  | _ => exact hfootprint

theorem aliasCheck_eq_true {i : Instr} {s : State} (hgeom : ¬GeomBad i s) :
    aliasCheck i s = true ↔ AliasBad i s := by
  obtain ⟨hread, hwrite⟩ := intervals_of_geom hgeom
  have haliasing : badAliasing s.regs i = true ↔
      ∃ a, (readBase i s.regs ≤ a ∧ a < readBase i s.regs + readLength i s.regs) ∧
        (writeBase i s.regs ≤ a ∧ a < writeBase i s.regs + writeLength i s.regs) := by
    rw [badAliasing, hread, hwrite, overlaps_byteRange]
  cases i with
  | nop | wt1Fwd | wt1Inv | wt2Fwd | wt2Inv | qFwd | qInv => simp [aliasCheck, AliasBad]
  | lzwEnc | lzwDec | packWrap o | packSats o | packSatu o | unpackU o | unpackS o => exact haliasing

/-! ## The first failing check -/

/-- The check phase reports the first failing check of the rules (R303). -/
theorem firstError_of_firstCheckError {i : Instr} {s : State} {e : ErrCode} (h : FirstCheckError i s e) :
    firstError (checksOf i s) = some e := by
  have hpass : ∀ {b : Bool} {P : Prop}, (b = true ↔ P) → ¬P → b = false := fun hiff hP =>
    Bool.eq_false_iff.mpr (mt hiff.mp hP)
  rw [firstError_checksOf]
  obtain ⟨rfl, hbad⟩ | ⟨rfl, hcfg, hbad⟩ | ⟨rfl, hcfg, hgeom, hbad⟩ | ⟨rfl, hcfg, hgeom, halign, hbad⟩ |
    ⟨rfl, hcfg, hgeom, halign, hbus, hbad⟩ := h
  · simp [firstError, cfgCheck_eq_true.mpr hbad]
  · simp [firstError, hpass cfgCheck_eq_true hcfg, geomCheck_eq_true.mpr hbad]
  · simp [firstError, hpass cfgCheck_eq_true hcfg, hpass geomCheck_eq_true hgeom, alignCheck_eq_true.mpr hbad]
  · simp [firstError, hpass cfgCheck_eq_true hcfg, hpass geomCheck_eq_true hgeom, hpass alignCheck_eq_true halign,
      (busCheck_eq_true hgeom).mpr hbad]
  · simp [firstError, hpass cfgCheck_eq_true hcfg, hpass geomCheck_eq_true hgeom, hpass alignCheck_eq_true halign,
      hpass (busCheck_eq_true hgeom) hbus, (aliasCheck_eq_true hgeom).mpr hbad]

/-- Settles O24: the model's checks are the conditions of the rules, in the same order, and a check-phase error frees no
byte. -/
theorem firstFailingCheckIsReported : Obligations.FirstFailingCheckIsReported := by
  intro i s e hfirst
  have hexec : exec i s = .next (s.complete (failWith s.regs i e)) := by
    rw [exec_eq_complete, outcomeOf_eq_checked, checked_of_fail (firstError_of_firstCheckError hfirst)]
  have hphase : e.isExecution = false := by
    obtain ⟨rfl, -⟩ | ⟨rfl, -⟩ | ⟨rfl, -⟩ | ⟨rfl, -⟩ | ⟨rfl, -⟩ := hfirst <;> rfl
  obtain ⟨o, hfail, hscratch⟩ := failWith_eq s.regs i e
  rw [hphase] at hscratch
  refine ⟨_, hexec, ?_, s.completedWith_failWith i e⟩
  rw [hfail, State.complete_fail_mem, hscratch]
  rfl

end Sys2Proof.Machine
end

section
/-! The completion step, raced or not (20_memory.md R85; 40_control.md R145; 60_exceptions.md R304, R306). -/

namespace Sys2Proof.Machine

/-! ## A raced completion -/

@[simp] theorem State.completeRaced_run (s : State) : s.completeRaced.run = none := rfl

@[simp] theorem State.completeRaced_latencyLeft (s : State) : s.completeRaced.latencyLeft = 0 := rfl

@[simp] theorem State.completeRaced_raced (s : State) : s.completeRaced.raced = false := rfl

@[simp] theorem State.completeRaced_memSize (s : State) : s.completeRaced.memSize = s.memSize :=
  State.scramble_memSize ..

@[simp] theorem State.completeRaced_result (s : State) : s.completeRaced.result = s.result :=
  State.scramble_result ..

theorem State.completeRaced_mem (s : State) :
    s.completeRaced.mem = (State.scramble { s with draws := s.draws + 1 } s.runningWrites).mem := rfl

theorem State.sameConfig_completeRaced (s : State) : SameConfig s.regs s.completeRaced.regs := by
  simp [State.completeRaced, SameConfig]

/-- A raced command ends with success or with one of the ten errors of R300 (R85; log 9). -/
theorem State.completeRaced_status (s : State) :
    (∃ arith narrow, s.completeRaced.regs.status = s.regs.status.succeed arith narrow) ∨
      ∃ code : BitVec 8, 1 ≤ code.toNat ∧ code.toNat ≤ 10 ∧ s.completeRaced.regs.status = s.regs.status.fail code := by
  have hcode : ∀ k : Fin 10, (BitVec.ofNat 8 (k.val + 1)).toNat = k.val + 1 := fun k => by
    rw [BitVec.toNat_ofNat]
    omega
  simp only [State.completeRaced, State.scramble_regs]
  split
  · exact .inl ⟨_, _, rfl⟩
  · refine .inr ⟨_, ?_, ?_, rfl⟩ <;> rw [hcode] <;> omega

/-- A raced completion changes only bytes of the write interval in flight (R85). -/
theorem State.completeRaced_read_outside {s : State} {a : Nat} (ha : s.runningWrites.contains a = false) :
    s.completeRaced.mem.read a = s.mem.read a :=
  State.scramble_read_outside _ _ (Interval.contains_eq_false.mp ha)

/-! ## Every completion -/

theorem ErrCode.code_range (e : ErrCode) : 1 ≤ e.code.toNat ∧ e.code.toNat ≤ 10 := by
  cases e <;> decide

theorem State.finish_cases (s : State) : s.finish = s.completeRaced ∨ s.finish = s.complete s.result := by
  unfold State.finish
  split
  · exact .inl rfl
  · exact .inr rfl

/-- A completion leaves `STATUS` as a success or one of the ten errors of R300 does. -/
theorem State.finish_status_range (s : State) :
    (∃ arith narrow, s.finish.regs.status = s.regs.status.succeed arith narrow) ∨
      ∃ code : BitVec 8, 1 ≤ code.toNat ∧ code.toNat ≤ 10 ∧ s.finish.regs.status = s.regs.status.fail code := by
  obtain h | h := s.finish_cases <;> rw [h]
  · exact s.completeRaced_status
  · cases s.result with
    | ok writes o => exact .inl ⟨_, _, rfl⟩
    | fail e o =>
      obtain ⟨hlo, hhi⟩ := e.code_range
      exact .inr ⟨e.code, hlo, hhi, by simp⟩

theorem State.sameConfig_finish (s : State) : SameConfig s.regs s.finish.regs := by
  obtain h | h := s.finish_cases <;> rw [h]
  · exact s.sameConfig_completeRaced
  · cases s.result with
    | ok writes o => exact s.regs.sameConfig_succeed o
    | fail e o => exact (s.complete_fail_regs e o) ▸ s.regs.sameConfig_fail e o

/-- A completion leaves the engine idle, and the outcome it delivered. -/
theorem State.finish_idle (s : State) :
    s.finish.run = none ∧ s.finish.latencyLeft = 0 ∧ s.finish.raced = false ∧ s.finish.memSize = s.memSize ∧
      s.finish.result = s.result := by
  obtain h | h := s.finish_cases <;> rw [h]
  · exact ⟨rfl, rfl, rfl, s.completeRaced_memSize, s.completeRaced_result⟩
  · cases s.result with
    | ok writes o => exact ⟨rfl, rfl, rfl, rfl, rfl⟩
    | fail e o => exact ⟨rfl, rfl, rfl, State.complete_fail_memSize .., rfl⟩

/-- A completion keeps memory canonical and within `MEM_SIZE`. -/
theorem State.Inv.finish_mem {s : State} (h : s.Inv) :
    s.finish.mem.wf ∧ ∀ c ∈ s.finish.mem, c.1 < s.memSize := by
  obtain hfinish | hfinish := s.finish_cases <;> rw [hfinish]
  · exact ⟨State.scramble_wf (s := { s with draws := s.draws + 1 }) h.memWf _,
      State.scramble_bound (s := { s with draws := s.draws + 1 }) h.memBound _⟩
  · refine ⟨State.complete_wf h.memWf _, ?_⟩
    have hresult := h.resultBound
    cases hres : s.result with
    | ok writes o => exact Memory.bound_writeAll h.memBound writes (hresult writes o hres)
    | fail e o => exact State.scramble_bound h.memBound _

end Sys2Proof.Machine
end

section
/-! Every step keeps the invariant (10_state.md R21, R27, R54; 40_control.md R142; 60_exceptions.md R300). -/

namespace Sys2Proof.Machine

/-! ## The parts of the invariant -/

/-- The reserved register bits are 0 (10_state.md R39, R42, R44 to R46, R48). -/
structure Regs.Reserved (r : Regs) : Prop where
  lzwCfg : r.lzwCfg &&& lzwCfgMask = r.lzwCfg
  wtCfg : r.wtCfg &&& wtCfgMask = r.wtCfg
  qFactor : r.qFactor &&& quantMask = r.qFactor
  qAlpha : r.qAlpha &&& quantMask = r.qAlpha
  qBeta : r.qBeta &&& quantMask = r.qBeta
  stepCtrl : ∀ k : Fin 8, r.stepCtrl[k] &&& stepCtrlMask = r.stepCtrl[k]

theorem Regs.reserved_reset : Regs.reset.Reserved := ⟨rfl, rfl, rfl, rfl, rfl, Regs.reset_stepCtrl_reserved⟩

theorem State.Inv.reserved {s : State} (h : s.Inv) : s.regs.Reserved :=
  ⟨h.lzwCfgReserved, h.wtCfgReserved, h.qFactorReserved, h.qAlphaReserved, h.qBetaReserved, h.stepCtrlReserved⟩

theorem Regs.Reserved.of_sameConfig {r r' : Regs} (h : r.Reserved) (hconfig : SameConfig r r') : r'.Reserved := by
  obtain ⟨-, -, -, -, -, -, -, -, -, -, hlzwCfg, hwtCfg, -, hqFactor, hqAlpha, hqBeta, hstepCtrl, -⟩ := hconfig
  obtain ⟨h1, h2, h3, h4, h5, h6⟩ := h
  rw [← hlzwCfg] at h1
  rw [← hwtCfg] at h2
  rw [← hqFactor] at h3
  rw [← hqAlpha] at h4
  rw [← hqBeta] at h5
  rw [← hstepCtrl] at h6
  exact ⟨h1, h2, h3, h4, h5, h6⟩

/-- An idle engine meets the invariant when it has the memory and the registers for it. -/
theorem State.Inv.of_idle {s t : State} (h : s.Inv) (hsize : t.memSize = s.memSize) (hwf : t.mem.wf)
    (hbound : ∀ c ∈ t.mem, c.1 < s.memSize) (hreserved : t.regs.Reserved)
    (hidle : t.run = none ∧ t.latencyLeft = 0 ∧ t.raced = false ∧ t.regs.status.busy = false)
    (hstatus : ¬(t.regs.status.done = true ∧ t.regs.status.err = true) ∧ t.regs.status.errCode.toNat ≤ 10)
    (hresult : ∀ writes outs, t.result = .ok writes outs → ∀ c ∈ writes, c.1 < s.memSize) : t.Inv := by
  obtain ⟨hrun, hleft, hraced, hbusy⟩ := hidle
  exact {
    memSizePos := hsize ▸ h.memSizePos
    memSizeLe := hsize ▸ h.memSizeLe
    memWf := hwf
    memBound := hsize ▸ hbound
    lzwCfgReserved := hreserved.lzwCfg
    wtCfgReserved := hreserved.wtCfg
    qFactorReserved := hreserved.qFactor
    qAlphaReserved := hreserved.qAlpha
    qBetaReserved := hreserved.qBeta
    stepCtrlReserved := hreserved.stepCtrl
    doneErr := hstatus.1
    errCodeRange := hstatus.2
    busyRun := by rw [hbusy, hrun]; rfl
    busyStatus := fun hbusy' => absurd (hbusy.symm.trans hbusy') Bool.false_ne_true
    runCmd := fun w hw => nomatch hrun.symm.trans hw
    idle := fun _ => ⟨hraced, hleft⟩
    resultBound := hsize ▸ hresult }

/-! ## Completions, resets and acceptance -/

theorem State.Inv.finish {s : State} (h : s.Inv) (hrun : s.run.isSome = true) : s.finish.Inv := by
  obtain ⟨hnone, hleft, hraced, hsize, hresult⟩ := s.finish_idle
  obtain ⟨hdone, herr, -, -⟩ := h.busyStatus (h.busyRun.trans hrun)
  have hstatus : s.finish.regs.status.busy = false ∧
      ¬(s.finish.regs.status.done = true ∧ s.finish.regs.status.err = true) ∧
      s.finish.regs.status.errCode.toNat ≤ 10 := by
    obtain ⟨arith, narrow, hst⟩ | ⟨code, -, hcode, hst⟩ := s.finish_status_range <;> rw [hst]
    · exact ⟨rfl, by simp [herr], Nat.zero_le 10⟩
    · exact ⟨rfl, by simp [hdone], hcode⟩
  exact h.of_idle hsize h.finish_mem.1 h.finish_mem.2 (h.reserved.of_sameConfig s.sameConfig_finish)
    ⟨hnone, hleft, hraced, hstatus.1⟩ hstatus.2 (hresult ▸ h.resultBound)

theorem State.Inv.resetEngine {s : State} (h : s.Inv) : s.resetEngine.Inv := by
  refine h.of_idle s.resetEngine_memSize (State.scramble_wf h.memWf _) (State.scramble_bound h.memBound _)
    Regs.reserved_reset ⟨rfl, rfl, rfl, rfl⟩ ⟨nofun, Nat.zero_le 10⟩ ?_
  intro writes outs hresult c hc
  obtain ⟨rfl, -⟩ := CmdResult.ok.inj (s.resetEngine_result.symm.trans hresult)
  cases hc

/-- The bytes a successful command writes exist: they lie in its write interval, which the check phase found in
memory (20_memory.md R76). -/
theorem outcomeOf_bound {i : Instr} {s : State} {writes : List Host.Cell} {o : Outs} (h : outcomeOf i s = .ok writes o) :
    ∀ c ∈ writes, c.1 < s.memSize := by
  by_cases hnop : i = .nop
  · subst hnop
    cases h
    exact nofun
  have hinside : ∀ c ∈ writes, (writeInterval s.regs i).contains c.1 = true := by
    have hfits := outcomeOf_fits i s
    rw [h] at hfits
    generalize hres : CmdResult.ok writes o = res at hfits
    cases hfits with
    | ok hwrites => cases hres; exact hwrites
    | error e => cases hres
  rw [outcomeOf_eq_checked] at h
  obtain ⟨e, -, hfail⟩ | ⟨hpass, -⟩ := checked_cases s.regs i (checksOf i s) (runOf i s)
  · cases hfail.symm.trans h
  have hfootprint : badFootprint s.regs s.memSize i = false := hpass _ (badFootprint_mem_checksOf hnop s)
  have hmemory : (writeInterval s.regs i).inMemory s.memSize = true := by
    simp only [badFootprint, Bool.not_eq_false', Bool.and_eq_true] at hfootprint
    exact hfootprint.2
  intro c hc
  obtain ⟨hlo, hhi⟩ := Interval.contains_eq_true.mp (hinside c hc)
  simp only [Interval.inMemory, Bool.or_eq_true, decide_eq_true_eq, beq_iff_eq] at hmemory
  omega

theorem wordOutcome_bound {w : Word} {s : State} {writes : List Host.Cell} {o : Outs}
    (h : wordOutcome w s = .ok writes o) : ∀ c ∈ writes, c.1 < s.memSize := by
  cases hdecode : decode w with
  | ok i => exact outcomeOf_bound (wordOutcome_of_legal hdecode s ▸ h)
  | error e => cases (wordOutcome_of_illegal hdecode s).symm.trans h

theorem State.Inv.started {s : State} (h : s.Inv) (w : Word) : (s.started w).Inv := by
  have hsize : (s.started w).memSize = s.memSize := s.accept_memSize w
  have hmem : (s.started w).mem = s.mem := s.accept_mem w
  have hregs : (s.started w).regs = { s.regs with cmd := w, status := s.regs.status.accept, outLen := 0 } :=
    s.accept_regs w
  have hreserved := h.reserved
  exact {
    memSizePos := hsize ▸ h.memSizePos
    memSizeLe := hsize ▸ h.memSizeLe
    memWf := hmem ▸ h.memWf
    memBound := by rw [hmem, hsize]; exact h.memBound
    lzwCfgReserved := by rw [hregs]; exact hreserved.lzwCfg
    wtCfgReserved := by rw [hregs]; exact hreserved.wtCfg
    qFactorReserved := by rw [hregs]; exact hreserved.qFactor
    qAlphaReserved := by rw [hregs]; exact hreserved.qAlpha
    qBetaReserved := by rw [hregs]; exact hreserved.qBeta
    stepCtrlReserved := by rw [hregs]; exact hreserved.stepCtrl
    doneErr := by rw [hregs]; exact nofun
    errCodeRange := by rw [hregs]; exact Nat.zero_le 10
    busyRun := by rw [hregs]; rfl
    busyStatus := by rw [hregs]; exact fun _ => ⟨rfl, rfl, rfl, rfl⟩
    runCmd := by
      intro v hv
      cases hv
      rw [hregs]
      exact ⟨rfl, s.one_le_drawLatency⟩
    idle := nofun
    resultBound := fun writes outs hresult => wordOutcome_bound (s := s.accept w) hresult }

/-! ## The other operations of the host -/

theorem masked_twice (v m : Word) : v &&& m &&& m = v &&& m := by
  rw [BitVec.and_assoc, BitVec.and_self]

/-- A register whose reserved bits are 0 keeps them 0 when it is written with its mask or not at all. -/
theorem masked_ite {c : Prop} [Decidable c] {v m x : Word} (hx : x &&& m = x) :
    (if c then v &&& m else x) &&& m = if c then v &&& m else x := by
  split
  · exact masked_twice v m
  · exact hx

theorem Regs.stepCtrl_storeConfig_reserved {r : Regs} {j : Fin 8} (h : r.stepCtrl[j] &&& stepCtrlMask = r.stepCtrl[j])
    (reg : Reg) (v : Word) :
    (r.storeConfig reg v).stepCtrl[j] &&& stepCtrlMask = (r.storeConfig reg v).stepCtrl[j] := by
  by_cases heq : .stepCtrl j = reg
  · rw [← heq]
    have hj : (r.storeConfig (.stepCtrl j) v).stepCtrl[j] = v &&& stepCtrlMask := Vector.getElem_set_self j.isLt
    rw [hj, masked_twice]
  · rw [Regs.stepCtrl_storeConfig_other heq, h]

/-- A configuration write drops the reserved bits (40_control.md R147). -/
theorem State.Inv.storeConfig {s : State} (h : s.Inv) (reg : Reg) (v : Word) :
    State.Inv { s with regs := s.regs.storeConfig reg v } := by
  have hstep := fun j => Regs.stepCtrl_storeConfig_reserved (h.stepCtrlReserved j) reg v
  rw [Regs.storeConfig_eq]
  exact { h with
    lzwCfgReserved := masked_ite h.lzwCfgReserved
    wtCfgReserved := masked_ite h.wtCfgReserved
    qFactorReserved := masked_ite h.qFactorReserved
    qAlphaReserved := masked_ite h.qAlphaReserved
    qBetaReserved := masked_ite h.qBetaReserved
    stepCtrlReserved := hstep }

/-- An operation of the host keeps the invariant. -/
theorem HostEffect.inv {s t : State} (heffect : HostEffect s t) (h : s.Inv) : t.Inv := by
  cases heffect with
  | observe data draws q hd hq => exact { h with }
  | memWrite addr b ha =>
    refine { h with memWf := Memory.wf_write h.memWf addr b, memBound := fun c hc => ?_, idle := fun hrun => ?_ }
    · obtain hc | rfl := Memory.mem_write hc
      · exact h.memBound c hc
      · exact ha
    · have hreads : s.runningReads.contains addr = false :=
        State.runningReads_contains_eq_false fun w i hw => nomatch hrun.symm.trans hw
      have hwrites : s.runningWrites.contains addr = false :=
        State.runningWrites_contains_eq_false fun w i hw => nomatch hrun.symm.trans hw
      exact ⟨by rw [hreads, hwrites, (h.idle hrun).1]; rfl, (h.idle hrun).2⟩
  | config reg v hb => exact h.storeConfig reg v
  | clear v =>
    refine { h with doneErr := fun hboth => h.doneErr ?_, busyStatus := fun hbusy => ?_ }
    · exact ⟨Bool.and_elim_left hboth.1, Bool.and_elim_left hboth.2⟩
    · obtain ⟨hdone, herr, hcode, hlen⟩ := h.busyStatus hbusy
      exact ⟨by simp [hdone], by simp [herr], hcode, hlen⟩
  | enable d e => exact { h with }
  | overrun hb => exact { h with }
  | reset => exact h.resetEngine
  | start w hb => exact h.started w

/-- One step of the latency passed keeps the invariant while more are left. -/
theorem State.Inv.tick {s : State} (h : s.Inv) (hrun : s.run.isSome = true) (hleft : 1 < s.latencyLeft) :
    s.tick.Inv :=
  { h with
    runCmd := fun w hw => ⟨(h.runCmd w hw).1, Nat.le_sub_of_add_le hleft⟩
    idle := fun hnone => absurd hrun (by rw [show s.run = none from hnone]; exact Bool.false_ne_true) }

/-- Settles O3: a step completes the command in flight, or counts its latency down and lets the host move; each of these
keeps the invariant. -/
theorem everyStepKeepsInvariant : Obligations.EveryStepKeepsInvariant := by
  intro s t h hstep
  obtain ⟨⟨w, hrun⟩, -, rfl⟩ | ⟨s', hs', hmove⟩ := step_cases hstep
  · exact h.finish (by rw [hrun]; rfl)
  have hs' : s'.Inv := by
    obtain ⟨-, rfl⟩ | ⟨⟨w, hrun⟩, hleft, rfl⟩ := hs'
    · exact h
    · exact h.tick (by rw [hrun]; rfl) hleft
  obtain ⟨-, rfl⟩ | ⟨op, rest, -, hhost⟩ := hmove
  · exact hs'
  · exact (State.hostOp_effect hhost).inv { hs' with }

end Sys2Proof.Machine
end

section
/-! What one step does to the engine, by the operation it takes: `BUSY`, the configuration of a running command, `irq`
and a raced command (20_memory.md R85, R88; 40_control.md R140, R142, R149; 60_exceptions.md R308). -/

namespace Sys2Proof.Machine

/-! ## The operation of the host -/

/-- `t` is `s` but for memory, its free values and what belongs to the host: the registers, the command in flight and
its outcome are as before. -/
def SameEngine (s t : State) : Prop :=
  t = { s with
    mem := t.mem, raced := t.raced, draws := t.draws, hostQ := t.hostQ, hostData := t.hostData }

/-- What an operation of the host is, when it gives a next state: it leaves the engine as it is, it is the reset input, or
it writes the register at a mapped offset. -/
theorem State.hostOp_cases {s t : State} {op : HostOp} (h : s.hostOp op = .next t) :
    SameEngine s t ∨ (op = .hwReset ∧ t = s.resetEngine) ∨
      ∃ offset reg v, WritesReg s op offset v ∧ Reg.ofOffset offset = some reg ∧ s.writeReg reg v = .next t := by
  have hread : ∀ {offset size}, s.hostRegRead offset size = .next t → SameEngine s t := fun hread => by
    cases decodedAccess_next hread
    rfl
  have hwrite : ∀ {offset size : Nat} {v : Word}, (size = 4 → WritesReg s op offset v) →
      s.hostRegWrite offset size v = .next t → SameEngine s t ∨ (op = .hwReset ∧ t = s.resetEngine) ∨
        ∃ offset reg v, WritesReg s op offset v ∧ Reg.ofOffset offset = some reg ∧ s.writeReg reg v = .next t := by
    intro offset size v hop hnext
    have hsize := size_of_decodedAccess_next hnext
    have hact := decodedAccess_next hnext
    split at hact
    · next reg hreg => exact .inr (.inr ⟨offset, reg, v, hop hsize, hreg, hact⟩)
    · cases hact
      exact .inl rfl
  cases op with
  | regRead offset size => exact .inl (hread h)
  | regWrite offset size v => exact hwrite (fun hsize => .inl (hsize ▸ rfl)) h
  | busRead addr size => exact .inl (hread (State.atBlock_next (act := (s.hostRegRead · size)) h).2)
  | busWrite addr size v =>
    obtain ⟨hbase, hnext⟩ := State.atBlock_next (act := (s.hostRegWrite · size v)) h
    exact hwrite (fun hsize => .inr (by rw [hsize, Nat.add_sub_cancel' hbase])) hnext
  | memRead addr =>
    change s.hostMemRead addr = .next t at h
    unfold State.hostMemRead at h
    split at h
    · cases h
    · split at h <;> cases h <;> exact .inl rfl
  | memWrite addr b =>
    change s.hostMemWrite addr b = .next t at h
    unfold State.hostMemWrite at h
    split at h <;> cases h
    exact .inl rfl
  | poll | idle => cases h; exact .inl rfl
  | hwReset => cases h; exact .inr (.inl ⟨rfl, rfl⟩)

/-- The state in which the host's operation of a step from `s` to `t` is applied: a step of the latency has passed, and
the queue is the one the step leaves. -/
def State.atHost (s t : State) : State := { s with latencyLeft := s.latencyLeft - 1, hostQ := t.hostQ }

/-- Everything a step of a machine that meets the invariant can do: complete the command in flight, leave the engine as it
is, reset it, or take a write of a mapped register. -/
theorem step_engine_cases {s t : State} (hinv : s.Inv) (h : step s = .next t) :
    (s.run.isSome = true ∧ s.latencyLeft ≤ 1 ∧ t = s.finish) ∨
    ((s.run.isSome = true → 1 < s.latencyLeft) ∧
      (SameEngine (s.atHost t) t ∨ ∃ op, TookOp s t op ∧
        ((op = .hwReset ∧ t = (s.atHost t).resetEngine) ∨
          ∃ offset reg v, WritesReg s op offset v ∧ Reg.ofOffset offset = some reg ∧
            (s.atHost t).writeReg reg v = .next t))) := by
  obtain ⟨⟨w, hrun⟩, hleft, rfl⟩ | ⟨s', hs', hmove⟩ := step_cases h
  · exact .inl ⟨by rw [hrun]; rfl, hleft, rfl⟩
  obtain ⟨hstate, hleft⟩ : s' = { s with latencyLeft := s.latencyLeft - 1 } ∧
      (s.run.isSome = true → 1 < s.latencyLeft) := by
    obtain ⟨hnone, rfl⟩ | ⟨-, hleft, rfl⟩ := hs'
    · refine ⟨?_, fun hsome => absurd hsome (by rw [hnone]; exact Bool.false_ne_true)⟩
      have hzero := (hinv.idle hnone).2
      obtain ⟨_, _, _, left, _⟩ := s'
      cases hzero
      rfl
    · exact ⟨rfl, fun _ => hleft⟩
  subst hstate
  refine .inr ⟨hleft, ?_⟩
  obtain ⟨hnil, rfl⟩ | ⟨op, rest, hqueue, hhost⟩ := hmove
  · exact .inl rfl
  by_cases hpoll : op = .poll
  · subst hpoll
    cases hhost
    exact .inl rfl
  have hrest : t.hostQ = rest := State.hostOp_hostQ hhost hpoll
  have htook : TookOp s t op := hqueue.trans (congrArg _ hrest.symm)
  subst hrest
  obtain hsame | hreset | ⟨offset, reg, v, hop, hreg, hwrite⟩ := State.hostOp_cases hhost
  · exact .inl hsame
  · exact .inr ⟨op, htook, .inl hreset⟩
  · exact .inr ⟨op, htook, .inr ⟨offset, reg, v, hop, hreg, hwrite⟩⟩

/-- A write of `CTRL` resets the engine or does nothing (R26, R341). -/
theorem State.writeReg_ctrl_cases {s t : State} {v : Word} (h : s.writeReg .ctrl v = .next t) :
    (v.getLsbD 0 = true ∧ t = s.resetEngine) ∨ t = s := by
  rw [State.writeReg_ctrl] at h
  split at h
  · next hsrst => cases h; exact .inl ⟨hsrst, rfl⟩
  · cases h; exact .inr rfl

/-- The registers, by what a write does. -/
theorem Reg.write_cases (reg : Reg) : reg = .ctrl ∨ reg = .cmd ∨ reg = .status ∨ reg = .irqEn ∨ reg ∈ readOnlyRegs ∨
    (reg ≠ .irqEn ∧ (regMask reg).isSome) := by
  cases reg with
  | ctrl => exact .inl rfl
  | cmd => exact .inr (.inl rfl)
  | status => exact .inr (.inr (.inl rfl))
  | irqEn => exact .inr (.inr (.inr (.inl rfl)))
  | id | version | outLen | lzwNext | lzwWidth | levels => exact .inr (.inr (.inr (.inr (.inl (by decide)))))
  | srcAddr | srcLen | srcStride | dstAddr | dstCap | dstStride | geom | lzwCfg | wtCfg | wtScale | qFactor | qAlpha
  | qBeta | stepCtrl k | stepCoef k => exact .inr (.inr (.inr (.inr (.inr ⟨nofun, rfl⟩))))

/-- An idle engine performs the action. -/
theorem State.whenIdle_of_idle {s : State} (hidle : s.regs.status.busy = false)
    (act : Host.Outcome State Fault Refusal) : s.whenIdle act = act :=
  if_neg (by rw [hidle]; exact Bool.false_ne_true)

/-! ## A busy engine -/

/-- A write to a busy engine resets it, or changes at most `STATUS` (`BUSY` apart) and the interrupt enables (R149). -/
theorem State.writeReg_of_busy {s t : State} {reg : Reg} {v : Word} (hbusy : s.regs.status.busy = true)
    (h : s.writeReg reg v = .next t) : (reg = .ctrl ∧ v.getLsbD 0 = true ∧ t = s.resetEngine) ∨
      (t.regs.status.busy = true ∧ t = { s with regs := { s.regs with
        status := t.regs.status, doneIe := t.regs.doneIe, errIe := t.regs.errIe } }) := by
  have hignored : ∀ {act}, s.whenIdle act = .next t → t.regs.status.busy = true ∧ t = { s with regs := { s.regs with
      status := t.regs.status, doneIe := t.regs.doneIe, errIe := t.regs.errIe } } := fun hact => by
    cases (State.whenIdle_of_busy hbusy _).symm.trans hact
    exact ⟨hbusy, rfl⟩
  obtain rfl | rfl | rfl | rfl | hro | ⟨hirq, hmask⟩ := reg.write_cases
  · obtain ⟨hsrst, hreset⟩ | rfl := State.writeReg_ctrl_cases h
    · exact .inl ⟨rfl, hsrst, hreset⟩
    · exact .inr ⟨hbusy, rfl⟩
  · exact .inr (hignored h)
  · cases h; exact .inr ⟨hbusy, rfl⟩
  · cases h; exact .inr ⟨hbusy, rfl⟩
  · cases (State.writeReg_of_readOnly hro s v).symm.trans h; exact .inr ⟨hbusy, rfl⟩
  · exact .inr (hignored ((State.writeReg_of_config hirq hmask s v).symm.trans h))

/-- A step of a busy engine completes its command, resets it, or leaves it in flight with one step of the latency less and
only `STATUS` and the interrupt enables changed. -/
theorem step_busy_cases {s t : State} (hinv : s.Inv) (h : step s = .next t) (hbusy : s.regs.status.busy = true) :
    (s.latencyLeft ≤ 1 ∧ t = s.finish) ∨ (∃ op, TookOp s t op ∧ IsReset s op ∧ t.regs = Regs.reset) ∨
      (t.regs.status.busy = true ∧
        t.regs = { s.regs with status := t.regs.status, doneIe := t.regs.doneIe, errIe := t.regs.errIe } ∧
        t.run = s.run ∧ t.result = s.result ∧ t.memSize = s.memSize ∧ t.mmioBase = s.mmioBase ∧
        t.latencyLeft + 1 = s.latencyLeft) := by
  have hrun : s.run.isSome = true := hinv.busyRun.symm.trans hbusy
  obtain ⟨-, hleft, rfl⟩ | ⟨hleft, hmove⟩ := step_engine_cases hinv h
  · exact .inl ⟨hleft, rfl⟩
  have hcount : s.latencyLeft - 1 + 1 = s.latencyLeft := Nat.sub_add_cancel (hleft hrun).le
  obtain hsame | ⟨op, htook, ⟨rfl, hreset⟩ | ⟨offset, reg, v, hop, hreg, hwrite⟩⟩ := hmove
  · rw [hsame]
    exact .inr (.inr ⟨hbusy, rfl, rfl, rfl, rfl, rfl, hcount⟩)
  · exact .inr (.inl ⟨_, htook, .inl rfl, hreset ▸ rfl⟩)
  · obtain ⟨rfl, hsrst, hreset⟩ | ⟨hkept, hregs⟩ := State.writeReg_of_busy (s := s.atHost t) hbusy hwrite
    · obtain rfl := Reg.offset_of_ctrl hreg
      exact .inr (.inl ⟨op, htook, .inr ⟨v, hop, hsrst⟩, hreset ▸ rfl⟩)
    · refine .inr (.inr ⟨hkept, ?_⟩)
      rw [hregs]
      exact ⟨rfl, rfl, rfl, rfl, rfl, hcount⟩

/-- Settles O17: a busy step that neither completes nor resets changes no more than `STATUS` and the enables, and a
completion writes result registers only. -/
theorem configurationIsFrozenWhileBusy : Obligations.ConfigurationIsFrozenWhileBusy := by
  intro s t hinv hstep hbusy
  obtain ⟨-, rfl⟩ | ⟨op, htook, hreset, hregs⟩ | ⟨-, hregs, hrun, hresult, hsize, hbase, hleft⟩ :=
    step_busy_cases hinv hstep hbusy
  · have hconfig := s.sameConfig_finish
    have hidle : s.finish.regs.status.busy = false := by
      obtain ⟨arith, narrow, hst⟩ | ⟨code, hst⟩ := s.finish_status <;> rw [hst] <;> rfl
    obtain ⟨hcmd, -, -, hrest⟩ := hconfig
    exact ⟨.inr ⟨hcmd, rfl, rfl, hrest⟩, fun hbusy' => absurd (hidle.symm.trans hbusy') Bool.false_ne_true⟩
  · refine ⟨.inl ⟨op, htook, hreset⟩, fun hbusy' => ?_⟩
    rw [hregs] at hbusy'
    cases hbusy'
  · refine ⟨.inr ?_, fun _ => ⟨hrun, hresult, hsize, hbase, hleft⟩⟩
    rw [hregs]
    exact ⟨rfl, rfl, rfl, rfl, rfl, rfl, rfl, rfl, rfl, rfl, rfl, rfl, rfl, rfl, rfl, rfl, rfl, rfl⟩

/-! ## An idle engine -/

theorem Reg.offset_of_irqEn {offset : Nat} (h : Reg.ofOffset offset = some .irqEn) : offset = 0x010 := by
  simpa [fixedOffsets] using Reg.mem_fixedOffsets_of_ofOffset h nofun nofun

theorem Regs.storeConfig_irq (r : Regs) (reg : Reg) (v : Word) : (r.storeConfig reg v).irq = r.irq := by
  rw [Regs.storeConfig_eq]
  rfl

/-- What a write of a register does to an idle engine. -/
theorem State.writeReg_of_idle {s t : State} {reg : Reg} {v : Word} (hidle : s.regs.status.busy = false)
    (h : s.writeReg reg v = .next t) :
    (reg = .ctrl ∧ v.getLsbD 0 = true ∧ t = s.resetEngine) ∨ (reg = .cmd ∧ t = s.started v) ∨
    (reg = .status ∧ t.regs = { s.regs with status := s.regs.status.writeClear v }) ∨
    (reg = .irqEn ∧ t.regs = { s.regs with doneIe := v.getLsbD 0, errIe := v.getLsbD 1 }) ∨
    (t.regs.status = s.regs.status ∧ t.regs.irq = s.regs.irq) := by
  obtain rfl | rfl | rfl | rfl | hro | ⟨hirq, hmask⟩ := reg.write_cases
  · obtain ⟨hsrst, hreset⟩ | rfl := State.writeReg_ctrl_cases h
    · exact .inl ⟨rfl, hsrst, hreset⟩
    · exact .inr (.inr (.inr (.inr ⟨rfl, rfl⟩)))
  · cases (s.startCommand_eq_started v).symm.trans ((State.whenIdle_of_idle hidle _).symm.trans h)
    exact .inr (.inl ⟨rfl, rfl⟩)
  · cases h; exact .inr (.inr (.inl ⟨rfl, rfl⟩))
  · cases h; exact .inr (.inr (.inr (.inl ⟨rfl, rfl⟩)))
  · cases (State.writeReg_of_readOnly hro s v).symm.trans h; exact .inr (.inr (.inr (.inr ⟨rfl, rfl⟩)))
  · cases (State.whenIdle_of_idle hidle _).symm.trans ((State.writeReg_of_config hirq hmask s v).symm.trans h)
    exact .inr (.inr (.inr (.inr ⟨s.regs.storeConfig_status reg v, s.regs.storeConfig_irq reg v⟩)))

/-- A step of an idle engine leaves `STATUS` and `irq` as they are, or takes a reset, a write of `CMD`, a write of `STATUS`
or a write of `IRQ_EN`. -/
theorem step_idle_cases {s t : State} (hinv : s.Inv) (h : step s = .next t) (hidle : s.regs.status.busy = false) :
    (t.regs.status = s.regs.status ∧ t.regs.irq = s.regs.irq) ∨ ∃ op, TookOp s t op ∧
      ((IsReset s op ∧ t.regs = Regs.reset) ∨
        ∃ v : Word, (WritesReg s op 0x014 v ∧ t.run = some v ∧ t.regs.cmd = v) ∨
          (WritesReg s op 0x00C v ∧ t.regs = { s.regs with status := s.regs.status.writeClear v }) ∨
          (WritesReg s op 0x010 v ∧ t.regs = { s.regs with doneIe := v.getLsbD 0, errIe := v.getLsbD 1 })) := by
  have hrun : s.run.isSome = false := hinv.busyRun.symm.trans hidle
  obtain ⟨hsome, -⟩ | ⟨-, hsame | ⟨op, htook, ⟨rfl, hreset⟩ | ⟨offset, reg, v, hop, hreg, hwrite⟩⟩⟩ :=
    step_engine_cases hinv h
  · exact absurd (hrun.symm.trans hsome) Bool.false_ne_true
  · rw [hsame]
    exact .inl ⟨rfl, rfl⟩
  · exact .inr ⟨_, htook, .inl ⟨.inl rfl, hreset ▸ rfl⟩⟩
  obtain ⟨rfl, hsrst, hreset⟩ | ⟨rfl, hstart⟩ | ⟨rfl, hregs⟩ | ⟨rfl, hregs⟩ | hkept :=
    State.writeReg_of_idle (s := s.atHost t) hidle hwrite
  · obtain rfl := Reg.offset_of_ctrl hreg
    exact .inr ⟨op, htook, .inl ⟨.inr ⟨v, hop, hsrst⟩, hreset ▸ rfl⟩⟩
  · obtain rfl := Reg.offset_of_cmd hreg
    have hcmd : t.regs.cmd = v := by
      rw [hstart]
      exact congrArg Regs.cmd (State.accept_regs _ v)
    exact .inr ⟨op, htook, .inr ⟨v, .inl ⟨hop, hstart ▸ rfl, hcmd⟩⟩⟩
  · obtain rfl := Reg.offset_of_status hreg
    exact .inr ⟨op, htook, .inr ⟨v, .inr (.inl ⟨hop, hregs⟩)⟩⟩
  · obtain rfl := Reg.offset_of_irqEn hreg
    exact .inr ⟨op, htook, .inr ⟨v, .inr (.inr ⟨hop, hregs⟩)⟩⟩
  · exact .inl hkept

/-- Settles O16: of the writes an idle engine takes only that of `CMD` sets `BUSY`, and a busy step that clears it is a
completion or a reset. -/
theorem busyChangesOnlyByCommands : Obligations.BusyChangesOnlyByCommands := by
  intro s t hinv hstep
  refine ⟨fun hidle hrise => ?rises, fun hbusy hfall => ?falls⟩
  case rises =>
    obtain ⟨hst, -⟩ | ⟨op, htook, ⟨-, hregs⟩ | ⟨v, ⟨hop, hrun, hcmd⟩ | ⟨-, hregs⟩ | ⟨-, hregs⟩⟩⟩ :=
      step_idle_cases hinv hstep hidle
    · rw [hst, hidle] at hrise; cases hrise
    · rw [hregs] at hrise; cases hrise
    · exact ⟨op, v, htook, hop, hrun, hcmd⟩
    · rw [hregs] at hrise; exact absurd (hidle.symm.trans hrise) Bool.false_ne_true
    · rw [hregs] at hrise; exact absurd (hidle.symm.trans hrise) Bool.false_ne_true
  case falls =>
    obtain ⟨hleft, rfl⟩ | hreset | ⟨hkept, -⟩ := step_busy_cases hinv hstep hbusy
    · refine .inl ⟨hleft, rfl, ?_⟩
      obtain ⟨arith, narrow, hst⟩ | ⟨code, hst⟩ := s.finish_status <;> rw [hst]
      · exact .inl rfl
      · exact .inr rfl
    · exact .inr hreset
    · exact absurd (hkept.symm.trans hfall) Bool.noConfusion

/-! ## `irq` -/

theorem Regs.irq_eq_true {r : Regs} :
    r.irq = true ↔ (r.status.done = true ∧ r.doneIe = true) ∨ (r.status.err = true ∧ r.errIe = true) := by
  simp [Regs.irq]

theorem Regs.irq_eq_false {r : Regs} : r.irq = false ↔
    (r.status.done = true → r.doneIe = false) ∧ (r.status.err = true → r.errIe = false) := by
  rw [← Bool.not_eq_true, Regs.irq_eq_true, not_or, not_and, not_and, Bool.not_eq_true, Bool.not_eq_true]

/-- Settles O9: a busy engine shows neither `DONE` nor `ERR`, so a step that lowers `irq` is one of an idle engine, and
lowers it by the flag or the enable that held it high. -/
theorem irqIsALevelTheHostLowers : Obligations.IrqIsALevelTheHostLowers := by
  constructor
  · intro r
    obtain ⟨-, hdone, herr, -⟩ := r.status.read_getLsbD_flags
    obtain ⟨hdoneIe, herrIe, -⟩ := r.read_irqEn
    have hstatus : r.read .status = r.status.read := rfl
    rw [hdoneIe, herrIe, hstatus, hdone, herr]
    rfl
  · intro s t hinv hstep hhigh hlow
    have hcleared : ∀ {flag enable bit : Bool}, flag = true → enable = true →
        ((flag && !bit) = true → enable = false) → bit = true := by decide
    have hholds := Regs.irq_eq_true.mp hhigh
    obtain ⟨hdoneLow, herrLow⟩ := Regs.irq_eq_false.mp hlow
    have hidle : s.regs.status.busy = false := Bool.eq_false_iff.mpr fun hbusy => by
      obtain ⟨hdone, herr, -⟩ := hinv.busyStatus hbusy
      simp [hdone, herr] at hholds
    obtain ⟨-, hsame⟩ | ⟨op, htook, ⟨hreset, -⟩ | ⟨v, ⟨hop, -⟩ | ⟨hop, hregs⟩ | ⟨hop, hregs⟩⟩⟩ :=
      step_idle_cases hinv hstep hidle
    · exact absurd (hlow.symm.trans (hsame.trans hhigh)) Bool.false_ne_true
    · exact ⟨op, htook, .inl hreset⟩
    · exact ⟨op, htook, .inr ⟨v, .inl hop⟩⟩
    · refine ⟨op, htook, .inr ⟨v, .inr (.inl ⟨hop, ?_⟩)⟩⟩
      rw [hregs] at hdoneLow herrLow
      exact hholds.imp (fun ⟨hdone, hie⟩ => ⟨hdone, hcleared hdone hie hdoneLow⟩)
        (fun ⟨herr, hie⟩ => ⟨herr, hcleared herr hie herrLow⟩)
    · refine ⟨op, htook, .inr ⟨v, .inr (.inr ⟨hop, ?_⟩)⟩⟩
      rw [hregs] at hdoneLow herrLow
      exact hholds.imp (fun ⟨hdone, _⟩ => ⟨hdone, hdoneLow hdone⟩) (fun ⟨herr, _⟩ => ⟨herr, herrLow herr⟩)

/-! ## A raced command -/

/-- Settles O19: the write into the footprint sets `raced`, and the completion of a raced command frees its write interval
and draws its status. -/
theorem racedCommandIsFreeOnlyInside : Obligations.RacedCommandIsFreeOnlyInside := by
  intro s w i hinv hrun hdecode
  have hrunning : s.running = some i := State.running_eq_some.mpr ⟨w, hrun, hdecode⟩
  have hreads : s.runningReads = readInterval s.regs i := by rw [State.runningReads, hrunning]
  have hwrites : s.runningWrites = writeInterval s.regs i := by rw [State.runningWrites, hrunning]
  refine ⟨fun a b ha hinside => ⟨_, State.hostMemWrite_of_present ha b, ?marked, hrun, rfl⟩, fun hraced hleft => ?completes⟩
  case marked =>
    change (s.raced || s.runningReads.contains a || s.runningWrites.contains a) = true
    rw [hreads, hwrites, Bool.or_assoc, Bool.or_eq_true, Bool.or_eq_true]
    exact .inr hinside
  case completes =>
    have hsome : s.run.isSome = true := by rw [hrun]; rfl
    have hfinish : s.finish = s.completeRaced := if_pos hraced
    obtain ⟨hdone, herr, -, -⟩ := hinv.busyStatus (hinv.busyRun.trans hsome)
    refine ⟨s.completeRaced, hfinish ▸ step_of_latency_over hsome hleft, rfl, ?_, ?_, s.sameConfig_completeRaced,
      fun a ha => State.completeRaced_read_outside (hwrites ▸ ha)⟩
    · obtain ⟨arith, narrow, hst⟩ | ⟨code, -, -, hst⟩ := s.completeRaced_status <;> rw [hst] <;> rfl
    · obtain ⟨arith, narrow, hst⟩ | ⟨code, hlo, hhi, hst⟩ := s.completeRaced_status <;> rw [hst]
      · exact .inl ⟨rfl, herr, rfl⟩
      · exact .inr ⟨hdone, rfl, hlo, hhi⟩

end Sys2Proof.Machine
end

section
/-! The bounds of the LZW table, and its assigned code points (41_lzw.md R161 to R165, R178). -/

namespace Sys2Proof.Machine.Lzw

/-! ## `S.next` and `S.width` -/

/-- The bounds on `S.next` and `S.width` (R178): in dynamic mode below the limit `S.next` has not reached `2^S.width`. -/
structure Table.Sized (cfg : Options) (t : Table) : Prop where
  next_ge : 257 ≤ t.next
  next_le : t.next ≤ 2 ^ cfg.maxWidth
  width_ge : 9 ≤ t.width
  width_le : t.width ≤ cfg.maxWidth
  next_lt : t.width < cfg.maxWidth → t.next < 2 ^ t.width
  fixed : cfg.dynamic = false → t.width = cfg.maxWidth

variable {cfg : Options}

theorem Table.Sized.next_le_width {t : Table} (h : t.Sized cfg) : t.next ≤ 2 ^ t.width := by
  obtain hlt | heq := Nat.lt_or_eq_of_le h.width_le
  · exact (h.next_lt hlt).le
  · exact heq ▸ h.next_le

theorem sized_init (hcfg : cfg.Ok) : (Table.init cfg).Sized cfg := by
  obtain ⟨hlo, hhi⟩ := hcfg
  have hpow : 2 ^ 9 ≤ 2 ^ cfg.maxWidth := Nat.pow_le_pow_right two_pos hlo
  cases hdyn : cfg.dynamic with
  | true =>
    have hwidth : (Table.init cfg).width = 9 := by rw [Table.init, hdyn]; rfl
    exact {
      next_ge := le_rfl
      next_le := (by decide : 257 ≤ 2 ^ 9).trans hpow
      width_ge := hwidth.ge
      width_le := hwidth ▸ hlo
      next_lt := fun _ => by rw [hwidth]; exact (by decide : 257 < 2 ^ 9)
      fixed := fun h => absurd h (by simp [hdyn]) }
  | false =>
    have hwidth : (Table.init cfg).width = cfg.maxWidth := by rw [Table.init, hdyn]; rfl
    exact {
      next_ge := le_rfl
      next_le := (by decide : 257 ≤ 2 ^ 9).trans hpow
      width_ge := hwidth ▸ hlo
      width_le := hwidth.le
      next_lt := fun h => absurd h (by rw [hwidth]; exact lt_irrefl _)
      fixed := fun _ => hwidth }

/-- Taking a free code point keeps the bounds: below the limit the width grows just when `S.next` reaches `2^S.width`
(R164). -/
theorem Table.Sized.taken {t : Table} (h : t.Sized cfg) (hfree : t.next ≠ 2 ^ cfg.maxWidth)
    (e : Option (List Byte)) : (t.taken cfg e).Sized cfg := by
  have hnext : t.next < 2 ^ cfg.maxWidth := lt_of_le_of_ne h.next_le hfree
  have hfixed := h.fixed
  by_cases hgrow : cfg.dynamic = true ∧ t.width < cfg.maxWidth ∧ t.next + 1 = 2 ^ t.width
  · have hwidth : (t.taken cfg e).width = t.width + 1 := if_pos hgrow
    obtain ⟨hdyn, hlt, hpow⟩ := hgrow
    have hdouble : 2 ^ (t.width + 1) = 2 * 2 ^ t.width := Nat.pow_succ'
    exact {
      next_ge := Nat.le_succ_of_le h.next_ge
      next_le := hnext
      width_ge := hwidth ▸ Nat.le_succ_of_le h.width_ge
      width_le := hwidth ▸ hlt
      next_lt := fun _ => by
        rw [hwidth, hdouble]
        change t.next + 1 < 2 * 2 ^ t.width
        omega
      fixed := fun hoff => absurd hdyn (by simp [hoff]) }
  · have hwidth : (t.taken cfg e).width = t.width := if_neg hgrow
    exact {
      next_ge := Nat.le_succ_of_le h.next_ge
      next_le := hnext
      width_ge := hwidth ▸ h.width_ge
      width_le := hwidth ▸ h.width_le
      next_lt := fun hlt => by
        rw [hwidth] at hlt ⊢
        have hdyn : cfg.dynamic = true := Bool.not_eq_false _ ▸ fun hoff => hlt.ne (hfixed hoff)
        exact lt_of_le_of_ne (h.next_lt hlt) fun hpow => hgrow ⟨hdyn, hlt, hpow⟩
      fixed := fun hoff => hwidth.trans (hfixed hoff) }

/-- The three cases of a reservation, whatever its sequence: the table is full, it is flushed, or the code point is taken
(R165). -/
theorem Table.reserve_cases (cfg : Options) (t : Table) :
    (t.next = 2 ^ cfg.maxWidth ∧ ∀ e, t.reserve cfg e = (t, false)) ∨
    (t.next ≠ 2 ^ cfg.maxWidth ∧ ∀ e, t.reserve cfg e = (Table.init cfg, true)) ∨
    (t.next ≠ 2 ^ cfg.maxWidth ∧ ∀ e, t.reserve cfg e = (t.taken cfg e, false)) := by
  by_cases hfull : t.next = 2 ^ cfg.maxWidth
  · exact .inl ⟨hfull, Table.reserve_of_full hfull⟩
  by_cases hflush : t.next + 1 = 2 ^ cfg.maxWidth ∧ cfg.flush = true
  · exact .inr (.inl ⟨hfull, fun e => (Table.reserve_of_not_full hfull e).trans (if_pos hflush)⟩)
  · exact .inr (.inr ⟨hfull, fun e => (Table.reserve_of_not_full hfull e).trans (if_neg hflush)⟩)

theorem Table.Sized.reserve {t : Table} (h : t.Sized cfg) (hcfg : cfg.Ok) (e : Option (List Byte)) :
    (t.reserve cfg e).1.Sized cfg := by
  obtain ⟨-, hres⟩ | ⟨-, hres⟩ | ⟨hfree, hres⟩ := t.reserve_cases cfg <;> rw [hres]
  · exact h
  · exact sized_init hcfg
  · exact h.taken hfree e

/-! ## The entries -/

/-- The entries are the sequences of code points from 257 on, and no two share a code point or a sequence (R161). -/
structure Table.Assigned (t : Table) : Prop where
  range : ∀ e ∈ t.entries, 257 ≤ e.1 ∧ e.1 < t.next ∧ 2 ≤ e.2.length
  codes : (t.entries.map (·.1)).Nodup
  sequences : (t.entries.map (·.2)).Nodup

theorem assigned_init (cfg : Options) : (Table.init cfg).Assigned := ⟨nofun, List.nodup_nil, List.nodup_nil⟩

theorem Table.Assigned.reserve_none {t : Table} (h : t.Assigned) : (t.reserve cfg none).1.Assigned := by
  obtain ⟨-, hres⟩ | ⟨-, hres⟩ | ⟨-, hres⟩ := t.reserve_cases cfg <;> rw [hres]
  · exact h
  · exact assigned_init cfg
  · exact ⟨fun e he => (h.range e he).imp_right (And.imp_left Nat.lt_succ_of_lt), h.codes, h.sequences⟩

/-- A new sequence takes the next code point, which no entry has. -/
theorem Table.Assigned.reserve_some {t : Table} (h : t.Assigned) (hnext : 257 ≤ t.next) {w : List Byte}
    (hlength : 2 ≤ w.length) (hnew : w ∉ t.entries.map (·.2)) : (t.reserve cfg (some w)).1.Assigned := by
  obtain ⟨-, hres⟩ | ⟨-, hres⟩ | ⟨-, hres⟩ := t.reserve_cases cfg <;> rw [hres]
  · exact h
  · exact assigned_init cfg
  · have hfresh : t.next ∉ t.entries.map (·.1) := by
      intro hmem
      obtain ⟨e, he, heq⟩ := List.mem_map.mp hmem
      exact absurd (h.range e he).2.1 (by omega)
    refine ⟨fun e he => ?_, List.nodup_cons.mpr ⟨hfresh, h.codes⟩, List.nodup_cons.mpr ⟨hnew, h.sequences⟩⟩
    obtain rfl | he := List.mem_cons.mp he
    · exact ⟨hnext, Nat.lt_succ_self _, hlength⟩
    · exact (h.range e he).imp_right (And.imp_left Nat.lt_succ_of_lt)

/-! ## The code of a sequence and the sequence of a code -/

/-- A search by a key that no two elements share finds the element. -/
theorem find?_key_eq_some {α κ : Type} [BEq κ] [LawfulBEq κ] {key : α → κ} {l : List α} (hnodup : (l.map key).Nodup)
    {a : α} : l.find? (fun e => key e == key a) = some a ↔ a ∈ l := by
  refine ⟨List.mem_of_find?_eq_some, fun hmem => ?_⟩
  induction l with
  | nil => cases hmem
  | cons b l ih =>
    rw [List.map_cons, List.nodup_cons] at hnodup
    obtain rfl | hmem := List.mem_cons.mp hmem
    · exact List.find?_cons_of_pos (beq_self_eq_true _)
    · have hne : ¬(key b == key a) = true := fun heq =>
        hnodup.1 (List.mem_map.mpr ⟨a, hmem, (eq_of_beq heq).symm⟩)
      exact (List.find?_cons_of_neg (p := fun e => key e == key a) hne).trans (ih hnodup.2 hmem)

theorem Table.Assigned.lookup_eq_some {t : Table} (h : t.Assigned) {k : Nat} (hk : 257 ≤ k) {w : List Byte} :
    t.lookup k = some w ↔ (k, w) ∈ t.entries := by
  rw [Table.lookup, if_neg (by omega), Option.map_eq_some_iff]
  constructor
  · rintro ⟨⟨k', w'⟩, hfind, rfl⟩
    have hkey : k' = k := by simpa using List.find?_some hfind
    exact hkey ▸ List.mem_of_find?_eq_some hfind
  · exact fun hmem => ⟨(k, w), (find?_key_eq_some (key := Prod.fst) h.codes).mpr hmem, rfl⟩

theorem Table.Assigned.codeOf_eq_some {t : Table} (h : t.Assigned) {k : Nat} {w : List Byte} :
    t.codeOf w = some k ↔ (k, w) ∈ t.entries := by
  rw [Table.codeOf, Option.map_eq_some_iff]
  constructor
  · rintro ⟨⟨k', w'⟩, hfind, rfl⟩
    have hkey : w' = w := by simpa using List.find?_some hfind
    exact hkey ▸ List.mem_of_find?_eq_some hfind
  · exact fun hmem => ⟨(k, w), (find?_key_eq_some (key := Prod.snd) h.sequences).mpr hmem, rfl⟩

theorem Table.codeOf_eq_none {t : Table} {w : List Byte} : t.codeOf w = none ↔ w ∉ t.entries.map (·.2) := by
  simp only [Table.codeOf, Option.map_eq_none_iff, List.find?_eq_none, List.mem_map, not_exists, not_and, beq_iff_eq]

end Sys2Proof.Machine.Lzw
end

section
/-! The LZW encoder after any input (41_lzw.md R161, R169, R170, R178). -/

namespace Sys2Proof.Machine.Lzw

/-! ## One byte of input (R169) -/

section
variable {cfg : Options} {st : EncState}

theorem feed_first (hcur : st.cur = none) (b : Byte) : st.feed cfg b = { st with cur := some b.toNat } := by
  rw [EncState.feed, hcur]

/-- An extended match that has a code point becomes the match. -/
theorem feed_extends {cur k : Nat} {w : List Byte} {b : Byte} (hcur : st.cur = some cur)
    (hw : st.table.lookup cur = some w) (hk : st.table.codeOf (w ++ [b]) = some k) :
    st.feed cfg b = { st with cur := some k } := by
  have hextended : (st.table.lookup cur).getD [] ++ [b] = w ++ [b] := by rw [hw, Option.getD_some]
  rw [EncState.feed, hcur]
  simp only [hextended, hk]

/-- A match that cannot be extended is emitted; the extended sequence is reserved and the match restarts. -/
theorem feed_emits {cur : Nat} {w : List Byte} {b : Byte} (hcur : st.cur = some cur)
    (hw : st.table.lookup cur = some w) (hnone : st.table.codeOf (w ++ [b]) = none) : st.feed cfg b =
      ⟨(st.table.reserve cfg (some (w ++ [b]))).1, some b.toNat, (cur, st.table.width) :: st.emitted⟩ := by
  have hextended : (st.table.lookup cur).getD [] ++ [b] = w ++ [b] := by rw [hw, Option.getD_some]
  rw [EncState.feed, hcur]
  simp only [hextended, hnone]
  rfl

/-- The end of a non-empty input (R169, R170). -/
theorem finish_of_cur {cur : Nat} (hcur : st.cur = some cur) :
    st.finish cfg = ⟨(st.table.reserve cfg none).1, some cur,
      (256, (st.table.reserve cfg none).1.width) :: (cur, st.table.width) :: st.emitted⟩ := by
  rw [EncState.finish, hcur]
  simp only [EncState.emit, hcur]

theorem finish_of_none (hcur : st.cur = none) :
    st.finish cfg = { st with emitted := (256, st.table.width) :: st.emitted } := by
  obtain ⟨table, cur, emitted⟩ := st
  subst hcur
  rfl

end

/-! ## The invariant of the loop -/

/-- The state of the encoder after its first bytes. -/
def fed (cfg : Options) (input : List Byte) : EncState := input.foldl (EncState.feed cfg) (EncState.init cfg)

@[simp] theorem fed_nil (cfg : Options) : fed cfg [] = EncState.init cfg := rfl

@[simp] theorem fed_snoc (cfg : Options) (input : List Byte) (b : Byte) :
    fed cfg (input ++ [b]) = (fed cfg input).feed cfg b := by
  simp [fed]

theorem encodeState_eq (cfg : Options) (input : List Byte) : encodeState cfg input = (fed cfg input).finish cfg := rfl

/-- A code that is emitted fits its width (R178). -/
def CodeFits (cfg : Options) (cw : Nat × Nat) : Prop := cw.1 < 2 ^ cw.2 ∧ 9 ≤ cw.2 ∧ cw.2 ≤ cfg.maxWidth

/-- `w` is the current match: the sequence of the current code, other than the end-of-input code, and no match before the
first byte. -/
structure EncState.Match (st : EncState) (input w : List Byte) : Prop where
  nil : input = [] → st.cur = none ∧ w = []
  cons : input ≠ [] → ∃ cur, st.cur = some cur ∧ st.table.lookup cur = some w ∧ w ≠ [] ∧ cur ≠ 256 ∧
    cur < st.table.next
  suffix : w <:+ input

/-- What holds after any input. -/
structure EncState.Sound (cfg : Options) (st : EncState) : Prop where
  sized : st.table.Sized cfg
  assigned : st.table.Assigned
  emitted : ∀ cw ∈ st.emitted, CodeFits cfg cw

theorem sound_init {cfg : Options} (hcfg : cfg.Ok) : (EncState.init cfg).Sound cfg :=
  ⟨sized_init hcfg, assigned_init cfg, nofun⟩

theorem codeFits_of_lt {cfg : Options} {t : Table} (h : t.Sized cfg) {c : Nat} (hc : c < t.next) :
    CodeFits cfg (c, t.width) :=
  ⟨hc.trans_le h.next_le_width, h.width_ge, h.width_le⟩

/-- A match of one byte is the sequence of that byte. -/
theorem match_byte {st : EncState} (input : List Byte) {b : Byte} (hcur : st.cur = some b.toNat)
    (hnext : 257 ≤ st.table.next) : st.Match (input ++ [b]) [b] where
  nil := fun hnil => absurd hnil (List.append_ne_nil_of_right_ne_nil _ (List.cons_ne_nil b []))
  cons := fun _ => by
    have hbyte := b.isLt
    refine ⟨_, hcur, ?_, List.cons_ne_nil _ _, by omega, by omega⟩
    rw [Table.lookup_byte hbyte, BitVec.ofNat_toNat, BitVec.setWidth_eq]
  suffix := List.suffix_append _ _

/-- What one byte does to the match: it is extended, or it is emitted because the extended sequence has no code point. -/
theorem EncState.Sound.feed_cases {cfg : Options} {st : EncState} (h : st.Sound cfg) (hcfg : cfg.Ok)
    {input w : List Byte} (hmatch : st.Match input w) (b : Byte) :
    (∃ k, st.feed cfg b = { st with cur := some k } ∧ (st.feed cfg b).Match (input ++ [b]) (w ++ [b])) ∨
    ∃ cur, st.cur = some cur ∧ st.table.lookup cur = some w ∧ w ≠ [] ∧ cur ≠ 256 ∧ cur < st.table.next ∧
      st.table.codeOf (w ++ [b]) = none ∧
      st.feed cfg b = ⟨(st.table.reserve cfg (some (w ++ [b]))).1, some b.toNat, (cur, st.table.width) :: st.emitted⟩ ∧
      (st.feed cfg b).Match (input ++ [b]) [b] := by
  by_cases hinput : input = []
  · obtain ⟨hcur, rfl⟩ := hmatch.nil hinput
    rw [feed_first hcur]
    exact .inl ⟨_, rfl, match_byte input rfl h.sized.next_ge⟩
  obtain ⟨cur, hcur, hw, hwne, hcur256, hcurLt⟩ := hmatch.cons hinput
  cases hcode : st.table.codeOf (w ++ [b]) with
  | some k =>
    have hmem := h.assigned.codeOf_eq_some.mp hcode
    obtain ⟨hk, hkLt, -⟩ := h.assigned.range _ hmem
    rw [feed_extends hcur hw hcode]
    refine .inl ⟨k, rfl, fun hnil => absurd hnil (List.append_ne_nil_of_right_ne_nil _ (List.cons_ne_nil b [])),
      fun _ => ⟨k, rfl, (h.assigned.lookup_eq_some hk).mpr hmem, List.append_ne_nil_of_left_ne_nil hwne _,
        (hk.trans_lt' (by decide)).ne', hkLt⟩, ?_⟩
    obtain ⟨pre, rfl⟩ := hmatch.suffix
    exact ⟨pre, (List.append_assoc _ _ _).symm⟩
  | none =>
    rw [feed_emits hcur hw hcode]
    exact .inr ⟨cur, hcur, hw, hwne, hcur256, hcurLt, rfl, rfl,
      match_byte input rfl (h.sized.reserve hcfg (some (w ++ [b]))).next_ge⟩

/-- One byte keeps the invariant: a sequence that is reserved had no code point. -/
theorem EncState.Sound.feed {cfg : Options} {st : EncState} (h : st.Sound cfg) (hcfg : cfg.Ok) {input w : List Byte}
    (hmatch : st.Match input w) (b : Byte) :
    (st.feed cfg b).Sound cfg ∧ ∃ w', (st.feed cfg b).Match (input ++ [b]) w' := by
  obtain ⟨k, hfeed, hnext⟩ | ⟨cur, -, -, hwne, -, hcurLt, hnone, hfeed, hnext⟩ := h.feed_cases hcfg hmatch b
  · refine ⟨?_, _, hnext⟩
    rw [hfeed]
    exact ⟨h.sized, h.assigned, h.emitted⟩
  · refine ⟨?_, _, hnext⟩
    have hlength : 2 ≤ (w ++ [b]).length := by
      rw [List.length_append]
      exact Nat.succ_le_succ (List.length_pos_iff.mpr hwne)
    rw [hfeed]
    exact ⟨h.sized.reserve hcfg _, h.assigned.reserve_some h.sized.next_ge hlength (Table.codeOf_eq_none.mp hnone),
      List.forall_mem_cons.mpr ⟨codeFits_of_lt h.sized hcurLt, h.emitted⟩⟩

/-- The invariant of the loop, after any input. -/
theorem sound_fed {cfg : Options} (hcfg : cfg.Ok) (input : List Byte) :
    (fed cfg input).Sound cfg ∧ ∃ w, (fed cfg input).Match input w := by
  induction input using List.reverseRecOn with
  | nil => exact ⟨sound_init hcfg, [], fun _ => ⟨rfl, rfl⟩, fun h => absurd rfl h, List.suffix_refl _⟩
  | append_singleton input b ih =>
    obtain ⟨hsound, w, hmatch⟩ := ih
    rw [fed_snoc]
    exact hsound.feed hcfg hmatch b

/-- The invariant after the end of input. -/
theorem EncState.Sound.finish {cfg : Options} {st : EncState} (h : st.Sound cfg) (hcfg : cfg.Ok)
    {input w : List Byte} (hmatch : st.Match input w) : (st.finish cfg).Sound cfg := by
  have hend : ∀ t : Table, t.Sized cfg → CodeFits cfg (256, t.width) := fun t ht => codeFits_of_lt ht ht.next_ge
  by_cases hinput : input = []
  · rw [finish_of_none (hmatch.nil hinput).1]
    exact ⟨h.sized, h.assigned, List.forall_mem_cons.mpr ⟨hend _ h.sized, h.emitted⟩⟩
  · obtain ⟨cur, hcur, -, -, -, hcurLt⟩ := hmatch.cons hinput
    have hsized := h.sized.reserve hcfg none
    rw [finish_of_cur hcur]
    exact ⟨hsized, h.assigned.reserve_none, List.forall_mem_cons.mpr ⟨hend _ hsized,
      List.forall_mem_cons.mpr ⟨codeFits_of_lt h.sized hcurLt, h.emitted⟩⟩⟩

/-- Settles O33: the loop's invariant holds before the first byte, each byte keeps it, and so does the end of input. -/
theorem encoderTableInvariant : Obligations.EncoderTableInvariant := by
  intro cfg input hcfg st
  obtain ⟨hsound, w, hmatch⟩ := sound_fed hcfg input
  obtain ⟨hsized, hassigned, hemitted⟩ := hsound.finish hcfg hmatch
  exact ⟨hsized.next_ge, hsized.next_le, hsized.next_le_width, hsized.width_ge, hsized.width_le, hsized.fixed, hemitted,
    hassigned.range, hassigned.codes, hassigned.sequences⟩

/-- Settles O32: the match is the sequence of an entry or a byte, so extending it asks for an entry of the extended
sequence. -/
theorem encoderFollowsTheGreedyRule : Obligations.EncoderFollowsTheGreedyRule := by
  intro cfg input hcfg st width
  obtain ⟨hsound, w, hmatch⟩ := sound_fed hcfg input
  refine ⟨rfl, rfl, ?empty, ?nonempty⟩
  case empty =>
    rintro rfl
    exact ⟨rfl, rfl, rfl, feed_first rfl⟩
  case nonempty =>
    intro hinput
    obtain ⟨cur, hcur, hw, hwne, -, -⟩ := hmatch.cons hinput
    have hfinish := finish_of_cur (cfg := cfg) hcur
    refine ⟨cur, w, hcur, hw, hwne, hmatch.suffix, fun b => ⟨fun k hk hkLt hlookup => ?extended, fun hmissing => ?emitted⟩,
      congrArg EncState.table hfinish, congrArg EncState.emitted hfinish⟩
    case extended =>
      exact feed_extends hcur hw
        (hsound.assigned.codeOf_eq_some.mpr ((hsound.assigned.lookup_eq_some hk).mp hlookup))
    case emitted =>
      refine feed_emits hcur hw (Option.eq_none_iff_forall_ne_some.mpr fun k hk => ?_)
      have hmem := hsound.assigned.codeOf_eq_some.mp hk
      obtain ⟨hge, hlt, -⟩ := hsound.assigned.range _ hmem
      exact hmissing k hge hlt ((hsound.assigned.lookup_eq_some hge).mpr hmem)

end Sys2Proof.Machine.Lzw
end

section
/-! What the LZW decoder keeps from turn to turn (41_lzw.md R173 to R175, R178). -/

namespace Sys2Proof.Machine.Lzw

variable {cfg : Options} {cap : Nat} {bits : List Bool}

/-! ## The entries a turn leaves -/

theorem Table.lookup_assign_self {t : Table} {k : Nat} (hk : 257 ≤ k) (w : List Byte) :
    (t.assign k w).lookup k = some w := by
  have hcode : ¬k < 256 := by omega
  simp [Table.lookup, Table.assign, hcode]

theorem Table.lookup_assign_of_ne {t : Table} {c k : Nat} (hne : c ≠ k) (w : List Byte) :
    (t.assign k w).lookup c = t.lookup c := by
  simp [Table.lookup, Table.assign, hne.symm]

/-- Every code point from 257 up to `n` has a sequence. -/
def Table.FilledTo (t : Table) (n : Nat) : Prop :=
  ∀ c, 257 ≤ c → c < n → ∃ seq, t.lookup c = some seq ∧ seq ≠ []

/-- The three ways to reserve after a decoded code (R165, R173). -/
theorem DecState.reserveNext_cases (cfg : Options) (st : DecState) :
    (st.table.next = 2 ^ cfg.maxWidth ∧ (∀ e, st.table.reserve cfg e = (st.table, false)) ∧
      reserveNext cfg st = { st with pending := false }) ∨
    ((∀ e, st.table.reserve cfg e = (Table.init cfg, true)) ∧
      reserveNext cfg st = { st with table := Table.init cfg, prev := none, pending := false }) ∨
    (st.table.next ≠ 2 ^ cfg.maxWidth ∧ (∀ e, st.table.reserve cfg e = (st.table.taken cfg e, false)) ∧
      reserveNext cfg st = { st with table := st.table.taken cfg none, pending := true }) := by
  rw [reserveNext_eq]
  obtain ⟨hfull, hres⟩ | ⟨hfree, hres⟩ | ⟨hfree, hres⟩ := st.table.reserve_cases cfg
  · exact .inl ⟨hfull, hres, if_pos hfull⟩
  · refine .inr (.inl ⟨hres, (if_neg hfree).trans ?_⟩)
    rw [hres]
    exact if_pos rfl
  · refine .inr (.inr ⟨hfree, hres, (if_neg hfree).trans ?_⟩)
    rw [hres]
    exact if_neg Bool.false_ne_true

/-! ## The invariant -/

/-- What holds in every state the decoder reaches: the code points below `S.next` have sequences, but for the pending
one. -/
structure DecState.Sound (cfg : Options) (cap : Nat) (st : DecState) : Prop where
  sized : st.table.Sized cfg
  out_le : st.out.length ≤ cap
  idle : st.pending = false → st.table.FilledTo st.table.next
  pending : st.pending = true → ∃ n, st.table.next = n + 1 ∧ 257 ≤ n ∧ st.table.FilledTo n ∧
    ∃ p, st.prev = some p ∧ p ≠ []

theorem DecState.sound_init (hcfg : cfg.Ok) : (DecState.init cfg bits).Sound cfg cap where
  sized := sized_init hcfg
  out_le := Nat.zero_le _
  idle := fun _ _ hge hlt => absurd hge (Nat.not_le.mpr hlt)
  pending := nofun

/-- No code below `S.next` other than 256 lacks a sequence (R175). -/
theorem DecState.Sound.exists_sequenceOf {st : DecState} (h : st.Sound cfg cap) {c : Nat} (hc : c < st.table.next)
    (hstop : c ≠ 256) : ∃ seq, st.sequenceOf c = some seq ∧ seq ≠ [] := by
  have hlookup : ∀ n, st.table.FilledTo n → c < n → ∃ seq, st.table.lookup c = some seq ∧ seq ≠ [] := by
    intro n hfilled hcn
    obtain hbyte | hcode : c < 256 ∨ 257 ≤ c := by omega
    · exact ⟨_, Table.lookup_byte hbyte _, List.cons_ne_nil _ _⟩
    · exact hfilled c hcode hcn
  cases hpending : st.pending with
  | false =>
    rw [sequenceOf_of_assigned hc (by rw [hpending]; exact fun hand => Bool.false_ne_true hand.1)]
    exact hlookup _ (h.idle hpending) hc
  | true =>
    obtain ⟨n, hnext, -, hfilled, p, hprev, hp⟩ := h.pending hpending
    by_cases hlast : c + 1 = st.table.next
    · exact ⟨_, sequenceOf_of_pending hpending hlast hprev, List.append_ne_nil_of_left_ne_nil hp _⟩
    · rw [sequenceOf_of_assigned hc fun hand => hlast hand.2]
      exact hlookup n hfilled (by omega)

/-- Completing the pending entry gives every code point below `S.next` a sequence. -/
theorem DecState.Sound.completePending_filled {st : DecState} (h : st.Sound cfg cap) (seq : List Byte) :
    (st.completePending seq).FilledTo st.table.next := by
  cases hpending : st.pending with
  | false =>
    rw [completePending_of_not_pending hpending]
    exact h.idle hpending
  | true =>
    obtain ⟨n, hnext, hn, hfilled, p, hprev, hp⟩ := h.pending hpending
    rw [completePending_of_pending hpending hprev, hnext, Nat.add_sub_cancel]
    intro c hge hlt
    obtain rfl | hne := eq_or_ne c n
    · exact ⟨_, Table.lookup_assign_self hn _, List.append_ne_nil_of_left_ne_nil hp _⟩
    · rw [Table.lookup_assign_of_ne hne]
      exact hfilled c hge (by omega)

theorem DecState.completePending_sized {st : DecState} (h : st.table.Sized cfg) (seq : List Byte) :
    (st.completePending seq).Sized cfg := by
  unfold completePending
  split
  · exact { h with }
  · exact h

/-- A decoded code keeps the invariant. -/
theorem DecState.Sound.decoded {st : DecState} (h : st.Sound cfg cap) (hcfg : cfg.Ok) {seq : List Byte}
    (hseq : seq ≠ []) (hcap : st.out.length + seq.length ≤ cap) (rest : List Bool) :
    (st.decoded cfg seq rest).Sound cfg cap := by
  have hfilled := h.completePending_filled seq
  have hsized := completePending_sized h.sized seq
  have hout : (st.out ++ seq).length ≤ cap := by rwa [List.length_append]
  have hnext := st.completePending_next seq
  obtain ⟨-, -, heq⟩ | ⟨-, heq⟩ | ⟨hfree, -, heq⟩ := reserveNext_cases cfg
    { st with table := st.completePending seq, bits := rest, out := st.out ++ seq, prev := some seq } <;>
    rw [DecState.decoded, heq]
  · exact ⟨hsized, hout, fun _ => hnext ▸ hfilled, nofun⟩
  · exact ⟨sized_init hcfg, hout, fun _ _ hge hlt => absurd hge (Nat.not_le.mpr hlt), nofun⟩
  · exact ⟨hsized.taken hfree none, hout, nofun, fun _ =>
      ⟨_, rfl, hsized.next_ge, hnext ▸ hfilled, seq, rfl, hseq⟩⟩

theorem sound_of_reached (hcfg : cfg.Ok) {st : DecState} (hreach : DecReached cfg cap bits st) : st.Sound cfg cap := by
  induction hreach with
  | start => exact DecState.sound_init hcfg
  | @more st st' _ hturn ih =>
    obtain ⟨c, rest, seq, -, hstop, hc, hseq, hcap, rfl⟩ := DecState.decoded_of_turn_more hturn
    obtain ⟨seq', hseq', hne⟩ := ih.exists_sequenceOf hc hstop
    cases hseq.symm.trans hseq'
    exact ih.decoded hcfg hne hcap rest

end Sys2Proof.Machine.Lzw

namespace Sys2Proof.Machine

/-- Settles O35: every turn keeps the invariant. -/
theorem decoderNeverReadsOutsideDictionary : Obligations.DecoderNeverReadsOutsideDictionary := by
  intro cfg cap bits st hcfg hreach
  have hsound := Lzw.sound_of_reached hcfg hreach
  have hsized := hsound.sized
  exact ⟨fun c hc hstop => hsound.exists_sequenceOf hc hstop, hsound.out_le, hsized.next_ge, hsized.next_le,
    hsized.next_le_width, hsized.width_ge, hsized.width_le⟩

end Sys2Proof.Machine
end

section
/-! The loop of the LZW decoder and the bits it reads (30_encoding.md R110; 41_lzw.md R168, R173; log 11). -/

namespace Sys2Proof.Machine.Lzw

variable {cfg : Options} {cap : Nat}

/-! ## The bits of bytes (R110, R168) -/

@[simp] theorem codeBits_length (c w : Nat) : (codeBits c w).length = w := by
  rw [codeBits, List.length_map, List.length_range]

theorem codeBits_getD {c w i : Nat} (hi : i < w) : (codeBits c w).getD i false = c.testBit i := by
  simp [codeBits, List.getD_eq_getElem?_getD, hi]

theorem bytesToBits_cons (b : Byte) (bytes : List Byte) :
    bytesToBits (b :: bytes) = codeBits b.toNat 8 ++ bytesToBits bytes := rfl

theorem bytesToBits_length (bytes : List Byte) : (bytesToBits bytes).length = 8 * bytes.length := by
  induction bytes with
  | nil => rfl
  | cons b bytes ih => rw [bytesToBits_cons, List.length_append, codeBits_length, ih, List.length_cons]; ring

theorem bytesToBits_getD {bytes : List Byte} {i : Nat} (hi : i < 8 * bytes.length) :
    (bytesToBits bytes).getD i false = (bytes.getD (i / 8) 0).getLsbD (i % 8) := by
  induction bytes generalizing i with
  | nil => exact absurd hi (Nat.not_lt_zero i)
  | cons b bytes ih =>
    rw [bytesToBits_cons]
    obtain hfirst | hlater := Nat.lt_or_ge i 8
    · rw [Nat.div_eq_of_lt hfirst, Nat.mod_eq_of_lt hfirst, List.getD_cons_zero,
        List.getD_append _ _ _ _ (by rwa [codeBits_length]), codeBits_getD hfirst]
      rfl
    · obtain ⟨j, rfl⟩ := Nat.exists_eq_add_of_le' hlater
      rw [List.length_cons] at hi
      rw [Nat.add_div_right j (by decide), Nat.add_mod_right, List.getD_cons_succ,
        List.getD_append_right _ _ _ _ (by rwa [codeBits_length]), codeBits_length, Nat.add_sub_cancel, ih (by omega)]

/-! ## The loop -/

/-- The answer of a turn that ends the loop. -/
def DecTurn.answer : DecTurn → Option (Except ErrCode DecState)
  | .stop st => some (.ok st)
  | .error e => some (.error e)
  | .more _ => none

theorem DecTurn.answer_eq_ok {turn : DecTurn} {st : DecState} : turn.answer = some (.ok st) ↔ turn = .stop st := by
  cases turn <;> simp [answer]

theorem DecTurn.answer_eq_error {turn : DecTurn} {e : ErrCode} : turn.answer = some (.error e) ↔ turn = .error e := by
  cases turn <;> simp [answer]

theorem decodeLoop_of_answer {st : DecState} {a : Except ErrCode DecState} (h : (st.turn cfg cap).answer = some a)
    (fuel : Nat) : decodeLoop cfg cap (fuel + 1) st = a := by
  rw [decodeLoop]
  generalize st.turn cfg cap = turn at h
  cases turn <;> cases h <;> rfl

theorem decodeLoop_of_more {st st' : DecState} (h : st.turn cfg cap = .more st') (fuel : Nat) :
    decodeLoop cfg cap (fuel + 1) st = decodeLoop cfg cap fuel st' := by
  rw [decodeLoop, h]

/-- A turn that goes on uses up bits. -/
theorem DecState.Sound.bits_lt {st st' : DecState} (h : st.Sound cfg cap) (hturn : st.turn cfg cap = .more st') :
    st'.bits.length < st.bits.length := by
  obtain ⟨c, rest, seq, hread, -, -, -, -, rfl⟩ := DecState.decoded_of_turn_more hturn
  have hlength := length_of_readCode hread
  have hwidth := h.sized.width_ge
  rw [DecState.decoded, DecState.reserveNext_bits]
  change rest.length < _
  omega

/-- The turns up to a reached state are turns of the loop. -/
theorem decodeLoop_reached (hcfg : cfg.Ok) {bits : List Bool} {st : DecState} (hreach : DecReached cfg cap bits st) :
    ∃ k, k + st.bits.length ≤ bits.length ∧
      ∀ fuel, decodeLoop cfg cap (fuel + k) (DecState.init cfg bits) = decodeLoop cfg cap fuel st := by
  induction hreach with
  | start => exact ⟨0, (Nat.zero_add _).le, fun _ => rfl⟩
  | @more st st' hreach hturn ih =>
    obtain ⟨k, hk, hloop⟩ := ih
    have hlt := (sound_of_reached hcfg hreach).bits_lt hturn
    refine ⟨k + 1, by omega, fun fuel => ?_⟩
    rw [Nat.add_comm k 1, ← Nat.add_assoc, hloop, decodeLoop_of_more hturn]

/-- The first turn that does not go on is the loop's answer, whatever the bound above the number of bits. -/
theorem decodeLoop_eq_answer (hcfg : cfg.Ok) {bits : List Bool} {st : DecState} {a : Except ErrCode DecState}
    {fuel : Nat} (hreach : DecReached cfg cap bits st) (ha : (st.turn cfg cap).answer = some a)
    (hfuel : bits.length < fuel) : decodeLoop cfg cap fuel (DecState.init cfg bits) = a := by
  obtain ⟨k, hk, hloop⟩ := decodeLoop_reached hcfg hreach
  obtain ⟨n, rfl⟩ : ∃ n, fuel = n + 1 + k := ⟨fuel - k - 1, by omega⟩
  rw [hloop, decodeLoop_of_answer ha]

/-- Some reached state's turn is the loop's answer. -/
theorem exists_answer (hcfg : cfg.Ok) {bits : List Bool} {fuel : Nat} {st : DecState}
    (hreach : DecReached cfg cap bits st) (hfuel : st.bits.length < fuel) :
    ∃ st0, DecReached cfg cap bits st0 ∧ (st0.turn cfg cap).answer = some (decodeLoop cfg cap fuel st) := by
  induction fuel generalizing st with
  | zero => exact absurd hfuel (Nat.not_lt_zero _)
  | succ fuel ih =>
    cases hturn : st.turn cfg cap with
    | more st' =>
      rw [decodeLoop_of_more hturn]
      have hlt := (sound_of_reached hcfg hreach).bits_lt hturn
      exact ih (hreach.more hturn) (by omega)
    | stop st' =>
      have ha : (st.turn cfg cap).answer = some (.ok st') := DecTurn.answer_eq_ok.mpr hturn
      exact ⟨st, hreach, ha.trans (congrArg some (decodeLoop_of_answer ha fuel).symm)⟩
    | error e =>
      have ha : (st.turn cfg cap).answer = some (.error e) := DecTurn.answer_eq_error.mpr hturn
      exact ⟨st, hreach, ha.trans (congrArg some (decodeLoop_of_answer ha fuel).symm)⟩

/-- The decoder's answer is that of a reached state's turn. -/
theorem decodeState_eq_iff (hcfg : cfg.Ok) {input : List Byte} {a : Except ErrCode DecState} :
    decodeState cfg cap input = a ↔
      ∃ st0, DecReached cfg cap (bytesToBits input) st0 ∧ (st0.turn cfg cap).answer = some a := by
  have hfuel : (bytesToBits input).length < 8 * input.length + 1 := by rw [bytesToBits_length]; exact Nat.lt_succ_self _
  constructor
  · rintro rfl
    exact exists_answer hcfg .start hfuel
  · rintro ⟨st0, hreach, ha⟩
    exact decodeLoop_eq_answer hcfg hreach ha hfuel

/-- Settles O36: some reached state's turn ends the loop, and any larger bound ends it there. -/
theorem decoderBoundIsNeverReached : Obligations.DecoderBoundIsNeverReached := by
  intro cfg cap extra input hcfg bits
  refine ⟨?_, fun st => ?_, fun e => ?_, rfl, bytesToBits_length input, fun i hi => bytesToBits_getD hi⟩
  · obtain ⟨st0, hreach, ha⟩ := (decodeState_eq_iff (cap := cap) (input := input) hcfg).mp rfl
    refine decodeLoop_eq_answer hcfg hreach ha ?_
    rw [bytesToBits_length]
    omega
  · simp only [decodeState_eq_iff hcfg, DecTurn.answer_eq_ok]
    rfl
  · simp only [decodeState_eq_iff hcfg, DecTurn.answer_eq_error]
    rfl

end Sys2Proof.Machine.Lzw
end

section
/-! The round trip of the LZW coder (41_lzw.md R179, R180): the decoder, one code behind, keeps the encoder's table. -/

namespace Sys2Proof.Machine.Lzw

variable {cfg : Options} {cap : Nat}

/-! ## The code stream as bits -/

/-- The bits of codes with their widths, in stream order. -/
def streamBits (codes : List (Nat × Nat)) : List Bool := (codes.map fun cw => codeBits cw.1 cw.2).flatten

theorem streamBits_reverse_cons (cw : Nat × Nat) (emitted : List (Nat × Nat)) (rest : List Bool) :
    streamBits (cw :: emitted).reverse ++ rest = streamBits emitted.reverse ++ (codeBits cw.1 cw.2 ++ rest) := by
  simp [streamBits]

theorem ofBits_codeBits {c w : Nat} (hc : c < 2 ^ w) : ofBits (codeBits c w) = c := by
  refine Nat.eq_of_testBit_eq fun i => ?_
  rw [ofBits_testBit]
  obtain hi | hi := Nat.lt_or_ge i w
  · exact codeBits_getD hi
  · rw [List.getD_eq_default _ _ (by rwa [codeBits_length]),
      Nat.testBit_lt_two_pow (hc.trans_le (Nat.pow_le_pow_right two_pos hi))]

/-- `read` gives back what `emit` wrote (R166, R168). -/
theorem readCode_codeBits {c w : Nat} (hc : c < 2 ^ w) (rest : List Bool) :
    readCode w (codeBits c w ++ rest) = some (c, rest) := by
  have hle : w ≤ (codeBits c w ++ rest).length := by
    rw [List.length_append, codeBits_length]
    exact Nat.le_add_right _ _
  rw [readCode_of_le hle, List.take_left' (codeBits_length c w), List.drop_left' (codeBits_length c w), ofBits_codeBits hc]

/-- The bytes of a stream hold its bits and the padding. -/
theorem bytesToBits_packCodes (codes : List (Nat × Nat)) : bytesToBits (packCodes codes) = padBits (streamBits codes) := by
  have hpad := padBits_length (streamBits codes)
  have hbytes : (packCodes codes).length = ((streamBits codes).length + 7) / 8 := packBytes_length hpad
  have hlength : (bytesToBits (packCodes codes)).length = (padBits (streamBits codes)).length := by
    rw [bytesToBits_length, hbytes, hpad]
  refine List.ext_getElem hlength fun i hi hi' => ?_
  have hbit : (bytesToBits (packCodes codes)).getD i false = (padBits (streamBits codes)).getD i false :=
    (bytesToBits_getD (bytesToBits_length _ ▸ hi)).trans (packBytes_getLsbD hpad (hpad ▸ hi'))
  rwa [List.getD_eq_getElem _ _ hi, List.getD_eq_getElem _ _ hi'] at hbit

/-! ## The decoder one code behind the encoder -/

/-- The decoder has decoded all of `input` but the encoder's current match `w`, and its table is the encoder's table `t`,
but that a pending entry waits for the first byte of `w`. -/
structure Synced (input w : List Byte) (t : Table) (d : DecState) : Prop where
  out : d.out ++ w = input
  idle : d.pending = false → d.table = t
  pending : d.pending = true → ∃ n p, d.table.next = n + 1 ∧ 257 ≤ n ∧ d.prev = some p ∧ p ≠ [] ∧ w ≠ [] ∧
    t = d.table.assign n (p ++ w.take 1)

section
variable {input w : List Byte} {t : Table} {d : DecState}

theorem Synced.completePending (h : Synced input w t d) : d.completePending w = t := by
  cases hpending : d.pending with
  | false => exact (DecState.completePending_of_not_pending hpending w).trans (h.idle hpending)
  | true =>
    obtain ⟨n, p, hnext, -, hprev, -, -, rfl⟩ := h.pending hpending
    rw [DecState.completePending_of_pending hpending hprev, hnext, Nat.add_sub_cancel]

theorem Synced.width_eq (h : Synced input w t d) : d.table.width = t.width := by
  rw [← h.completePending]
  unfold DecState.completePending
  split <;> rfl

/-- The code of the match decodes to the match, by R174 when it is the pending one. -/
theorem Synced.sequenceOf (h : Synced input w t d) {c : Nat} (hw : t.lookup c = some w) (hc : c < t.next) :
    d.sequenceOf c = some w := by
  have hnext : c < d.table.next := by rwa [← d.completePending_next w, h.completePending]
  cases hpending : d.pending with
  | false =>
    rw [DecState.sequenceOf_of_assigned hnext (by rw [hpending]; exact fun hand => Bool.false_ne_true hand.1),
      h.idle hpending, hw]
  | true =>
    obtain ⟨n, p, hn, hge, hprev, hp, -, rfl⟩ := h.pending hpending
    by_cases hlast : c = n
    · subst hlast
      have hwp : p ++ w.take 1 = w := Option.some.inj ((Table.lookup_assign_self hge _).symm.trans hw)
      have hfirst : w.take 1 = p.take 1 := by
        rw [← hwp]
        exact List.take_append_of_le_length (List.length_pos_iff.mpr hp)
      rw [DecState.sequenceOf_of_pending hpending hn.symm hprev, ← hfirst, hwp]
    · rw [DecState.sequenceOf_of_assigned hnext fun hand => hlast (by omega), ← hw, Table.lookup_assign_of_ne hlast]

/-- The decoder's turn on the code of the match. -/
theorem Synced.turn (h : Synced input w t d) {c : Nat} {rest : List Bool}
    (hbits : d.bits = codeBits c t.width ++ rest) (hw : t.lookup c = some w) (hstop : c ≠ 256) (hc : c < t.next)
    (hfits : c < 2 ^ t.width) (hcap : input.length ≤ cap) :
    d.turn cfg cap = .more (DecState.reserveNext cfg ⟨t, rest, input, some w, d.pending⟩) := by
  have hread : readCode d.table.width d.bits = some (c, rest) := by
    rw [h.width_eq, hbits, readCode_codeBits hfits]
  have hnext : c < d.table.next := by rwa [← d.completePending_next w, h.completePending]
  have hlength : d.out.length + w.length = input.length := by rw [← List.length_append, h.out]
  rw [DecState.turn_of_sequence hread hstop hnext (h.sequenceOf hw hc), if_neg (by omega), DecState.decoded,
    h.completePending, h.out]

end

/-- After the match is emitted the decoder is one code behind again. -/
theorem synced_reserveNext {t : Table} (ht : t.Sized cfg) {input w : List Byte} (hw : w ≠ []) (b : Byte)
    (rest : List Bool) (pending : Bool) : Synced (input ++ [b]) [b] (t.reserve cfg (some (w ++ [b]))).1
      (DecState.reserveNext cfg ⟨t, rest, input, some w, pending⟩) := by
  obtain ⟨-, hres, heq⟩ | ⟨hres, heq⟩ | ⟨-, hres, heq⟩ :=
    DecState.reserveNext_cases cfg ⟨t, rest, input, some w, pending⟩ <;> rw [heq, hres]
  · exact ⟨rfl, fun _ => rfl, nofun⟩
  · exact ⟨rfl, fun _ => rfl, nofun⟩
  · exact ⟨rfl, nofun, fun _ => ⟨t.next, w, rfl, ht.next_ge, rfl, hw, List.cons_ne_nil _ _, rfl⟩⟩

/-- At the end both sides reserve a code point without a sequence (R170). -/
theorem reserveNext_table (t : Table) (rest : List Bool) (out : List Byte) (prev : Option (List Byte)) (pending : Bool) :
    (DecState.reserveNext cfg ⟨t, rest, out, prev, pending⟩).table = (t.reserve cfg none).1 := by
  obtain ⟨-, hres, heq⟩ | ⟨hres, heq⟩ | ⟨-, hres, heq⟩ :=
    DecState.reserveNext_cases cfg ⟨t, rest, out, prev, pending⟩ <;> rw [heq, hres]

/-- After any input the decoder that has read the codes emitted so far is one code behind, whatever follows them. -/
theorem exists_synced (hcfg : cfg.Ok) {input : List Byte} (hcap : input.length ≤ cap) :
    ∃ w, (fed cfg input).Match input w ∧ ∀ rest, ∃ d,
      DecReached cfg cap (streamBits (fed cfg input).emitted.reverse ++ rest) d ∧ d.bits = rest ∧
      Synced input w (fed cfg input).table d := by
  induction input using List.reverseRecOn with
  | nil => exact ⟨[], ⟨fun _ => ⟨rfl, rfl⟩, fun h => absurd rfl h, List.suffix_refl _⟩, fun rest =>
      ⟨DecState.init cfg rest, .start, rfl, rfl, fun _ => rfl, nofun⟩⟩
  | append_singleton input b ih =>
    have hinput : input.length ≤ cap := (List.prefix_append input [b]).length_le.trans hcap
    obtain ⟨w, hmatch, hdec⟩ := ih hinput
    have hsound := (sound_fed hcfg input).1
    rw [fed_snoc]
    obtain ⟨k, hfeed, hnext⟩ | ⟨cur, -, hlookup, hw, hstop, hcur, -, hfeed, hnext⟩ := hsound.feed_cases hcfg hmatch b
    · refine ⟨w ++ [b], hnext, fun rest => ?_⟩
      obtain ⟨d, hreach, hbits, hsync⟩ := hdec rest
      rw [hfeed]
      refine ⟨d, hreach, hbits, by rw [← List.append_assoc, hsync.out], hsync.idle, fun hpending => ?_⟩
      obtain ⟨n, p, hn, hge, hprev, hp, hwne, ht⟩ := hsync.pending hpending
      exact ⟨n, p, hn, hge, hprev, hp, List.append_ne_nil_of_left_ne_nil hwne _, by
        rw [ht, List.take_append_of_le_length (List.length_pos_iff.mpr hwne)]⟩
    · refine ⟨[b], hnext, fun rest => ?_⟩
      obtain ⟨d, hreach, hbits, hsync⟩ := hdec (codeBits cur (fed cfg input).table.width ++ rest)
      have hturn := hsync.turn (cfg := cfg) hbits hlookup hstop hcur (codeFits_of_lt hsound.sized hcur).1 hinput
      rw [hfeed, streamBits_reverse_cons]
      exact ⟨_, hreach.more hturn, DecState.reserveNext_bits _ _, synced_reserveNext hsound.sized hw b rest _⟩

/-- The code 256 ends the decoder. -/
theorem turn_of_endCode {d : DecState} {rest : List Bool} (hwidth : 9 ≤ d.table.width)
    (hbits : d.bits = codeBits 256 d.table.width ++ rest) : d.turn cfg cap = .stop { d with bits := rest } := by
  have hfits : 256 < 2 ^ d.table.width := (by decide : 256 < 2 ^ 9).trans_le (Nat.pow_le_pow_right two_pos hwidth)
  exact DecState.turn_of_stop (by rw [hbits, readCode_codeBits hfits])

/-- The decoder that has read all codes stops, in step with the encoder. -/
theorem exists_stop (hcfg : cfg.Ok) {input : List Byte} (hcap : input.length ≤ cap) (rest : List Bool) :
    ∃ d st, DecReached cfg cap (streamBits (encodeState cfg input).emitted.reverse ++ rest) d ∧
      d.turn cfg cap = .stop st ∧ st.out = input ∧ st.table.next = (encodeState cfg input).table.next ∧
      st.table.width = (encodeState cfg input).table.width := by
  obtain ⟨w, hmatch, hdec⟩ := exists_synced hcfg hcap
  have hsound := (sound_fed hcfg input).1
  rw [encodeState_eq]
  by_cases hinput : input = []
  · obtain ⟨hcur, rfl⟩ := hmatch.nil hinput
    obtain ⟨d, hreach, hbits, hsync⟩ := hdec (codeBits 256 (fed cfg input).table.width ++ rest)
    have htable : d.table = (fed cfg input).table := hsync.idle (Bool.eq_false_iff.mpr fun hpending => by
      obtain ⟨-, -, -, -, -, -, hne, -⟩ := hsync.pending hpending
      exact hne rfl)
    rw [finish_of_none hcur, streamBits_reverse_cons]
    rw [← htable] at hbits
    refine ⟨d, _, hreach, turn_of_endCode (htable ▸ hsound.sized.width_ge) hbits, ?_, congrArg Table.next htable,
      congrArg Table.width htable⟩
    exact (List.append_nil _).symm.trans hsync.out
  · obtain ⟨cur, hcur, hlookup, -, hstop, hlt⟩ := hmatch.cons hinput
    rw [finish_of_cur hcur, streamBits_reverse_cons, streamBits_reverse_cons]
    obtain ⟨d, hreach, hbits, hsync⟩ := hdec (codeBits cur (fed cfg input).table.width ++
      (codeBits 256 ((fed cfg input).table.reserve cfg none).1.width ++ rest))
    have hturn := hsync.turn (cfg := cfg) hbits hlookup hstop hlt (codeFits_of_lt hsound.sized hlt).1 hcap
    have htable := reserveNext_table (cfg := cfg) (fed cfg input).table
      (codeBits 256 ((fed cfg input).table.reserve cfg none).1.width ++ rest) input (some w) d.pending
    have hsized := hsound.sized.reserve hcfg none
    refine ⟨_, _, hreach.more hturn, turn_of_endCode (rest := rest) ?_ ?_, DecState.reserveNext_out _ _,
      congrArg Table.next htable, congrArg Table.width htable⟩
    · rw [htable]
      exact hsized.width_ge
    · rw [htable]
      exact DecState.reserveNext_bits _ _

/-- Settles O38: the decoder is one code behind the encoder until the end-of-input code, whose padding it does not read. -/
theorem lzwRoundTrip : Obligations.LzwRoundTrip := by
  intro cfg cap input hcfg hcap
  have hbits : bytesToBits (encodeBytes cfg input) = padBits (streamBits (encodeState cfg input).emitted.reverse) :=
    bytesToBits_packCodes _
  obtain ⟨d, st, hreach, hstop, hout, hnext, hwidth⟩ := exists_stop hcfg hcap (List.replicate _ false)
  refine ⟨st, (decodeState_eq_iff hcfg).mpr ⟨d, ?_, DecTurn.answer_eq_ok.mpr hstop⟩, hout, hnext, hwidth⟩
  rw [hbits]
  exact hreach

end Sys2Proof.Machine.Lzw
end

section
/-! One lifting step and the order of the steps (42_lifting.md R204 to R206, R210). -/

namespace Sys2Proof.Machine

/-! ## Lists by index -/

theorem ext_getD {l l' : List Int} (hlength : l.length = l'.length) (h : ∀ i < l.length, l.getD i 0 = l'.getD i 0) :
    l = l' := by
  refine List.ext_getElem hlength fun i hi hi' => ?_
  have heq := h i hi
  rwa [List.getD_eq_getElem _ _ hi, List.getD_eq_getElem _ _ hi'] at heq

theorem getD_map_range (f : Nat → Int) {n i : Nat} (hi : i < n) : ((List.range n).map f).getD i 0 = f i := by
  simp [List.getD_eq_getElem?_getD, hi]

theorem eq_map_range {l : List Int} {n : Nat} {f : Nat → Int} (hlength : l.length = n)
    (h : ∀ i < n, l.getD i 0 = f i) : l = (List.range n).map f :=
  ext_getD (by simpa using hlength) fun i hi => (h i (hlength ▸ hi)).trans (getD_map_range f (hlength ▸ hi)).symm

theorem getD_map_of_lt (f : Int → Int) {l : List Int} {i : Nat} (hi : i < l.length) :
    (l.map f).getD i 0 = f (l.getD i 0) := by
  rw [List.getD_eq_getElem _ _ (by rwa [List.length_map]), List.getD_eq_getElem _ _ hi, List.getElem_map]

theorem getD_take {α : Type} (l : List α) {n i : Nat} (hi : i < n) (a : α) : (l.take n).getD i a = l.getD i a := by
  rw [List.getD_eq_getElem?_getD, List.getElem?_take_of_lt hi, ← List.getD_eq_getElem?_getD]

theorem getD_drop {α : Type} (l : List α) (n i : Nat) (a : α) : (l.drop n).getD i a = l.getD (n + i) a := by
  rw [List.getD_eq_getElem?_getD, List.getElem?_drop, ← List.getD_eq_getElem?_getD]

/-- A property of every element holds of the elements by index. -/
theorem getD_of_forall {p : Int → Prop} {l : List Int} (h : ∀ v ∈ l, p v) {i : Nat} (hi : i < l.length) :
    p (l.getD i 0) := by
  rw [List.getD_eq_getElem _ _ hi]
  exact h _ (List.getElem_mem hi)

/-! ## Flagged functions by index -/

@[simp] theorem collect_mapIdx_length (l : List Int) (g : Nat → Int → Int × Bool) :
    (collect (l.mapIdx g)).1.length = l.length := by
  simp [collect]

theorem collect_mapIdx_getD (l : List Int) (g : Nat → Int → Int × Bool) {i : Nat} (hi : i < l.length) :
    (collect (l.mapIdx g)).1.getD i 0 = (g i (l.getD i 0)).1 := by
  simp [collect, List.getD_eq_getElem?_getD, hi]

theorem collect_mapIdx_flag (l : List Int) (g : Nat → Int → Int × Bool) :
    (collect (l.mapIdx g)).2 = true ↔ ∃ i < l.length, (g i (l.getD i 0)).2 = true := by
  rw [collect, any_mapIdx]
  refine exists_congr fun i => ⟨?_, ?_⟩
  · rintro ⟨hi, hg⟩
    exact ⟨hi, by rwa [List.getD_eq_getElem _ _ hi]⟩
  · rintro ⟨hi, hg⟩
    exact ⟨hi, by rwa [List.getD_eq_getElem _ _ hi] at hg⟩

/-! ## One step (R205, R206) -/

theorem Bands.lift_predict {st : LiftStep} (htag : st.tag = .predict) (sign : Int) (b : Bands) : b.lift sign st =
    (⟨b.approx, (collect (b.detail.mapIdx fun i x =>
        liftElem (-sign) x (st.value (predictTaps b.approx i st.taps.length)))).1⟩,
      (collect (b.detail.mapIdx fun i x =>
        liftElem (-sign) x (st.value (predictTaps b.approx i st.taps.length)))).2) := by
  rw [Bands.lift, htag]

theorem Bands.lift_update {st : LiftStep} (htag : st.tag = .update) (sign : Int) (b : Bands) : b.lift sign st =
    (⟨(collect (b.approx.mapIdx fun i x =>
        liftElem sign x (st.value (updateTaps b.detail i st.taps.length)))).1, b.detail⟩,
      (collect (b.approx.mapIdx fun i x =>
        liftElem sign x (st.value (updateTaps b.detail i st.taps.length)))).2) := by
  rw [Bands.lift, htag]

@[simp] theorem Bands.length_lift_approx (sign : Int) (st : LiftStep) (b : Bands) :
    (b.lift sign st).1.approx.length = b.approx.length := by
  cases htag : st.tag with
  | predict => rw [Bands.lift_predict htag]
  | update => rw [Bands.lift_update htag]; exact collect_mapIdx_length _ _

@[simp] theorem Bands.length_lift_detail (sign : Int) (st : LiftStep) (b : Bands) :
    (b.lift sign st).1.detail.length = b.detail.length := by
  cases htag : st.tag with
  | predict => rw [Bands.lift_predict htag]; exact collect_mapIdx_length _ _
  | update => rw [Bands.lift_update htag]

theorem liftElem_flag {sign x : Int} {f : Int × Bool} :
    (liftElem sign x f).2 = true ↔ f.2 = true ∨ ¬Coef32 (x + sign * f.1) := by
  rw [liftElem, Bool.or_eq_true, ovf32_eq_true]

/-- Settles O43: a step is `liftElem` at each index of one band. -/
theorem liftingStepActsOnOneBand : Obligations.LiftingStepActsOnOneBand := by
  intro st b sign _ na nd P y p u
  have hminus : ∀ x f : Int, x + -sign * f = x - sign * f := fun x f => by rw [neg_mul, ← sub_eq_add_neg]
  refine ⟨fun htag => ?predict, fun htag => ?update⟩
  case predict =>
    have hy : y = _ := Bands.lift_predict htag sign b
    rw [hy]
    refine ⟨rfl, collect_mapIdx_length _ _, fun i hi => ?_, (collect_mapIdx_flag _ _).trans ?_⟩
    · exact (collect_mapIdx_getD _ _ hi).trans (congrArg wrap32 (hminus _ _))
    · simp only [liftElem_flag, hminus]
      rfl
  case update =>
    have hy : y = _ := Bands.lift_update htag sign b
    rw [hy]
    refine ⟨rfl, collect_mapIdx_length _ _, fun i hi => collect_mapIdx_getD _ _ hi, (collect_mapIdx_flag _ _).trans ?_⟩
    simp only [liftElem_flag]
    rfl

/-! ## 32-bit bands, and the opposite step (R210, R213) -/

/-- Both bands hold 32-bit values. -/
def Bands.Coef (b : Bands) : Prop := (∀ v ∈ b.approx, Coef32 v) ∧ ∀ v ∈ b.detail, Coef32 v

/-- Every result of a step is a wrapped value. -/
theorem coef32_of_mem_collect {l : List Int} {sign : Int} {f : Nat → Int × Bool} {v : Int}
    (hv : v ∈ (collect (l.mapIdx fun i x => liftElem sign x (f i))).1) : Coef32 v := by
  obtain ⟨out, hout, rfl⟩ := List.mem_map.mp hv
  obtain ⟨i, hi, rfl⟩ := List.mem_mapIdx.mp hout
  exact wrap32_range _

theorem Bands.Coef.lift {b : Bands} (h : b.Coef) (sign : Int) (st : LiftStep) : (b.lift sign st).1.Coef := by
  obtain ⟨happrox, hdetail⟩ := h
  cases htag : st.tag with
  | predict => rw [Bands.lift_predict htag]; exact ⟨happrox, fun _ => coef32_of_mem_collect⟩
  | update => rw [Bands.lift_update htag]; exact ⟨fun _ => coef32_of_mem_collect, hdetail⟩

/-- Adding the same values with the opposite sign restores the band, wraps or not (R210). -/
theorem collect_liftElem_undo {l : List Int} (hl : ∀ v ∈ l, Coef32 v) {sign sign' : Int} (hsign : sign' = -sign)
    (f : Nat → Int × Bool) : (collect ((collect (l.mapIdx fun i x => liftElem sign x (f i))).1.mapIdx fun i x =>
      liftElem sign' x (f i))).1 = l := by
  refine ext_getD (by simp) fun i hi => ?_
  rw [collect_mapIdx_length, collect_mapIdx_length] at hi
  rw [collect_mapIdx_getD _ _ (by rwa [collect_mapIdx_length]), collect_mapIdx_getD _ _ hi, liftElem, liftElem, hsign,
    neg_mul, ← sub_eq_add_neg]
  exact wrap32_sub_wrap32_add (getD_of_forall hl hi) _

/-- The inverse step undoes the forward one: the band it reads is the one the step left alone. -/
theorem Bands.lift_undo {b : Bands} (h : b.Coef) (st : LiftStep) : ((b.lift 1 st).1.lift (-1) st).1 = b := by
  obtain ⟨happrox, hdetail⟩ := h
  cases htag : st.tag with
  | predict =>
    rw [Bands.lift_predict htag 1, Bands.lift_predict htag (-1)]
    exact congrArg (Bands.mk b.approx) (collect_liftElem_undo hdetail rfl _)
  | update =>
    rw [Bands.lift_update htag 1, Bands.lift_update htag (-1)]
    exact congrArg (Bands.mk · b.detail) (collect_liftElem_undo happrox rfl _)

/-! ## Steps in order -/

/-- A run that collects a flag: the flag at its start is collected too. -/
theorem foldl_flag {α β : Type} (g : α → β → α × Bool) (l : List β) (a : α) (p : Bool) :
    l.foldl (fun acc x => ((g acc.1 x).1, acc.2 || (g acc.1 x).2)) (a, p) =
      ((l.foldl (fun acc x => ((g acc.1 x).1, acc.2 || (g acc.1 x).2)) (a, false)).1,
        p || (l.foldl (fun acc x => ((g acc.1 x).1, acc.2 || (g acc.1 x).2)) (a, false)).2) := by
  induction l generalizing a p with
  | nil => exact Prod.ext rfl (Bool.or_false p).symm
  | cons x l ih =>
    rw [List.foldl_cons, List.foldl_cons, ih, ih (p := false || _), Bool.false_or, Bool.or_assoc]

@[simp] theorem Bands.liftAll_nil (sign : Int) (b : Bands) : Bands.liftAll sign [] b = (b, false) := rfl

theorem Bands.liftAll_cons (sign : Int) (st : LiftStep) (steps : List LiftStep) (b : Bands) :
    Bands.liftAll sign (st :: steps) b = ((Bands.liftAll sign steps (b.lift sign st).1).1,
      (b.lift sign st).2 || (Bands.liftAll sign steps (b.lift sign st).1).2) := by
  rw [Bands.liftAll, List.foldl_cons, foldl_flag fun (b : Bands) st => b.lift sign st, Bool.false_or]
  rfl

theorem Bands.liftAll_snoc (sign : Int) (steps : List LiftStep) (st : LiftStep) (b : Bands) :
    (Bands.liftAll sign (steps ++ [st]) b).1 = ((Bands.liftAll sign steps b).1.lift sign st).1 := by
  rw [Bands.liftAll, List.foldl_append]
  rfl

@[simp] theorem Bands.length_liftAll_approx (sign : Int) (steps : List LiftStep) (b : Bands) :
    (Bands.liftAll sign steps b).1.approx.length = b.approx.length := by
  induction steps generalizing b with
  | nil => rfl
  | cons st steps ih => rw [Bands.liftAll_cons, ih, Bands.length_lift_approx]

@[simp] theorem Bands.length_liftAll_detail (sign : Int) (steps : List LiftStep) (b : Bands) :
    (Bands.liftAll sign steps b).1.detail.length = b.detail.length := by
  induction steps generalizing b with
  | nil => rfl
  | cons st steps ih => rw [Bands.liftAll_cons, ih, Bands.length_lift_detail]

theorem Bands.Coef.liftAll {b : Bands} (h : b.Coef) (sign : Int) (steps : List LiftStep) :
    (Bands.liftAll sign steps b).1.Coef := by
  induction steps generalizing b with
  | nil => exact h
  | cons st steps ih => rw [Bands.liftAll_cons]; exact ih (h.lift sign st)

/-- The steps in reverse order with the opposite sign undo the steps (R206, R213). -/
theorem Bands.liftAll_undo {b : Bands} (h : b.Coef) (steps : List LiftStep) :
    (Bands.liftAll (-1) steps.reverse (Bands.liftAll 1 steps b).1).1 = b := by
  induction steps using List.reverseRecOn with
  | nil => rfl
  | append_singleton steps st ih =>
    rw [Bands.liftAll_snoc, List.reverse_append, List.reverse_singleton, List.singleton_append, Bands.liftAll_cons,
      Bands.lift_undo (h.liftAll 1 steps), ih]

end Sys2Proof.Machine
end

section
/-! The 1D transform (42_lifting.md R203, R205 to R207, R213). -/

namespace Sys2Proof.Machine

/-! ## Even and odd samples -/

theorem length_evens (x : List Int) : (evens x).length = (x.length + 1) / 2 := by
  induction x using evens.induct with
  | case1 => rfl
  | case2 a => simp [evens]
  | case3 a b rest ih =>
    rw [evens, List.length_cons, ih]
    simp only [List.length_cons]
    omega

theorem length_odds (x : List Int) : (odds x).length = x.length / 2 := by
  induction x using evens.induct with
  | case1 => rfl
  | case2 a => simp [odds]
  | case3 a b rest ih =>
    rw [odds, List.length_cons, ih]
    simp only [List.length_cons]
    omega

theorem getD_evens (x : List Int) (i : Nat) : (evens x).getD i 0 = x.getD (2 * i) 0 := by
  induction x using evens.induct generalizing i with
  | case1 => rfl
  | case2 a => cases i <;> rfl
  | case3 a b rest ih =>
    cases i with
    | zero => rfl
    | succ i => exact ih i

theorem getD_odds (x : List Int) (i : Nat) : (odds x).getD i 0 = x.getD (2 * i + 1) 0 := by
  induction x using evens.induct generalizing i with
  | case1 => rfl
  | case2 a => rfl
  | case3 a b rest ih =>
    cases i with
    | zero => rfl
    | succ i => exact ih i

/-- The two bands interleave to the sequence (R205, R206). -/
theorem interleave_evens_odds (x : List Int) : interleave (evens x) (odds x) = x := by
  induction x using evens.induct with
  | case1 => rfl
  | case2 a => rfl
  | case3 a b rest ih => rw [evens, odds, interleave, ih]

/-- The bands of an interleaved sequence are the ones interleaved. -/
theorem evens_odds_interleave {a d : List Int} (h : a.length = d.length ∨ a.length = d.length + 1) :
    evens (interleave a d) = a ∧ odds (interleave a d) = d := by
  induction a, d using interleave.induct with
  | case1 d =>
    obtain rfl : d = [] := List.eq_nil_of_length_eq_zero (by rw [List.length_nil] at h; omega)
    exact ⟨rfl, rfl⟩
  | case2 x as =>
    obtain rfl : as = [] := List.length_eq_zero_iff.mp (by simpa using h)
    exact ⟨rfl, rfl⟩
  | case3 x as y ds ih =>
    obtain ⟨ha, hd⟩ := ih (by simpa using h)
    rw [interleave, evens, odds, ha, hd]
    exact ⟨rfl, rfl⟩

theorem length_interleave {a d : List Int} (h : a.length = d.length ∨ a.length = d.length + 1) :
    (interleave a d).length = a.length + d.length := by
  obtain ⟨ha, hd⟩ := evens_odds_interleave h
  have hlength := length_evens (interleave a d)
  have hlength' := length_odds (interleave a d)
  rw [ha] at hlength
  rw [hd] at hlength'
  omega

theorem mem_of_mem_evens {x : List Int} {v : Int} (h : v ∈ evens x) : v ∈ x := by
  induction x using evens.induct with
  | case1 => exact h
  | case2 a => exact h
  | case3 a b rest ih =>
    obtain rfl | h := List.mem_cons.mp h
    · exact List.mem_cons_self
    · exact List.mem_cons_of_mem _ (List.mem_cons_of_mem _ (ih h))

theorem mem_of_mem_odds {x : List Int} {v : Int} (h : v ∈ odds x) : v ∈ x := by
  induction x using evens.induct with
  | case1 => cases h
  | case2 a => cases h
  | case3 a b rest ih =>
    obtain rfl | h := List.mem_cons.mp h
    · exact List.mem_cons_of_mem _ List.mem_cons_self
    · exact List.mem_cons_of_mem _ (List.mem_cons_of_mem _ (ih h))

/-- The bands of a sequence, even samples first (R205). -/
def bandsOf (x : List Int) : Bands := ⟨evens x, odds x⟩

theorem coef_bandsOf {x : List Int} (h : ∀ v ∈ x, Coef32 v) : (bandsOf x).Coef :=
  ⟨fun v hv => h v (mem_of_mem_evens hv), fun v hv => h v (mem_of_mem_odds hv)⟩

/-! ## Scale factors -/

@[simp] theorem length_scaleBand (k : Nat) (xs : List Int) : (scaleBand k xs).1.length = xs.length := by
  simp [scaleBand, collect]

theorem getD_scaleBand (k : Nat) {xs : List Int} {i : Nat} (hi : i < xs.length) :
    (scaleBand k xs).1.getD i 0 = wrap32 (xs.getD i 0 * k) := by
  simp [scaleBand, collect, wrapFlag, List.getD_eq_getElem?_getD, hi]

theorem scaleBand_flag (k : Nat) (xs : List Int) :
    (scaleBand k xs).2 = true ↔ ∃ i < xs.length, ¬Coef32 (xs.getD i 0 * k) := by
  have hmap : (xs.map fun x => wrapFlag (x * k)) = xs.mapIdx fun _ x => wrapFlag (x * k) :=
    List.ext_getElem (by simp) fun i _ _ => by simp
  rw [scaleBand, hmap, collect_mapIdx_flag]
  exact exists_congr fun i => and_congr_right fun _ => ovf32_eq_true

/-- Dividing undoes a multiplication that did not wrap (R206). -/
theorem map_tdiv_scaleBand {k : Nat} (hk : 1 ≤ k) {xs : List Int} (h : ∀ v ∈ xs, Coef32 (v * k)) :
    ((scaleBand k xs).1.map fun v => tdiv v k) = xs := by
  rw [scaleBand, collect, List.map_map, List.map_map]
  refine (List.map_congr_left fun v hv => ?_).trans (List.map_id' xs)
  change tdiv (wrap32 (v * k)) k = v
  rw [wrap32_of_range (h v hv)]
  exact Int.mul_tdiv_cancel v (Nat.cast_ne_zero.mpr (Nat.one_le_iff_ne_zero.mp hk))

/-! ## Forward and inverse (R205 to R207) -/

namespace Lifting

/-- The bands after the steps of the forward transform. -/
def lifted (T : Lifting) (x : List Int) : Bands × Bool := Bands.liftAll 1 T.steps (bandsOf x)

variable {T : Lifting} {x : List Int}

theorem forward_short (hx : x.length < 2) : T.forward x = (x, false) := if_pos hx

theorem inverse_short (hx : x.length < 2) : T.inverse x = (x, false) := if_pos hx

theorem forward_eq (hx : 2 ≤ x.length) : T.forward x =
    ((scaleBand T.ka (T.lifted x).1.approx).1 ++ (scaleBand T.kd (T.lifted x).1.detail).1,
      (T.lifted x).2 || (scaleBand T.ka (T.lifted x).1.approx).2 || (scaleBand T.kd (T.lifted x).1.detail).2) :=
  if_neg (Nat.not_lt.mpr hx)

@[simp] theorem length_lifted_approx (T : Lifting) (x : List Int) :
    (T.lifted x).1.approx.length = (x.length + 1) / 2 :=
  (Bands.length_liftAll_approx ..).trans (length_evens x)

@[simp] theorem length_lifted_detail (T : Lifting) (x : List Int) : (T.lifted x).1.detail.length = x.length / 2 :=
  (Bands.length_liftAll_detail ..).trans (length_odds x)

theorem length_forward (T : Lifting) (x : List Int) : (T.forward x).1.length = x.length := by
  obtain hx | hx := Nat.lt_or_ge x.length 2
  · rw [forward_short hx]
  · rw [forward_eq hx, List.length_append, length_scaleBand, length_scaleBand, length_lifted_approx,
      length_lifted_detail]
    omega

/-- The approximation stands first. -/
theorem forward_getD_approx (hx : 2 ≤ x.length) {i : Nat} (hi : i < (x.length + 1) / 2) :
    (T.forward x).1.getD i 0 = wrap32 ((T.lifted x).1.approx.getD i 0 * T.ka) := by
  rw [forward_eq hx, List.getD_append _ _ _ _ (by simpa using hi), getD_scaleBand _ (by simpa using hi)]

theorem forward_getD_detail (hx : 2 ≤ x.length) {i : Nat} (hi : i < x.length / 2) :
    (T.forward x).1.getD ((x.length + 1) / 2 + i) 0 = wrap32 ((T.lifted x).1.detail.getD i 0 * T.kd) := by
  rw [forward_eq hx, List.getD_append_right _ _ _ _ (by simp), length_scaleBand, length_lifted_approx,
    Nat.add_sub_cancel_left, getD_scaleBand _ (by simpa using hi)]

theorem forward_flag (hx : 2 ≤ x.length) : (T.forward x).2 = true ↔ (T.lifted x).2 = true ∨
    (∃ i < (x.length + 1) / 2, ¬Coef32 ((T.lifted x).1.approx.getD i 0 * T.ka)) ∨
    ∃ i < x.length / 2, ¬Coef32 ((T.lifted x).1.detail.getD i 0 * T.kd) := by
  rw [forward_eq hx, Bool.or_eq_true, Bool.or_eq_true, scaleBand_flag, scaleBand_flag, length_lifted_approx,
    length_lifted_detail, or_assoc]

/-- The bands of the inverse transform, their scale factors divided away (R206). -/
def divided (T : Lifting) (y : List Int) : Bands :=
  ⟨(y.take ((y.length + 1) / 2)).map fun v => tdiv v T.ka, (y.drop ((y.length + 1) / 2)).map fun v => tdiv v T.kd⟩

/-- The bands after the steps of the inverse transform. -/
def unlifted (T : Lifting) (y : List Int) : Bands × Bool := Bands.liftAll (-1) T.steps.reverse (T.divided y)

theorem inverse_eq (hx : 2 ≤ x.length) : T.inverse x =
    (interleave (T.unlifted x).1.approx (T.unlifted x).1.detail, (T.unlifted x).2) :=
  if_neg (Nat.not_lt.mpr hx)

@[simp] theorem length_unlifted_approx (T : Lifting) (y : List Int) :
    (T.unlifted y).1.approx.length = (y.length + 1) / 2 := by
  refine (Bands.length_liftAll_approx ..).trans ?_
  rw [divided, List.length_map, List.length_take]
  omega

@[simp] theorem length_unlifted_detail (T : Lifting) (y : List Int) : (T.unlifted y).1.detail.length = y.length / 2 := by
  refine (Bands.length_liftAll_detail ..).trans ?_
  rw [divided, List.length_map, List.length_drop]
  omega

/-- The bands of the inverse transform can be interleaved by parity. -/
theorem unlifted_parity (T : Lifting) (y : List Int) :
    (T.unlifted y).1.approx.length = (T.unlifted y).1.detail.length ∨
      (T.unlifted y).1.approx.length = (T.unlifted y).1.detail.length + 1 := by
  rw [length_unlifted_approx, length_unlifted_detail]
  omega

theorem length_inverse (T : Lifting) (x : List Int) : (T.inverse x).1.length = x.length := by
  obtain hx | hx := Nat.lt_or_ge x.length 2
  · rw [inverse_short hx]
  · rw [inverse_eq hx, length_interleave (T.unlifted_parity x), length_unlifted_approx, length_unlifted_detail]
    omega

theorem inverse_getD_even (hx : 2 ≤ x.length) (i : Nat) :
    (T.inverse x).1.getD (2 * i) 0 = (T.unlifted x).1.approx.getD i 0 := by
  rw [inverse_eq hx, ← getD_evens, (evens_odds_interleave (T.unlifted_parity x)).1]

theorem inverse_getD_odd (hx : 2 ≤ x.length) (i : Nat) :
    (T.inverse x).1.getD (2 * i + 1) 0 = (T.unlifted x).1.detail.getD i 0 := by
  rw [inverse_eq hx, ← getD_odds, (evens_odds_interleave (T.unlifted_parity x)).2]

/-- The divided bands by index. -/
theorem divided_eq (T : Lifting) (y : List Int) : T.divided y =
    ⟨(List.range ((y.length + 1) / 2)).map fun i => Int.tdiv (y.getD i 0) T.ka,
      (List.range (y.length / 2)).map fun i => Int.tdiv (y.getD ((y.length + 1) / 2 + i) 0) T.kd⟩ := by
  have htake : (y.take ((y.length + 1) / 2)).length = (y.length + 1) / 2 := List.length_take_of_le (by omega)
  have hdrop : (y.drop ((y.length + 1) / 2)).length = y.length / 2 := by
    rw [List.length_drop]
    omega
  refine congrArg₂ Bands.mk (eq_map_range (by rw [List.length_map, htake]) fun i hi => ?_)
    (eq_map_range (by rw [List.length_map, hdrop]) fun i hi => ?_)
  · rw [getD_map_of_lt _ (htake.symm ▸ hi), getD_take _ hi, tdiv]
  · rw [getD_map_of_lt _ (hdrop.symm ▸ hi), getD_drop, tdiv]

/-- The inverse of the forward transform, when no scale multiplication wraps (R213). -/
theorem inverse_forward (hka : 1 ≤ T.ka) (hkd : 1 ≤ T.kd) (hx : ∀ v ∈ x, Coef32 v)
    (ha : ∀ v ∈ (T.lifted x).1.approx, Coef32 (v * T.ka)) (hd : ∀ v ∈ (T.lifted x).1.detail, Coef32 (v * T.kd)) :
    (T.inverse (T.forward x).1).1 = x := by
  obtain hshort | hlong := Nat.lt_or_ge x.length 2
  · rw [forward_short hshort, inverse_short hshort]
  have hlength := T.length_forward x
  have hna : ((T.forward x).1.length + 1) / 2 = (scaleBand T.ka (T.lifted x).1.approx).1.length := by
    rw [hlength, length_scaleBand, length_lifted_approx]
  have hdivided : T.divided (T.forward x).1 = (T.lifted x).1 := by
    rw [divided, hna, forward_eq hlong, List.take_left, List.drop_left, map_tdiv_scaleBand hka ha,
      map_tdiv_scaleBand hkd hd]
  have hundone : (T.unlifted (T.forward x).1).1 = bandsOf x := by
    rw [unlifted, hdivided]
    exact Bands.liftAll_undo (coef_bandsOf hx) T.steps
  rw [inverse_eq (hlength.symm ▸ hlong), hundone]
  exact interleave_evens_odds x

/-- With unit scales nothing is lost (R213). -/
theorem inverse_forward_of_unit (hka : T.ka = 1) (hkd : T.kd = 1) (hx : ∀ v ∈ x, Coef32 v) :
    (T.inverse (T.forward x).1).1 = x := by
  obtain ⟨happrox, hdetail⟩ := (coef_bandsOf hx).liftAll 1 T.steps
  refine inverse_forward hka.ge hkd.ge hx (fun v hv => ?_) fun v hv => ?_
  · rw [hka, Nat.cast_one, mul_one]
    exact happrox v hv
  · rw [hkd, Nat.cast_one, mul_one]
    exact hdetail v hv

end Lifting

/-- Settles O46: the opposite steps in reverse order undo the steps, and division undoes a multiplication that did not
wrap. -/
theorem oneDimensionalRoundTrip : Obligations.OneDimensionalRoundTrip := fun _ _ hka hkd hx =>
  ⟨Lifting.inverse_forward hka hkd hx, fun hka hkd => Lifting.inverse_forward_of_unit hka hkd hx⟩

/-- The step list of a custom transform (R203). -/
theorem Regs.customLifting_step (r : Regs) {k : Fin 8} (hk : k.val < r.nsteps) :
    r.customLifting.steps[k.val]? = some (decodeStep r.stepCtrl[k] r.stepCoef[k]) := by
  simp [Regs.customLifting, Regs.step, Regs.stepCtrlAt, Regs.stepCoefWord, hk]

/-- The bands of a sequence by index. -/
theorem bandsOf_eq (x : List Int) : bandsOf x =
    ⟨(List.range ((x.length + 1) / 2)).map fun i => x.getD (2 * i) 0,
      (List.range (x.length / 2)).map fun i => x.getD (2 * i + 1) 0⟩ :=
  congrArg₂ Bands.mk (eq_map_range (length_evens x) fun i _ => getD_evens x i)
    (eq_map_range (length_odds x) fun i _ => getD_odds x i)

/-- Settles O42: the bands are those of the even and odd samples, scaled by index. -/
theorem transformRunsStepsInOrderAndScales : Obligations.TransformRunsStepsInOrderAndScales := by
  refine ⟨fun sign b st steps => ⟨rfl, Bands.liftAll_cons sign st steps b⟩, fun T x => ?transform, fun r _ => ?custom⟩
  case transform =>
    dsimp only
    rw [← bandsOf_eq x, ← T.divided_eq x]
    exact ⟨fun hshort => ⟨Lifting.forward_short hshort, Lifting.inverse_short hshort⟩, fun hx =>
      ⟨T.length_forward x, fun i hi => Lifting.forward_getD_approx hx hi,
        fun i hi => Lifting.forward_getD_detail hx hi, Lifting.forward_flag hx, T.length_inverse x,
        fun i _ => Lifting.inverse_getD_even hx i, fun i _ => Lifting.inverse_getD_odd hx i,
        congrArg Prod.snd (Lifting.inverse_eq hx)⟩⟩
  case custom =>
    exact ⟨rfl, rfl, (List.length_map _).trans List.length_range, fun k hk => r.customLifting_step hk⟩

end Sys2Proof.Machine
end

section
/-! The presets as formulas (42_lifting.md R208, R209; 90_conflicts.md C6). -/

namespace Sys2Proof.Machine

/-! ## A predict step and an update step with unit scales -/

namespace Lifting

variable {T : Lifting} {x : List Int}

theorem forward_getD_approx_of_unit (hka : T.ka = 1) (hx : 2 ≤ x.length) {i : Nat} (hi : i < (x.length + 1) / 2)
    (hcoef : ∀ v ∈ x, Coef32 v) : (T.forward x).1.getD i 0 = (T.lifted x).1.approx.getD i 0 := by
  have happrox := ((coef_bandsOf hcoef).liftAll 1 T.steps).1
  rw [forward_getD_approx hx hi, hka, Nat.cast_one, mul_one]
  exact wrap32_of_range (getD_of_forall happrox ((T.length_lifted_approx x).symm ▸ hi))

theorem forward_getD_detail_of_unit (hkd : T.kd = 1) (hx : 2 ≤ x.length) {i : Nat} (hi : i < x.length / 2)
    (hcoef : ∀ v ∈ x, Coef32 v) :
    (T.forward x).1.getD ((x.length + 1) / 2 + i) 0 = (T.lifted x).1.detail.getD i 0 := by
  have hdetail := ((coef_bandsOf hcoef).liftAll 1 T.steps).2
  rw [forward_getD_detail hx hi, hkd, Nat.cast_one, mul_one]
  exact wrap32_of_range (getD_of_forall hdetail ((T.length_lifted_detail x).symm ▸ hi))

/-- A transform of one predict step and one update step: the detail from the even samples, then the approximation from
the detail. -/
theorem forward_of_predict_update {p u : LiftStep} (hsteps : T.steps = [p, u]) (hp : p.tag = .predict)
    (hu : u.tag = .update) (hka : T.ka = 1) (hkd : T.kd = 1) (hx : 2 ≤ x.length) (hcoef : ∀ v ∈ x, Coef32 v) :
    let y := (T.forward x).1
    let na := (x.length + 1) / 2
    let nd := x.length / 2
    (∀ i < nd, y.getD (na + i) 0 =
      wrap32 (x.getD (2 * i + 1) 0 - (p.value (predictTaps (evens x) i p.taps.length)).1)) ∧
    (∀ i < na, y.getD i 0 = wrap32 (x.getD (2 * i) 0 +
      (u.value ((List.range u.taps.length).map fun j => y.getD (na + (i + j) % nd) 0)).1)) := by
  intro y na nd
  have hlifted : (T.lifted x).1 = (((bandsOf x).lift 1 p).1.lift 1 u).1 := by
    rw [lifted, hsteps, Bands.liftAll_cons, Bands.liftAll_cons]
    rfl
  have hdetail : ∀ i < nd, y.getD (na + i) 0 = ((bandsOf x).lift 1 p).1.detail.getD i 0 := fun i hi => by
    rw [forward_getD_detail_of_unit hkd hx hi hcoef, hlifted, Bands.lift_update hu]
  constructor
  · intro i hi
    have hi' : i < (odds x).length := (length_odds x).symm ▸ hi
    rw [hdetail i hi, Bands.lift_predict hp, ← getD_odds]
    refine (collect_mapIdx_getD _ _ hi').trans (congrArg wrap32 ?_)
    rw [neg_mul, one_mul, ← sub_eq_add_neg]
    rfl
  · intro i hi
    have hi' : i < ((bandsOf x).lift 1 p).1.approx.length := by
      rw [Bands.length_lift_approx]
      exact (length_evens x).symm ▸ hi
    have htaps : updateTaps ((bandsOf x).lift 1 p).1.detail i u.taps.length =
        (List.range u.taps.length).map fun j => y.getD (na + (i + j) % nd) 0 := by
      rw [updateTaps, Bands.length_lift_detail, show (bandsOf x).detail.length = nd from length_odds x]
      exact List.map_congr_left fun j _ => (hdetail _ (Nat.mod_lt _ (by omega))).symm
    rw [forward_getD_approx_of_unit hka hx hi hcoef, hlifted, Bands.lift_update hu, ← htaps, ← getD_evens]
    refine (collect_mapIdx_getD _ _ hi').trans ?_
    rw [Bands.lift_predict hp, liftElem, one_mul]
    rfl

end Lifting

/-! ## The values of the presets' steps (R204) -/

theorem value_one_tap (tag : StepTag) (round : Int) (shift : Nat) (t : Int) :
    (LiftStep.value ⟨tag, [1], round, shift⟩ [t]).1 = wrap32 ((t + round) / 2 ^ shift) := by
  simp [LiftStep.value, wrapFlag, weightedSum, shiftRight, add_comm]

theorem value_two_taps (tag : StepTag) (round : Int) (shift : Nat) (t u : Int) :
    (LiftStep.value ⟨tag, [1, 1], round, shift⟩ [t, u]).1 = wrap32 ((t + u + round) / 2 ^ shift) := by
  simp [LiftStep.value, wrapFlag, weightedSum, shiftRight, add_comm]

theorem wrap32_half_sum {t u : Int} (ht : Coef32 t) (hu : Coef32 u) : wrap32 ((t + u) / 2) = (t + u) / 2 :=
  wrap32_of_range (by omega)

theorem wrap32_quarter_sum {t u : Int} (ht : Coef32 t) (hu : Coef32 u) : wrap32 ((t + u + 2) / 4) = (t + u + 2) / 4 :=
  wrap32_of_range (by omega)

/-- An element of a sequence of 32-bit values is one, and so is what lies beyond it. -/
theorem coef32_getD {x : List Int} (hx : ∀ v ∈ x, Coef32 v) (i : Nat) : Coef32 (x.getD i 0) := by
  obtain hi | hi := Nat.lt_or_ge i x.length
  · exact getD_of_forall hx hi
  · rw [List.getD_eq_default _ _ hi]
    decide

/-- The place of a tap before `i`, counted round (R205). -/
theorem tapIndex {i j n : Nat} (hj : j ≤ n) : (((i : Int) - j) % n).toNat = (i + n - j) % n := by
  have hcast : (i : Int) - j + n = ((i + n - j : Nat) : Int) := by omega
  rw [← Int.add_emod_right, hcast, ← Int.natCast_emod, Int.toNat_natCast]

theorem predictTaps_one {a : List Int} {i : Nat} (hi : i < a.length) : predictTaps a i 1 = [a.getD i 0] := by
  change [a.getD (((i : Int) - (0 : Nat)) % a.length).toNat 0] = _
  rw [tapIndex (Nat.zero_le _), Nat.sub_zero, Nat.add_mod_right, Nat.mod_eq_of_lt hi]

theorem predictTaps_two {a : List Int} {i : Nat} (hi : i < a.length) :
    predictTaps a i 2 = [a.getD i 0, a.getD ((i + a.length - 1) % a.length) 0] := by
  change [a.getD (((i : Int) - (0 : Nat)) % a.length).toNat 0, a.getD (((i : Int) - (1 : Nat)) % a.length).toNat 0] = _
  rw [tapIndex (Nat.zero_le _), tapIndex (Nat.one_le_of_lt hi), Nat.sub_zero, Nat.add_mod_right, Nat.mod_eq_of_lt hi]

/-- Settles O44: one tap each, the predict step without rounding or shift. -/
theorem haarForwardFormula : Obligations.HaarForwardFormula := by
  intro x hx hcoef y na nd
  obtain ⟨hdetail, happrox⟩ := Lifting.forward_of_predict_update (T := haarInt)
    (p := ⟨.predict, [1], 0, 0⟩) (u := ⟨.update, [1], 0, 1⟩) rfl rfl rfl rfl rfl hx hcoef
  refine ⟨haarInt.length_forward x, fun i hi => ?_, fun i hi => ?_⟩
  · have hi' : i < (evens x).length := by rw [length_evens]; omega
    have hvalue : (LiftStep.value ⟨.predict, [1], 0, 0⟩ (predictTaps (evens x) i 1)).1 = x.getD (2 * i) 0 := by
      rw [predictTaps_one hi', value_one_tap, getD_evens, add_zero, pow_zero, Int.ediv_one]
      exact wrap32_of_range (coef32_getD hcoef _)
    exact (hdetail i hi).trans (congrArg (fun f => wrap32 (x.getD (2 * i + 1) 0 - f)) hvalue)
  · have hd : Coef32 (y.getD (na + i % nd) 0) := by
      rw [show y.getD (na + i % nd) 0 = _ from hdetail _ (Nat.mod_lt _ (by omega))]
      exact wrap32_range _
    have hvalue : (LiftStep.value ⟨.update, [1], 0, 1⟩ [y.getD (na + i % nd) 0]).1 = y.getD (na + i % nd) 0 / 2 := by
      rw [value_one_tap, add_zero, pow_one]
      exact wrap32_of_range (by omega)
    exact (happrox i hi).trans (congrArg (fun f => wrap32 (x.getD (2 * i) 0 + f)) hvalue)

/-- Settles O45: two taps each, in the source's windows. -/
theorem bior22ForwardFormula : Obligations.Bior22ForwardFormula := by
  intro x hx hcoef y na nd
  obtain ⟨hdetail, happrox⟩ := Lifting.forward_of_predict_update (T := bior22Int)
    (p := ⟨.predict, [1, 1], 0, 1⟩) (u := ⟨.update, [1, 1], 2, 2⟩) rfl rfl rfl rfl rfl hx hcoef
  refine ⟨bior22Int.length_forward x, fun i hi => ?_, fun i hi => ?_⟩
  · have hi' : i < (evens x).length := by rw [length_evens]; omega
    have hvalue : (LiftStep.value ⟨.predict, [1, 1], 0, 1⟩ (predictTaps (evens x) i 2)).1 =
        (x.getD (2 * i) 0 + x.getD (2 * ((i + na - 1) % na)) 0) / 2 := by
      rw [predictTaps_two hi', value_two_taps, getD_evens, getD_evens, length_evens, add_zero, pow_one]
      exact wrap32_half_sum (coef32_getD hcoef _) (coef32_getD hcoef _)
    exact (hdetail i hi).trans (congrArg (fun f => wrap32 (x.getD (2 * i + 1) 0 - f)) hvalue)
  · have hd : ∀ k, Coef32 (y.getD (na + k % nd) 0) := fun k => by
      rw [show y.getD (na + k % nd) 0 = _ from hdetail _ (Nat.mod_lt _ (by omega))]
      exact wrap32_range _
    have hvalue : (LiftStep.value ⟨.update, [1, 1], 2, 2⟩ [y.getD (na + i % nd) 0, y.getD (na + (i + 1) % nd) 0]).1 =
        (y.getD (na + i % nd) 0 + y.getD (na + (i + 1) % nd) 0 + 2) / 4 := by
      rw [value_two_taps]
      exact wrap32_quarter_sum (hd i) (hd (i + 1))
    exact (happrox i hi).trans (congrArg (fun f => wrap32 (x.getD (2 * i) 0 + f)) hvalue)

end Sys2Proof.Machine
end

section
/-! The 2D driver: the order of its passes, and one pass (42_lifting.md R222, R223). -/

namespace Sys2Proof.Machine

/-! ## Levels in order -/

@[simp] theorem runLevels_nil (f : Grid → Nat × Nat → Grid × Bool) (g : Grid) : runLevels f [] g = (g, false) := rfl

theorem runLevels_cons (f : Grid → Nat × Nat → Grid × Bool) (wh : Nat × Nat) (ls : List (Nat × Nat)) (g : Grid) :
    runLevels f (wh :: ls) g = ((runLevels f ls (f g wh).1).1, (f g wh).2 || (runLevels f ls (f g wh).1).2) := by
  rw [runLevels, List.foldl_cons, foldl_flag f, Bool.false_or]
  rfl

theorem runLevels_snoc (f : Grid → Nat × Nat → Grid × Bool) (ls : List (Nat × Nat)) (wh : Nat × Nat) (g : Grid) :
    runLevels f (ls ++ [wh]) g =
      ((f (runLevels f ls g).1 wh).1, (runLevels f ls g).2 || (f (runLevels f ls g).1 wh).2) := by
  rw [runLevels, List.foldl_append]
  rfl

theorem forward2d_cons (T : Lifting) (wh : Nat × Nat) (ls : List (Nat × Nat)) (g : Grid) :
    forward2d T (wh :: ls) g = ((forward2d T ls (forwardLevel T g wh).1).1,
      (forwardLevel T g wh).2 || (forward2d T ls (forwardLevel T g wh).1).2) :=
  runLevels_cons (forwardLevel T) wh ls g

theorem inverse2d_cons (T : Lifting) (wh : Nat × Nat) (ls : List (Nat × Nat)) (g : Grid) :
    inverse2d T (wh :: ls) g = ((inverseLevel T (inverse2d T ls g).1 wh).1,
      (inverse2d T ls g).2 || (inverseLevel T (inverse2d T ls g).1 wh).2) := by
  rw [inverse2d, List.reverse_cons]
  exact runLevels_snoc (inverseLevel T) ls.reverse wh g

/-- Settles O48: the outermost level runs first forward and last back. -/
theorem levelsRunColumnsThenRows : Obligations.LevelsRunColumnsThenRows := fun T w h ls g =>
  ⟨⟨rfl, rfl⟩, forward2d_cons T (w, h) ls g,
    (inverse2d_cons T (w, h) ls g).trans (Prod.ext rfl (Bool.or_assoc _ _ _).symm)⟩

/-! ## One pass over a block -/

/-- Column `c` of the top `h` rows. -/
def columnOf (g : Grid) (h c : Nat) : List Int := (List.range h).map fun r => elemAt g r c

/-- Row `r` of the left `w` columns. -/
def rowOf (g : Grid) (w r : Nat) : List Int := (List.range w).map fun c => elemAt g r c

/-- The first `w` entries of each of the first `h` rows replaced. -/
def replaceBlock (w h : Nat) (front : Nat → List Int) (g : Grid) : Grid :=
  (g.take h).mapIdx (fun r row => front r ++ row.drop w) ++ g.drop h

section
variable {W H w h : Nat} {g : Grid} {front : Nat → List Int}

theorem IsGrid.length_getD (hg : IsGrid W H g) {r : Nat} (hr : r < H) : (g.getD r []).length = W := by
  have hrow : r < g.length := hg.1 ▸ hr
  rw [List.getD_eq_getElem _ _ hrow]
  exact hg.2 _ (List.getElem_mem hrow)

theorem replaceBlock_getD_of_lt (hg : IsGrid W H g) (hh : h ≤ H) {r : Nat} (hr : r < h) :
    (replaceBlock w h front g).getD r [] = front r ++ (g.getD r []).drop w := by
  have hlength : ((g.take h).mapIdx fun r row => front r ++ row.drop w).length = h := by
    rw [List.length_mapIdx, List.length_take, hg.1, Nat.min_eq_left hh]
  have hrow : r < g.length := hg.1 ▸ hr.trans_le hh
  rw [replaceBlock, List.getD_append _ _ _ _ (hlength.symm ▸ hr), List.getD_eq_getElem _ _ (hlength.symm ▸ hr),
    List.getD_eq_getElem _ _ hrow, List.getElem_mapIdx, List.getElem_take]

theorem replaceBlock_getD_of_ge (hg : IsGrid W H g) (hh : h ≤ H) {r : Nat} (hr : h ≤ r) :
    (replaceBlock w h front g).getD r [] = g.getD r [] := by
  have hlength : ((g.take h).mapIdx fun r row => front r ++ row.drop w).length = h := by
    rw [List.length_mapIdx, List.length_take, hg.1, Nat.min_eq_left hh]
  rw [replaceBlock, List.getD_append_right _ _ _ _ (hlength.symm ▸ hr), hlength, getD_drop,
    Nat.add_sub_cancel' hr]

theorem isGrid_replaceBlock (hg : IsGrid W H g) (hw : w ≤ W) (hh : h ≤ H) (hfront : ∀ r < h, (front r).length = w) :
    IsGrid W H (replaceBlock w h front g) := by
  have hlength : (replaceBlock w h front g).length = H := by
    rw [replaceBlock, List.length_append, List.length_mapIdx, List.length_take, List.length_drop, hg.1]
    omega
  refine ⟨hlength, fun row hrow => ?_⟩
  obtain ⟨r, hr, rfl⟩ := List.mem_iff_getElem.mp hrow
  have hrH : r < H := hlength ▸ hr
  rw [← List.getD_eq_getElem _ [] hr]
  obtain hin | hout := Nat.lt_or_ge r h
  · rw [replaceBlock_getD_of_lt hg hh hin, List.length_append, hfront r hin, List.length_drop, hg.length_getD hrH]
    exact Nat.add_sub_cancel' hw
  · rw [replaceBlock_getD_of_ge hg hh hout, hg.length_getD hrH]

theorem elemAt_replaceBlock (hg : IsGrid W H g) (hh : h ≤ H) (hfront : ∀ r < h, (front r).length = w) (r c : Nat) :
    elemAt (replaceBlock w h front g) r c = if r < h ∧ c < w then (front r).getD c 0 else elemAt g r c := by
  unfold elemAt
  obtain hr | hr := Nat.lt_or_ge r h
  · rw [replaceBlock_getD_of_lt hg hh hr]
    obtain hc | hc := Nat.lt_or_ge c w
    · rw [List.getD_append _ _ _ _ ((hfront r hr).symm ▸ hc), if_pos ⟨hr, hc⟩]
    · rw [List.getD_append_right _ _ _ _ ((hfront r hr).symm ▸ hc), hfront r hr, getD_drop,
        Nat.add_sub_cancel' hc, if_neg fun hin => hin.2.not_ge hc]
  · rw [replaceBlock_getD_of_ge hg hh hr, if_neg fun hin => hin.1.not_ge hr]

end

section
variable {W H w h : Nat} {g : Grid} (f : List Int → List Int × Bool)

/-- Entry `r` of a column. -/
theorem getD_map_row {g : Grid} {r : Nat} (hr : r < g.length) (c : Nat) :
    (g.map fun row => row.getD c 0).getD r 0 = (g.getD r []).getD c 0 := by
  rw [List.getD_eq_getElem _ _ (by rwa [List.length_map]), List.getElem_map, List.getD_eq_getElem _ _ hr]

theorem columnsOf_take (hg : IsGrid W H g) (hh : h ≤ H) :
    columnsOf w (g.take h) = (List.range w).map (columnOf g h) := by
  refine List.map_congr_left fun c _ => eq_map_range ?_ fun r hr => ?_
  · rw [List.length_map, List.length_take, hg.1, Nat.min_eq_left hh]
  · rw [elemAt, ← getD_take g hr]
    exact getD_map_row (hr.trans_eq (List.length_take_of_le (hh.trans hg.1.ge)).symm) c

theorem take_rows (hg : IsGrid W H g) (hw : w ≤ W) (hh : h ≤ H) :
    (g.take h).map (·.take w) = (List.range h).map (rowOf g w) := by
  refine List.ext_getElem (by rw [List.length_map, List.length_take, hg.1, List.length_map, List.length_range,
    Nat.min_eq_left hh]) fun r hr _ => ?_
  have hr : r < h := by simpa [hg.1, hh] using hr
  have hrow : r < g.length := hg.1 ▸ hr.trans_le hh
  have hlength : g[r].length = W := hg.2 _ (List.getElem_mem hrow)
  rw [List.getElem_map, List.getElem_take, List.getElem_map, List.getElem_range]
  refine eq_map_range (by rw [List.length_take, hlength, Nat.min_eq_left hw]) fun c hc => ?_
  rw [getD_take _ hc, elemAt, List.getD_eq_getElem _ _ hrow]

/-- A pass over columns replaces the block by the transformed columns. -/
theorem transformCols_eq (hg : IsGrid W H g) (hh : h ≤ H) : (transformCols f w h g).1 =
    replaceBlock w h (fun r => (List.range w).map fun c => (f (columnOf g h c)).1.getD r 0) g := by
  simp only [transformCols, columnsOf_take hg hh, mapSeqs, List.map_map]
  rfl

theorem transformCols_flag (hg : IsGrid W H g) (hh : h ≤ H) :
    (transformCols f w h g).2 = true ↔ ∃ c < w, (f (columnOf g h c)).2 = true := by
  simp [transformCols, columnsOf_take hg hh, mapSeqs]

/-- A pass over rows replaces the block by the transformed rows. -/
theorem transformRows_eq (hg : IsGrid W H g) (hw : w ≤ W) (hh : h ≤ H) :
    (transformRows f w h g).1 = replaceBlock w h (fun r => (f (rowOf g w r)).1) g := by
  simp only [transformRows, take_rows hg hw hh, mapSeqs, replaceBlock]
  refine congrArg (· ++ g.drop h) (List.ext_getElem ?_ fun r hr _ => ?_)
  · simp [hg.1, hh]
  · simp

theorem transformRows_flag (hg : IsGrid W H g) (hw : w ≤ W) (hh : h ≤ H) :
    (transformRows f w h g).2 = true ↔ ∃ r < h, (f (rowOf g w r)).2 = true := by
  simp [transformRows, take_rows hg hw hh, mapSeqs]

/-- Settles O49: each pass replaces the block and nothing else. -/
theorem passActsOnEachColumnAndRow : Obligations.PassActsOnEachColumnAndRow := by
  intro f W H w h g hg hw hh hf cols rows column row
  have hcols : cols.1 = _ := transformCols_eq f hg hh
  have hrows : rows.1 = _ := transformRows_eq f hg hw hh
  have hcolFront : ∀ r < h, ((List.range w).map fun c => (f (columnOf g h c)).1.getD r 0).length = w :=
    fun r _ => by rw [List.length_map, List.length_range]
  have hrowFront : ∀ r < h, (f (rowOf g w r)).1.length = w :=
    fun r _ => by rw [hf, rowOf, List.length_map, List.length_range]
  refine ⟨hcols ▸ isGrid_replaceBlock hg hw hh hcolFront, hrows ▸ isGrid_replaceBlock hg hw hh hrowFront,
    fun r _ c _ => ?_, fun r _ c _ => ?_, transformCols_flag f hg hh, transformRows_flag f hg hw hh⟩
  · rw [hcols, elemAt_replaceBlock hg hh hcolFront]
    refine if_ctx_congr Iff.rfl (fun hin => ?_) fun _ => rfl
    exact getD_map_range _ hin.2
  · rw [hrows, elemAt_replaceBlock hg hh hrowFront]
    rfl

end

end Sys2Proof.Machine
end

section
/-! The level sequence (42_lifting.md R220). -/

namespace Sys2Proof.Machine

/-- The size at level `l + 1`: `n` over `2^l`, rounded up. -/
def upShift (n l : Nat) : Nat := (n + 2 ^ l - 1) / 2 ^ l

@[simp] theorem upShift_zero (n : Nat) : upShift n 0 = n := by simp [upShift]

/-- Halving first leaves one level less. -/
theorem upShift_halfUp (n l : Nat) : upShift (halfUp n) l = upShift n (l + 1) := by
  have hpos : 0 < 2 ^ l := Nat.two_pow_pos l
  have hhalf : halfUp n + 2 ^ l - 1 = (n + 2 ^ (l + 1) - 1) / 2 := by
    rw [halfUp, pow_succ]
    omega
  rw [upShift, upShift, hhalf, Nat.div_div_eq_div_mul, pow_succ, Nat.mul_comm 2]

theorem levelSizes_succ {w h : Nat} (hne : ¬(w = 1 ∧ h = 1)) (iter : Nat) :
    levelSizes (iter + 1) w h = (w, h) :: levelSizes iter (halfUp w) (halfUp h) := if_neg hne

theorem finalBlock_succ {w h : Nat} (hne : ¬(w = 1 ∧ h = 1)) (iter : Nat) :
    finalBlock (iter + 1) w h = finalBlock iter (halfUp w) (halfUp h) := if_neg hne

theorem length_levelSizes_le (iter w h : Nat) : (levelSizes iter w h).length ≤ iter := by
  induction iter generalizing w h with
  | zero => exact le_rfl
  | succ iter ih =>
    by_cases hone : w = 1 ∧ h = 1
    · obtain ⟨rfl, rfl⟩ := hone
      exact Nat.zero_le _
    · rw [levelSizes_succ hone]
      exact Nat.succ_le_succ (ih _ _)

/-- Sizes up to `2^k` have at most `k` levels. -/
theorem length_levelSizes_le_log {iter w h k : Nat} (hw1 : 1 ≤ w) (hh1 : 1 ≤ h) (hw : w ≤ 2 ^ k) (hh : h ≤ 2 ^ k) :
    (levelSizes iter w h).length ≤ k := by
  induction iter generalizing w h k with
  | zero => exact Nat.zero_le _
  | succ iter ih =>
    by_cases hone : w = 1 ∧ h = 1
    · obtain ⟨rfl, rfl⟩ := hone
      exact Nat.zero_le _
    · rw [levelSizes_succ hone]
      cases k with
      | zero => exact absurd ⟨Nat.le_antisymm hw hw1, Nat.le_antisymm hh hh1⟩ hone
      | succ k =>
        rw [pow_succ] at hw hh
        exact Nat.succ_le_succ (ih (by rw [halfUp]; omega) (by rw [halfUp]; omega) (by rw [halfUp]; omega)
          (by rw [halfUp]; omega))

theorem levelSizes_getD {iter w h l : Nat} (hl : l < (levelSizes iter w h).length) :
    (levelSizes iter w h).getD l (0, 0) = (upShift w l, upShift h l) ∧
      (levelSizes iter w h).getD l (0, 0) ≠ (1, 1) := by
  induction iter generalizing w h l with
  | zero => exact absurd hl (Nat.not_lt_zero l)
  | succ iter ih =>
    by_cases hone : w = 1 ∧ h = 1
    · obtain ⟨rfl, rfl⟩ := hone
      exact absurd hl (Nat.not_lt_zero l)
    rw [levelSizes_succ hone] at hl ⊢
    cases l with
    | zero => exact ⟨by simp, fun heq => hone (Prod.mk.inj heq)⟩
    | succ l =>
      rw [List.getD_cons_succ, ← upShift_halfUp, ← upShift_halfUp]
      exact ih (Nat.lt_of_succ_lt_succ hl)

theorem finalBlock_eq (iter w h : Nat) : finalBlock iter w h =
    (upShift w (levelSizes iter w h).length, upShift h (levelSizes iter w h).length) := by
  induction iter generalizing w h with
  | zero => simp [finalBlock, levelSizes]
  | succ iter ih =>
    by_cases hone : w = 1 ∧ h = 1
    · obtain ⟨rfl, rfl⟩ := hone
      simp [finalBlock, levelSizes]
    · rw [finalBlock_succ hone, levelSizes_succ hone, List.length_cons, ih, upShift_halfUp, upShift_halfUp]

/-- A budget that is not spent stopped at a block of one element. -/
theorem finalBlock_of_length_lt {iter w h : Nat} (hlt : (levelSizes iter w h).length < iter) :
    finalBlock iter w h = (1, 1) := by
  induction iter generalizing w h with
  | zero => exact absurd hlt (Nat.not_lt_zero _)
  | succ iter ih =>
    by_cases hone : w = 1 ∧ h = 1
    · obtain ⟨rfl, rfl⟩ := hone
      rfl
    · rw [levelSizes_succ hone] at hlt
      rw [finalBlock_succ hone]
      exact ih (Nat.lt_of_succ_lt_succ hlt)

/-- Settles O50: each level halves the sizes, so 16 levels reach one element. -/
theorem levelsHalveRoundingUp : Obligations.LevelsHalveRoundingUp := by
  intro iter w h hw1 hw hh1 hh ls up
  have hlog : ls.length ≤ 16 := length_levelSizes_le_log hw1 hh1 (hw.trans (by decide)) (hh.trans (by decide))
  exact ⟨le_min (length_levelSizes_le iter w h) (hlog.trans (by decide)), fun l hl => levelSizes_getD hl,
    finalBlock_eq iter w h, finalBlock_of_length_lt⟩

end Sys2Proof.Machine
end

section
/-! The transform commands on memory (42_lifting.md R211, R212, R222 to R224). -/

namespace Sys2Proof.Machine

/-! ## 32-bit values stay 32-bit values -/

/-- A flagged transform of sequences that keeps their length, and 32-bit values 32-bit values. -/
structure SeqTransform (f : List Int → List Int × Bool) : Prop where
  length : ∀ x, (f x).1.length = x.length
  coef : ∀ x, (∀ v ∈ x, Coef32 v) → ∀ v ∈ (f x).1, Coef32 v

theorem coef32_of_mem_scaleBand {k : Nat} {xs : List Int} {v : Int} (hv : v ∈ (scaleBand k xs).1) : Coef32 v := by
  obtain ⟨out, hout, rfl⟩ := List.mem_map.mp hv
  obtain ⟨x, -, rfl⟩ := List.mem_map.mp hout
  exact wrap32_range _

theorem mem_interleave {a d : List Int} {v : Int} (hv : v ∈ interleave a d) : v ∈ a ∨ v ∈ d := by
  induction a, d using interleave.induct with
  | case1 d => cases hv
  | case2 x as => exact .inl (List.mem_cons.mpr (.inl (List.mem_singleton.mp hv)))
  | case3 x as y ds ih =>
    obtain rfl | hv := List.mem_cons.mp hv
    · exact .inl List.mem_cons_self
    obtain rfl | hv := List.mem_cons.mp hv
    · exact .inr List.mem_cons_self
    · exact (ih hv).imp (List.mem_cons_of_mem _) (List.mem_cons_of_mem _)

theorem coef32_tdiv {v : Int} (hv : Coef32 v) (k : Nat) : Coef32 (tdiv v k) := by
  have hrange := wrap32_range (v.tdiv k)
  rwa [wrap32_tdiv hv k] at hrange

theorem Lifting.coef_divided (T : Lifting) {y : List Int} (hy : ∀ v ∈ y, Coef32 v) : (T.divided y).Coef := by
  constructor
  · intro v hv
    obtain ⟨u, hu, rfl⟩ := List.mem_map.mp hv
    exact coef32_tdiv (hy u (List.mem_of_mem_take hu)) _
  · intro v hv
    obtain ⟨u, hu, rfl⟩ := List.mem_map.mp hv
    exact coef32_tdiv (hy u (List.mem_of_mem_drop hu)) _

theorem Lifting.seqTransform_forward (T : Lifting) : SeqTransform T.forward where
  length := T.length_forward
  coef := fun x hx v hv => by
    obtain hshort | hlong := Nat.lt_or_ge x.length 2
    · rw [forward_short hshort] at hv
      exact hx v hv
    · rw [forward_eq hlong] at hv
      exact (List.mem_append.mp hv).elim coef32_of_mem_scaleBand coef32_of_mem_scaleBand

theorem Lifting.seqTransform_inverse (T : Lifting) : SeqTransform T.inverse where
  length := T.length_inverse
  coef := fun x hx v hv => by
    obtain hshort | hlong := Nat.lt_or_ge x.length 2
    · rw [inverse_short hshort] at hv
      exact hx v hv
    · rw [inverse_eq hlong] at hv
      obtain ⟨happrox, hdetail⟩ := (T.coef_divided hx).liftAll (-1) T.steps.reverse
      exact (mem_interleave hv).elim (happrox v) (hdetail v)

/-! ## The kinds that select a transform -/

/-- `KIND` selects the transform `T` (R201). -/
def SelectsLifting (r : Regs) (T : Lifting) : Prop :=
  (r.kind = 1 ∧ T = haarInt) ∨ (r.kind = 2 ∧ T = bior22Int) ∨ (r.kind = 3 ∧ T = r.customLifting)

theorem SelectsLifting.lifting_eq {r : Regs} {T : Lifting} (h : SelectsLifting r T) : r.lifting = some T := by
  obtain ⟨hkind, rfl⟩ | ⟨hkind, rfl⟩ | ⟨hkind, rfl⟩ := h <;> simp [Regs.lifting, hkind]

/-- A transform command that passes its checks has a legal kind. -/
theorem badKind_of_pass {i : Instr} {s : State} (hi : i = .wt1Fwd ∨ i = .wt1Inv ∨ i = .wt2Fwd ∨ i = .wt2Inv)
    (h : ChecksPass i s) : badKind s.regs = false := by
  refine Bool.eq_false_iff.mpr fun hbad => ?_
  have hcfg := badKind_eq_true.mp hbad
  obtain rfl | rfl | rfl | rfl := hi <;> exact h.1 hcfg

/-! ## The vector view (R78) -/

/-- The vector view is a word view of one column. -/
def Regs.vectorView (r : Regs) : View := ⟨r.srcAddr.toNat, 1, r.width, r.srcStride.toNat⟩

theorem elemAt_singletons (xs : List Int) (i : Nat) : elemAt (xs.map fun x => [x]) i 0 = xs.getD i 0 := by
  have hentry : ∀ o : Option Int, ((o.map fun x => [x]).getD [])[0]?.getD 0 = o.getD 0 := fun o => by cases o <;> rfl
  simp only [elemAt, List.getD_eq_getElem?_getD, List.getElem?_map, hentry]

theorem Regs.vectorCells_eq_gridCells (r : Regs) (xs : List Int) :
    r.vectorCells xs = r.vectorView.gridCells (xs.map fun x => [x]) := by
  refine congrArg List.flatten (List.map_congr_left fun i _ => ?_)
  have hone : List.range r.vectorView.width = [0] := rfl
  rw [hone, List.map_singleton, List.flatten_singleton, ← elemAt_singletons xs i]
  rfl

theorem runWt1_of_lifting {s : State} {T : Lifting} (hT : s.regs.lifting = some T)
    (f : Lifting → List Int → List Int × Bool) : runWt1 f s = .ok (s.regs.vectorCells (f T (s.regs.readVector s.mem)).1)
      { outLen := s.regs.width, arithOvf := (f T (s.regs.readVector s.mem)).2 } := by
  rw [runWt1, hT]

/-- Settles O39: the vector is read, transformed and written back, and its elements do not overlap. -/
theorem wt1TransformsTheVector : Obligations.Wt1TransformsTheVector := by
  intro s T hwf hselects i f hi hpass elem y
  have hT := SelectsLifting.lifting_eq hselects
  have hgeom : badWordGeom s.regs.vectorView = false := by
    have hbad : ¬(s.regs.width = 0 ∨ (2 ≤ s.regs.width ∧ s.regs.srcStride.toNat < 4)) := by
      obtain ⟨rfl, -⟩ | ⟨rfl, -⟩ := hi <;> exact hpass.2.1
    exact badWordGeom_eq_false.mpr fun h => hbad (h.resolve_left one_ne_zero)
  have hexec : exec i s = .next (s.complete (.ok (s.regs.vectorCells y.1)
      { outLen := s.regs.width, arithOvf := y.2 })) := by
    obtain ⟨rfl, rfl⟩ | ⟨rfl, rfl⟩ := hi
    · rw [exec_wt1Fwd_of_pass (badKind_of_pass (.inl rfl) hpass) hpass, runWt1_of_lifting hT]
      rfl
    · rw [exec_wt1Inv_of_pass (badKind_of_pass (.inr (.inl rfl)) hpass) hpass, runWt1_of_lifting hT]
      rfl
  have hf : SeqTransform f := by
    obtain ⟨-, rfl⟩ | ⟨-, rfl⟩ := hi
    · exact T.seqTransform_forward
    · exact T.seqTransform_inverse
  have hy : ∀ v ∈ y.1, Coef32 v := hf.coef _ fun v hv => by
    obtain ⟨k, -, rfl⟩ := List.mem_map.mp hv
    exact s.mem.coef32_readCoef _
  have hmem : (s.complete (.ok (s.regs.vectorCells y.1) { outLen := s.regs.width, arithOvf := y.2 })).mem =
      s.mem.writeAll (s.regs.vectorView.gridCells (y.1.map fun x => [x])) :=
    congrArg s.mem.writeAll (s.regs.vectorCells_eq_gridCells y.1)
  refine ⟨_, hexec, fun k hk => ?_, fun a ha => ?_, s.completedWith_ok _ _⟩
  · rw [hmem]
    refine (View.readCoef_writeAll_gridCells (r := k) (c := 0) hwf hgeom _ hk zero_lt_one).trans ?_
    rw [elemAt_singletons]
    exact wrap32_of_range (coef32_getD hy k)
  · rw [hmem]
    refine View.read_writeAll_gridCells_outside s.mem _ _ fun r hr c hc => ?_
    obtain rfl := Nat.lt_one_iff.mp hc
    exact ha r hr

/-! ## Grids of 32-bit values -/

/-- A `W x H` grid of 32-bit values. -/
structure CoefGrid (W H : Nat) (g : Grid) : Prop where
  isGrid : IsGrid W H g
  coef : ∀ r c, Coef32 (elemAt g r c)

section
variable {W H w h : Nat} {g : Grid} {f : List Int → List Int × Bool}

theorem coef_columnOf (hg : ∀ r c, Coef32 (elemAt g r c)) (h c : Nat) : ∀ v ∈ columnOf g h c, Coef32 v := fun v hv => by
  obtain ⟨r, -, rfl⟩ := List.mem_map.mp hv
  exact hg r c

theorem coef_rowOf (hg : ∀ r c, Coef32 (elemAt g r c)) (w r : Nat) : ∀ v ∈ rowOf g w r, Coef32 v := fun v hv => by
  obtain ⟨c, -, rfl⟩ := List.mem_map.mp hv
  exact hg r c

theorem length_column (r : Nat) : ((List.range w).map fun c => (f (columnOf g h c)).1.getD r 0).length = w := by
  rw [List.length_map, List.length_range]

theorem SeqTransform.length_rowOf (hf : SeqTransform f) (r : Nat) : (f (rowOf g w r)).1.length = w := by
  rw [hf.length, rowOf, List.length_map, List.length_range]

theorem SeqTransform.length_columnOf (hf : SeqTransform f) (c : Nat) : (f (columnOf g h c)).1.length = h := by
  rw [hf.length, columnOf, List.length_map, List.length_range]

/-- What a pass over columns leaves at each element. -/
theorem elemAt_transformCols (hg : IsGrid W H g) (hh : h ≤ H) (r c : Nat) : elemAt (transformCols f w h g).1 r c =
    if r < h ∧ c < w then (f (columnOf g h c)).1.getD r 0 else elemAt g r c := by
  rw [transformCols_eq f hg hh, elemAt_replaceBlock hg hh fun r _ => length_column r]
  exact if_ctx_congr Iff.rfl (fun hin => getD_map_range _ hin.2) fun _ => rfl

/-- What a pass over rows leaves at each element. -/
theorem elemAt_transformRows (hf : SeqTransform f) (hg : IsGrid W H g) (hw : w ≤ W) (hh : h ≤ H) (r c : Nat) :
    elemAt (transformRows f w h g).1 r c =
      if r < h ∧ c < w then (f (rowOf g w r)).1.getD c 0 else elemAt g r c := by
  rw [transformRows_eq f hg hw hh, elemAt_replaceBlock hg hh fun r _ => hf.length_rowOf r]

theorem CoefGrid.cols (hf : SeqTransform f) (hg : CoefGrid W H g) (hw : w ≤ W) (hh : h ≤ H) :
    CoefGrid W H (transformCols f w h g).1 where
  isGrid := transformCols_eq f hg.isGrid hh ▸ isGrid_replaceBlock hg.isGrid hw hh fun r _ => length_column r
  coef := fun r c => by
    rw [elemAt_transformCols hg.isGrid hh]
    split
    · exact coef32_getD (hf.coef _ (coef_columnOf hg.coef h c)) r
    · exact hg.coef r c

theorem CoefGrid.rows (hf : SeqTransform f) (hg : CoefGrid W H g) (hw : w ≤ W) (hh : h ≤ H) :
    CoefGrid W H (transformRows f w h g).1 where
  isGrid := transformRows_eq f hg.isGrid hw hh ▸ isGrid_replaceBlock hg.isGrid hw hh fun r _ => hf.length_rowOf r
  coef := fun r c => by
    rw [elemAt_transformRows hf hg.isGrid hw hh]
    split
    · exact coef32_getD (hf.coef _ (coef_rowOf hg.coef w r)) c
    · exact hg.coef r c

theorem grid_ext {g g' : Grid} (hg : IsGrid W H g) (hg' : IsGrid W H g')
    (h : ∀ r < H, ∀ c < W, elemAt g r c = elemAt g' r c) : g = g' := by
  refine List.ext_getElem (hg.1.trans hg'.1.symm) fun r hr hr' => ?_
  have hrH : r < H := hg.1 ▸ hr
  refine ext_getD ((hg.2 _ (List.getElem_mem hr)).trans (hg'.2 _ (List.getElem_mem hr')).symm) fun c hc => ?_
  have hcW : c < W := hg.2 _ (List.getElem_mem hr) ▸ hc
  have heq := h r hrH c hcW
  rwa [elemAt, elemAt, List.getD_eq_getElem _ _ hr, List.getD_eq_getElem _ _ hr'] at heq

variable {f' : List Int → List Int × Bool}

/-- Undoing each column undoes the pass. -/
theorem transformCols_undo (hf : SeqTransform f) (hf' : SeqTransform f')
    (hundo : ∀ x, (∀ v ∈ x, Coef32 v) → (f' (f x).1).1 = x) (hg : CoefGrid W H g) (hw : w ≤ W) (hh : h ≤ H) :
    (transformCols f' w h (transformCols f w h g).1).1 = g := by
  have hforward := hg.cols hf hw hh
  refine grid_ext (hforward.cols hf' hw hh).isGrid hg.isGrid fun r _ c _ => ?_
  rw [elemAt_transformCols hforward.isGrid hh]
  split
  · next hin =>
    have hcolumn : columnOf (transformCols f w h g).1 h c = (f (columnOf g h c)).1 :=
      (eq_map_range (hf.length_columnOf c) fun r hr => by
        rw [elemAt_transformCols hg.isGrid hh, if_pos ⟨hr, hin.2⟩]).symm
    rw [hcolumn, hundo _ (coef_columnOf hg.coef h c)]
    exact getD_map_range _ hin.1
  · next hout => rw [elemAt_transformCols hg.isGrid hh, if_neg hout]

/-- Undoing each row undoes the pass. -/
theorem transformRows_undo (hf : SeqTransform f) (hf' : SeqTransform f')
    (hundo : ∀ x, (∀ v ∈ x, Coef32 v) → (f' (f x).1).1 = x) (hg : CoefGrid W H g) (hw : w ≤ W) (hh : h ≤ H) :
    (transformRows f' w h (transformRows f w h g).1).1 = g := by
  have hforward := hg.rows hf hw hh
  refine grid_ext (hforward.rows hf' hw hh).isGrid hg.isGrid fun r _ c _ => ?_
  rw [elemAt_transformRows hf' hforward.isGrid hw hh]
  split
  · next hin =>
    have hrow : rowOf (transformRows f w h g).1 w r = (f (rowOf g w r)).1 :=
      (eq_map_range (hf.length_rowOf r) fun c hc => by
        rw [elemAt_transformRows hf hg.isGrid hw hh, if_pos ⟨hin.1, hc⟩]).symm
    rw [hrow, hundo _ (coef_rowOf hg.coef w r)]
    exact getD_map_range _ hin.2
  · next hout => rw [elemAt_transformRows hf hg.isGrid hw hh, if_neg hout]

end

/-! ## Levels -/

section
variable {W H : Nat} {g : Grid} (T : Lifting) {wh : Nat × Nat}

theorem CoefGrid.levelForward (hg : CoefGrid W H g) (hw : wh.1 ≤ W) (hh : wh.2 ≤ H) :
    CoefGrid W H (forwardLevel T g wh).1 := by
  have hT := T.seqTransform_forward
  have hcols : CoefGrid W H (if 1 < wh.2 then transformCols T.forward wh.1 wh.2 g else (g, false)).1 := by
    split
    · exact hg.cols hT hw hh
    · exact hg
  unfold forwardLevel
  dsimp only
  split
  · exact hcols.rows hT hw hh
  · exact hcols

theorem CoefGrid.levelInverse (hg : CoefGrid W H g) (hw : wh.1 ≤ W) (hh : wh.2 ≤ H) :
    CoefGrid W H (inverseLevel T g wh).1 := by
  have hT := T.seqTransform_inverse
  have hrows : CoefGrid W H (if 1 < wh.1 then transformRows T.inverse wh.1 wh.2 g else (g, false)).1 := by
    split
    · exact hg.rows hT hw hh
    · exact hg
  unfold inverseLevel
  dsimp only
  split
  · exact hrows.cols hT hw hh
  · exact hrows

/-- With unit scales a level back undoes the level (R223). -/
theorem inverseLevel_forwardLevel (hka : T.ka = 1) (hkd : T.kd = 1) (hg : CoefGrid W H g) (hw : wh.1 ≤ W)
    (hh : wh.2 ≤ H) : (inverseLevel T (forwardLevel T g wh).1 wh).1 = g := by
  have hf := T.seqTransform_forward
  have hf' := T.seqTransform_inverse
  have hundo : ∀ x, (∀ v ∈ x, Coef32 v) → (T.inverse (T.forward x).1).1 = x :=
    fun x => Lifting.inverse_forward_of_unit hka hkd
  unfold inverseLevel forwardLevel
  dsimp only
  by_cases hcols : 1 < wh.2 <;> by_cases hrows : 1 < wh.1 <;> simp only [hcols, hrows, if_true, if_false]
  · rw [transformRows_undo hf hf' hundo (hg.cols hf hw hh) hw hh, transformCols_undo hf hf' hundo hg hw hh]
  · rw [transformCols_undo hf hf' hundo hg hw hh]
  · rw [transformRows_undo hf hf' hundo hg hw hh]

variable {ls : List (Nat × Nat)}

theorem CoefGrid.forward (hls : ∀ wh ∈ ls, wh.1 ≤ W ∧ wh.2 ≤ H) (hg : CoefGrid W H g) :
    CoefGrid W H (forward2d T ls g).1 := by
  induction ls generalizing g with
  | nil => exact hg
  | cons wh ls ih =>
    obtain ⟨⟨hw, hh⟩, hls⟩ := List.forall_mem_cons.mp hls
    rw [forward2d_cons]
    exact ih hls (hg.levelForward T hw hh)

theorem CoefGrid.inverse (hls : ∀ wh ∈ ls, wh.1 ≤ W ∧ wh.2 ≤ H) (hg : CoefGrid W H g) :
    CoefGrid W H (inverse2d T ls g).1 := by
  induction ls with
  | nil => exact hg
  | cons wh ls ih =>
    obtain ⟨⟨hw, hh⟩, hls⟩ := List.forall_mem_cons.mp hls
    rw [inverse2d_cons]
    exact (ih hls).levelInverse T hw hh

/-- With unit scales the inverse 2D transform undoes the forward one (R224). -/
theorem inverse2d_forward2d (hka : T.ka = 1) (hkd : T.kd = 1) (hls : ∀ wh ∈ ls, wh.1 ≤ W ∧ wh.2 ≤ H)
    (hg : CoefGrid W H g) : (inverse2d T ls (forward2d T ls g).1).1 = g := by
  induction ls generalizing g with
  | nil => rfl
  | cons wh ls ih =>
    obtain ⟨⟨hw, hh⟩, hls⟩ := List.forall_mem_cons.mp hls
    rw [forward2d_cons, inverse2d_cons]
    dsimp only
    rw [ih hls (hg.levelForward T hw hh), inverseLevel_forwardLevel T hka hkd hg hw hh]

end

/-- No level is larger than the view (R220). -/
theorem mem_levelSizes_le {iter w h : Nat} {wh : Nat × Nat} (hwh : wh ∈ levelSizes iter w h) : wh.1 ≤ w ∧ wh.2 ≤ h := by
  induction iter generalizing w h with
  | zero => cases hwh
  | succ iter ih =>
    by_cases hone : w = 1 ∧ h = 1
    · obtain ⟨rfl, rfl⟩ := hone
      cases hwh
    rw [levelSizes_succ hone] at hwh
    obtain rfl | hwh := List.mem_cons.mp hwh
    · exact ⟨le_rfl, le_rfl⟩
    · obtain ⟨hw, hh⟩ := ih hwh
      exact ⟨hw.trans (halfUp_le w), hh.trans (halfUp_le h)⟩

end Sys2Proof.Machine
end

section
/-! `WT2_FWD` and `WT2_INV`, and one after the other (42_lifting.md R222 to R224). -/

namespace Sys2Proof.Machine

theorem runWt2_of_lifting {s : State} {T : Lifting} (hT : s.regs.lifting = some T)
    (f : Lifting → List (Nat × Nat) → Grid → Grid × Bool) : runWt2 f s =
      .ok (s.regs.srcView.gridCells (f T s.regs.levelList (s.regs.srcView.readGrid s.mem)).1)
        { outLen := s.regs.width * s.regs.height, levels := some s.regs.levelList.length,
          arithOvf := (f T s.regs.levelList (s.regs.srcView.readGrid s.mem)).2 } := by
  rw [runWt2, hT]
  rfl

theorem coefGrid_readGrid (v : View) (m : Memory) : CoefGrid v.width v.height (v.readGrid m) where
  isGrid := v.isGrid_readGrid m
  coef := fun r c => by
    refine coef32_getD (fun u hu => ?_) c
    obtain hr | hr := Nat.lt_or_ge r (v.readGrid m).length
    · rw [List.getD_eq_getElem _ _ hr] at hu
      simp only [View.readGrid, List.getElem_map, List.mem_map] at hu
      obtain ⟨k, -, rfl⟩ := hu
      exact m.coef32_readCoef _
    · rw [List.getD_eq_default _ _ hr] at hu
      cases hu

/-- Settles O40: the view is read, transformed and written back as a grid of 32-bit values. -/
theorem wt2TransformsTheView : Obligations.Wt2TransformsTheView := by
  intro s T hwf hselects i f hi hpass elem ls grid y
  have hT := SelectsLifting.lifting_eq hselects
  have hgeom : badWordGeom s.regs.srcView = false := by
    refine badWordGeom_eq_false.mpr ?_
    obtain ⟨rfl, -⟩ | ⟨rfl, -⟩ := hi <;> exact hpass.2.1
  have hexec : exec i s = .next (s.complete (.ok (s.regs.srcView.gridCells y.1)
      { outLen := s.regs.width * s.regs.height, levels := some ls.length, arithOvf := y.2 })) := by
    obtain ⟨rfl, rfl⟩ | ⟨rfl, rfl⟩ := hi
    · rw [exec_wt2Fwd_of_pass (badKind_of_pass (.inr (.inr (.inl rfl))) hpass) hpass, runWt2_of_lifting hT]
      rfl
    · rw [exec_wt2Inv_of_pass (badKind_of_pass (.inr (.inr (.inr rfl))) hpass) hpass, runWt2_of_lifting hT]
      rfl
  have hgrid : CoefGrid s.regs.width s.regs.height grid := coefGrid_readGrid s.regs.srcView s.mem
  have hls : ∀ wh ∈ ls, wh.1 ≤ s.regs.width ∧ wh.2 ≤ s.regs.height := fun _ => mem_levelSizes_le
  have hy : CoefGrid s.regs.width s.regs.height y.1 := by
    obtain ⟨-, hf⟩ | ⟨-, hf⟩ := hi
    · exact (congrArg (fun f => (f ls grid).1) hf) ▸ hgrid.forward T hls
    · exact (congrArg (fun f => (f ls grid).1) hf) ▸ hgrid.inverse T hls
  refine ⟨_, hexec, fun r hr c hc => ?_, fun a ha => ?_, s.completedWith_ok _ _⟩
  · exact (View.readCoef_writeAll_gridCells hwf hgeom y.1 hr hc).trans (wrap32_of_range (hy.coef r c))
  · exact View.read_writeAll_gridCells_outside s.mem s.regs.srcView y.1 ha

/-! ## The round trip (R224) -/

theorem sext_inj {u v : Nat} (hu : u < 2 ^ 32) (hv : v < 2 ^ 32) (h : sext 32 u = sext 32 v) : u = v := by
  unfold sext at h
  split at h <;> split at h <;> omega

theorem digit_inj {k x y x' y' : Nat} (hx : x < k) (hx' : x' < k) (h : x + k * y = x' + k * y') :
    x = x' ∧ y = y' := by
  have hlow : x = x' := by
    have hmod := congrArg (· % k) h
    simpa only [Nat.add_mul_mod_self_left, Nat.mod_eq_of_lt hx, Nat.mod_eq_of_lt hx'] using hmod
  subst hlow
  exact ⟨rfl, Nat.eq_of_mul_eq_mul_left (Nat.zero_lt_of_lt hx) (Nat.add_left_cancel h)⟩

/-- A word as nested bytes, lowest first. -/
theorem Memory.readWord_eq (m : Memory) (addr : Nat) : m.readWord addr = (m.read addr).toNat +
    2 ^ 8 * ((m.read (addr + 1)).toNat + 2 ^ 8 * ((m.read (addr + 2)).toNat + 2 ^ 8 * (m.read (addr + 3)).toNat)) := by
  rw [readWord]
  ring

theorem Memory.readWord_lt (m : Memory) (addr : Nat) : m.readWord addr < 2 ^ 32 := by
  have h0 := (m.read addr).isLt
  have h1 := (m.read (addr + 1)).isLt
  have h2 := (m.read (addr + 2)).isLt
  have h3 := (m.read (addr + 3)).isLt
  rw [readWord]
  omega

/-- An element determines its bytes (20_memory.md R72). -/
theorem Memory.read_of_readCoef_eq {m m' : Memory} {addr : Nat} (h : m.readCoef addr = m'.readCoef addr) {a : Nat}
    (ha : addr ≤ a ∧ a < addr + 4) : m.read a = m'.read a := by
  have hword := sext_inj (m.readWord_lt addr) (m'.readWord_lt addr) h
  rw [readWord_eq, readWord_eq] at hword
  obtain ⟨h0, hword⟩ := digit_inj (BitVec.isLt _) (BitVec.isLt _) hword
  obtain ⟨h1, hword⟩ := digit_inj (BitVec.isLt _) (BitVec.isLt _) hword
  obtain ⟨h2, h3⟩ := digit_inj (BitVec.isLt _) (BitVec.isLt _) hword
  refine BitVec.eq_of_toNat_eq ?_
  obtain rfl | rfl | rfl | rfl : a = addr ∨ a = addr + 1 ∨ a = addr + 2 ∨ a = addr + 3 := by omega
  · exact h0
  · exact h1
  · exact h2
  · exact h3

/-- The result registers are no operands of the checks, so after `WT2_FWD` those of `WT2_INV` pass. -/
theorem checksPass_wt2Inv_of_wt2Fwd {s t : State} (h : ChecksPass .wt2Fwd s) {outLen : Word} {levels : BitVec 5}
    {status : Status} (ht : CompletedWith s t { s.regs with outLen := outLen, levels := levels, status := status }) :
    ChecksPass .wt2Inv t := by
  obtain ⟨hregs, -, -, -, hsize, -⟩ := ht
  obtain ⟨hcfg, hgeom, halign, hbus, halias⟩ := h
  simp only [ChecksPass, CfgBad, GeomBad, AlignBad, BusBad, AliasBad, readBase, readLength, writeBase, writeLength,
    hregs, hsize]
  exact ⟨hcfg, hgeom, halign, hbus, halias⟩

/-- The round trip when `KIND` selects a transform with unit scales. -/
theorem wt2_roundTrip_of_lifting {s : State} (hwf : s.mem.wf) (hpass : ChecksPass .wt2Fwd s) {T : Lifting}
    (hselects : SelectsLifting s.regs T) (hka : T.ka = 1) (hkd : T.kd = 1) : ∃ t u, exec .wt2Fwd s = .next t ∧
      exec .wt2Inv t = .next u ∧ u.regs.status.done = true ∧ u.mem = s.mem := by
  obtain ⟨t, hforward, hvalue, hframe, ht⟩ :=
    wt2TransformsTheView s T hwf hselects .wt2Fwd (forward2d T) (.inl ⟨rfl, rfl⟩) hpass
  have hwfT := wf_of_exec hwf hforward
  have hback := wt2TransformsTheView t T hwfT (by rw [ht.1]; exact hselects) .wt2Inv (inverse2d T) (.inr ⟨rfl, rfl⟩)
    (checksPass_wt2Inv_of_wt2Fwd hpass ht)
  rw [ht.1] at hback
  obtain ⟨u, hinverse, hrestored, hframe', hu⟩ := hback
  have hgrid := coefGrid_readGrid s.regs.srcView s.mem
  have hls : ∀ wh ∈ s.regs.levelList, wh.1 ≤ s.regs.width ∧ wh.2 ≤ s.regs.height := fun _ => mem_levelSizes_le
  have hleft : s.regs.srcView.readGrid t.mem = (forward2d T s.regs.levelList (s.regs.srcView.readGrid s.mem)).1 :=
    grid_ext (View.isGrid_readGrid _ _) (hgrid.forward T hls).isGrid fun r hr c hc =>
      (View.elemAt_readGrid _ _ hr hc).trans (hvalue r hr c hc)
  have hback : (inverse2d T s.regs.levelList (s.regs.srcView.readGrid t.mem)).1 = s.regs.srcView.readGrid s.mem := by
    rw [hleft, inverse2d_forward2d T hka hkd hls hgrid]
  refine ⟨t, u, hforward, hinverse, by rw [hu.1]; rfl, Memory.eq_of_read_eq (wf_of_exec hwfT hinverse) hwf fun a => ?_⟩
  by_cases hin : ∃ r < s.regs.height, ∃ c < s.regs.width,
      s.regs.srcView.wordAddr r c ≤ a ∧ a < s.regs.srcView.wordAddr r c + 4
  · obtain ⟨r, hr, c, hc, ha⟩ := hin
    refine Memory.read_of_readCoef_eq (addr := s.regs.srcView.wordAddr r c) ?_ ha
    calc u.mem.readCoef (s.regs.srcView.wordAddr r c)
        = elemAt (inverse2d T s.regs.levelList (s.regs.srcView.readGrid t.mem)).1 r c := hrestored r hr c hc
      _ = s.mem.readCoef (s.regs.srcView.wordAddr r c) := by rw [hback, View.elemAt_readGrid _ _ hr hc]
  · have hout : ∀ r < s.regs.height, ∀ c < s.regs.width,
        ¬(s.regs.srcView.wordAddr r c ≤ a ∧ a < s.regs.srcView.wordAddr r c + 4) :=
      fun r hr c hc ha => hin ⟨r, hr, c, hc, ha⟩
    exact (hframe' a hout).trans (hframe a hout)

/-- Settles O47: the levels back undo the levels, and an element determines its bytes; with `KIND = NONE` nothing is
written. -/
theorem twoDimensionalRoundTrip : Obligations.TwoDimensionalRoundTrip := by
  intro s hwf hpass hscales
  have hkind : s.regs.kind < 4 := Nat.not_le.mp fun hge => hpass.1 (.inl hge)
  obtain h0 | h1 | h2 | h3 : s.regs.kind = 0 ∨ s.regs.kind = 1 ∨ s.regs.kind = 2 ∨ s.regs.kind = 3 := by omega
  · obtain ⟨t, hforward, hmem, ht⟩ := (kindNoneChangesNoMemory s h0).2 .wt2Fwd (.inl rfl) hpass
    obtain ⟨u, hinverse, hmem', hu⟩ := (kindNoneChangesNoMemory t (by rw [ht.1]; exact h0)).2 .wt2Inv (.inr rfl)
      (checksPass_wt2Inv_of_wt2Fwd hpass ht)
    exact ⟨t, u, hforward, hinverse, by rw [hu.1]; rfl, hmem'.trans hmem⟩
  · exact wt2_roundTrip_of_lifting hwf hpass (.inl ⟨h1, rfl⟩) rfl rfl
  · exact wt2_roundTrip_of_lifting hwf hpass (.inr (.inl ⟨h2, rfl⟩)) rfl rfl
  · obtain ⟨hka, hkd⟩ := hscales h3
    exact wt2_roundTrip_of_lifting hwf hpass (.inr (.inr ⟨h3, rfl⟩)) hka hkd

end Sys2Proof.Machine
end
